-- ==== Sys2Proof/Word.lean ====
section
/-! DEFINITION. The word type of the sketchpad engine and its plainest arithmetic (spec/00_scope.md R8, R9). -/

namespace Sys2Proof

/-- A word: a 32-bit pattern (R8). -/
abbrev Word := BitVec 32

/-- `uint32(w)` of R9, in 0 .. 2^32-1. -/
abbrev uint32 (w : Word) : Nat := w.toNat

/-- `sint32(w)` of R9: the two's-complement value, in -2^31 .. 2^31-1. -/
abbrev sint32 (w : Word) : Int := w.toInt

/-- `word(i)` of R9: the word whose `uint32` is `i mod 2^32`. -/
abbrev word (i : Int) : Word := BitVec.ofInt 32 i

end Sys2Proof
end

