-- ==== Sys2Proof/Machine/Flags.lean ====
section
/-! DEFINITION. The engine has no flags (spec/10_state.md R29): a comparison or logical operator writes the word 0 or 1, and
a branch tests a register for nonzero. These are those two conversions. -/

namespace Sys2Proof.Machine

/-- "comparisons and logical ops yield 0 or 1" (R125). -/
def truth (b : Bool) : Word := if b then 1 else 0

/-- "nonzero" is any word but 0 (R162). -/
def isNonzero (w : Word) : Bool := w != 0

end Sys2Proof.Machine
end

