-- ==== Sys2Proof/Syntax.lean ====
section
/-! DEFINITION. The instruction set as syntax: the 27 opcodes (spec/30_encoding.md R65), the 21 operators (R66) and
`Instr`, one constructor for each row of spec/opcode_table.json. -/

namespace Sys2Proof

/-- The 27 opcodes of R65, in the order of its table. -/
inductive Op where
  /-- `NOP` (R90) -/
  | nop
  /-- `LDS.L` (R94) -/
  | ldsL
  /-- `LDS.R` (R95) -/
  | ldsR
  /-- `STS.L` (R96) -/
  | stsL
  /-- `STS.R` (R97) -/
  | stsR
  /-- `LDSI.L` (R98) -/
  | ldsiL
  /-- `LDSI.R` (R99) -/
  | ldsiR
  /-- `STSI.L` (R100) -/
  | stsiL
  /-- `STSI.R` (R101) -/
  | stsiR
  /-- `LDF.L` (R102) -/
  | ldfL
  /-- `LDF.R` (R103) -/
  | ldfR
  /-- `STF.L` (R104) -/
  | stfL
  /-- `STF.R` (R105) -/
  | stfR
  /-- `LDFI.L` (R106) -/
  | ldfiL
  /-- `LDFI.R` (R107) -/
  | ldfiR
  /-- `STFI.L` (R108) -/
  | stfiL
  /-- `STFI.R` (R109) -/
  | stfiR
  /-- `UOP.L` (R120) -/
  | uopL
  /-- `UOP.R` (R121) -/
  | uopR
  /-- `BOP.L` (R122) -/
  | bopL
  /-- `BOP.R` (R123) -/
  | bopR
  /-- `SWAP` (R124) -/
  | swap
  /-- `BRL` (R162) -/
  | brl
  /-- `BRR` (R163) -/
  | brr
  /-- `JMP` (R164) -/
  | jmp
  /-- `CALL` (R165) -/
  | call
  /-- `RET` (R166) -/
  | ret
  deriving DecidableEq, Repr

/-- Every opcode, in the order of R65. -/
def Op.all : List Op :=
  [.nop, .ldsL, .ldsR, .stsL, .stsR, .ldsiL, .ldsiR, .stsiL, .stsiR,
   .ldfL, .ldfR, .stfL, .stfR, .ldfiL, .ldfiR, .stfiL, .stfiR,
   .uopL, .uopR, .bopL, .bopR, .swap, .brl, .brr, .jmp, .call, .ret]

/-- The unary operators of R66. -/
inductive UnOp where
  /-- `BNOT` (R126) -/
  | bnot
  /-- `LNOT` (R127) -/
  | lnot
  deriving DecidableEq, Repr

/-- Every unary operator. -/
def UnOp.all : List UnOp := [.bnot, .lnot]

/-- The binary operators of R66. -/
inductive BinOp where
  /-- `SHR` (R128) -/
  | shr
  /-- `SHL` (R129) -/
  | shl
  /-- `AND` (R130) -/
  | and
  /-- `OR` (R131) -/
  | or
  /-- `XOR` (R132) -/
  | xor
  /-- `EQ` (R133) -/
  | eq
  /-- `NE` (R134) -/
  | ne
  /-- `LE` (R135) -/
  | le
  /-- `GE` (R136) -/
  | ge
  /-- `LT` (R137) -/
  | lt
  /-- `GT` (R138) -/
  | gt
  /-- `LAND` (R139) -/
  | land
  /-- `LOR` (R140) -/
  | lor
  /-- `ADD` (R141) -/
  | add
  /-- `SUB` (R142) -/
  | sub
  /-- `MUL` (R143) -/
  | mul
  /-- `DIV` (R144) -/
  | div
  /-- `MOD` (R145) -/
  | mod
  /-- `POW` (R146) -/
  | pow
  deriving DecidableEq, Repr

/-- Every binary operator, in the order of R66. -/
def BinOp.all : List BinOp :=
  [.shr, .shl, .and, .or, .xor, .eq, .ne, .le, .ge, .lt,
   .gt, .land, .lor, .add, .sub, .mul, .div, .mod, .pow]

/-- An instruction, one constructor for each row of spec/opcode_table.json.

`off` is the signed offset of format O (R62), a mathematical integer that `WellFormed` confines to 24 bits (R73).
`ign` holds the bits the decoder ignores (R64, R70): 23:0 of format N, 15:0 of format P. No effect depends on them; they
are kept because the record of an operator fault holds the whole instruction word (R191). DESIGN CHOICE, safe: log 10. -/
inductive Instr where
  /-- `NOP` (R90) -/
  | nop (ign : BitVec 24)
  /-- `LDS.L` (R94) -/
  | ldsL (off : Int)
  /-- `LDS.R` (R95) -/
  | ldsR (off : Int)
  /-- `STS.L` (R96) -/
  | stsL (off : Int)
  /-- `STS.R` (R97) -/
  | stsR (off : Int)
  /-- `LDSI.L` (R98) -/
  | ldsiL (off : Int)
  /-- `LDSI.R` (R99) -/
  | ldsiR (off : Int)
  /-- `STSI.L` (R100) -/
  | stsiL (off : Int)
  /-- `STSI.R` (R101) -/
  | stsiR (off : Int)
  /-- `LDF.L` (R102) -/
  | ldfL (off : Int)
  /-- `LDF.R` (R103) -/
  | ldfR (off : Int)
  /-- `STF.L` (R104) -/
  | stfL (off : Int)
  /-- `STF.R` (R105) -/
  | stfR (off : Int)
  /-- `LDFI.L` (R106) -/
  | ldfiL (off : Int)
  /-- `LDFI.R` (R107) -/
  | ldfiR (off : Int)
  /-- `STFI.L` (R108) -/
  | stfiL (off : Int)
  /-- `STFI.R` (R109) -/
  | stfiR (off : Int)
  /-- `UOP.L BNOT` (R120, R126) -/
  | uopLBnot (ign : BitVec 16)
  /-- `UOP.L LNOT` (R120, R127) -/
  | uopLLnot (ign : BitVec 16)
  /-- `UOP.R BNOT` (R121, R126) -/
  | uopRBnot (ign : BitVec 16)
  /-- `UOP.R LNOT` (R121, R127) -/
  | uopRLnot (ign : BitVec 16)
  /-- `BOP.L SHR` (R122, R128) -/
  | bopLShr (ign : BitVec 16)
  /-- `BOP.L SHL` (R122, R129) -/
  | bopLShl (ign : BitVec 16)
  /-- `BOP.L AND` (R122, R130) -/
  | bopLAnd (ign : BitVec 16)
  /-- `BOP.L OR` (R122, R131) -/
  | bopLOr (ign : BitVec 16)
  /-- `BOP.L XOR` (R122, R132) -/
  | bopLXor (ign : BitVec 16)
  /-- `BOP.L EQ` (R122, R133) -/
  | bopLEq (ign : BitVec 16)
  /-- `BOP.L NE` (R122, R134) -/
  | bopLNe (ign : BitVec 16)
  /-- `BOP.L LE` (R122, R135) -/
  | bopLLe (ign : BitVec 16)
  /-- `BOP.L GE` (R122, R136) -/
  | bopLGe (ign : BitVec 16)
  /-- `BOP.L LT` (R122, R137) -/
  | bopLLt (ign : BitVec 16)
  /-- `BOP.L GT` (R122, R138) -/
  | bopLGt (ign : BitVec 16)
  /-- `BOP.L LAND` (R122, R139) -/
  | bopLLand (ign : BitVec 16)
  /-- `BOP.L LOR` (R122, R140) -/
  | bopLLor (ign : BitVec 16)
  /-- `BOP.L ADD` (R122, R141) -/
  | bopLAdd (ign : BitVec 16)
  /-- `BOP.L SUB` (R122, R142) -/
  | bopLSub (ign : BitVec 16)
  /-- `BOP.L MUL` (R122, R143) -/
  | bopLMul (ign : BitVec 16)
  /-- `BOP.L DIV` (R122, R144) -/
  | bopLDiv (ign : BitVec 16)
  /-- `BOP.L MOD` (R122, R145) -/
  | bopLMod (ign : BitVec 16)
  /-- `BOP.L POW` (R122, R146) -/
  | bopLPow (ign : BitVec 16)
  /-- `BOP.R SHR` (R123, R128) -/
  | bopRShr (ign : BitVec 16)
  /-- `BOP.R SHL` (R123, R129) -/
  | bopRShl (ign : BitVec 16)
  /-- `BOP.R AND` (R123, R130) -/
  | bopRAnd (ign : BitVec 16)
  /-- `BOP.R OR` (R123, R131) -/
  | bopROr (ign : BitVec 16)
  /-- `BOP.R XOR` (R123, R132) -/
  | bopRXor (ign : BitVec 16)
  /-- `BOP.R EQ` (R123, R133) -/
  | bopREq (ign : BitVec 16)
  /-- `BOP.R NE` (R123, R134) -/
  | bopRNe (ign : BitVec 16)
  /-- `BOP.R LE` (R123, R135) -/
  | bopRLe (ign : BitVec 16)
  /-- `BOP.R GE` (R123, R136) -/
  | bopRGe (ign : BitVec 16)
  /-- `BOP.R LT` (R123, R137) -/
  | bopRLt (ign : BitVec 16)
  /-- `BOP.R GT` (R123, R138) -/
  | bopRGt (ign : BitVec 16)
  /-- `BOP.R LAND` (R123, R139) -/
  | bopRLand (ign : BitVec 16)
  /-- `BOP.R LOR` (R123, R140) -/
  | bopRLor (ign : BitVec 16)
  /-- `BOP.R ADD` (R123, R141) -/
  | bopRAdd (ign : BitVec 16)
  /-- `BOP.R SUB` (R123, R142) -/
  | bopRSub (ign : BitVec 16)
  /-- `BOP.R MUL` (R123, R143) -/
  | bopRMul (ign : BitVec 16)
  /-- `BOP.R DIV` (R123, R144) -/
  | bopRDiv (ign : BitVec 16)
  /-- `BOP.R MOD` (R123, R145) -/
  | bopRMod (ign : BitVec 16)
  /-- `BOP.R POW` (R123, R146) -/
  | bopRPow (ign : BitVec 16)
  /-- `SWAP` (R124) -/
  | swap (ign : BitVec 24)
  /-- `BRL` (R162) -/
  | brl (off : Int)
  /-- `BRR` (R163) -/
  | brr (off : Int)
  /-- `JMP` (R164) -/
  | jmp (off : Int)
  /-- `CALL` (R165) -/
  | call (off : Int)
  /-- `RET` (R166) -/
  | ret (ign : BitVec 24)
  deriving DecidableEq, Repr

end Sys2Proof
end

