-- ==== Sys2Proof/Config.lean ====
section
/-! DEFINITION. The parameters of the engine (spec/00_scope.md R7), their defaults, the constraints they must meet, and
the free values of the spec: what the device collaborator answers (R45) and what POW gives under Float64 (R146). -/

namespace Sys2Proof

/-- One device access, as the event history of R45 records it: direction, address, word. -/
inductive DeviceEvent where
  /-- A read of address `a` that the collaborator answered with `w`. -/
  | read (a : Nat) (w : Word)
  /-- A write of `w` to address `a`. -/
  | write (a : Nat) (w : Word)
  deriving DecidableEq, Repr

/-- What the host has laid down for one device read to come (70_reset_and_hazards.md R225). -/
inductive DeviceReply where
  /-- The collaborator answers with this word. -/
  | word (w : Word)
  /-- The collaborator never answers: the read does not complete. -/
  | silent
  deriving DecidableEq, Repr

/-- `OPMAP`: the 8-bit code of each opcode (R7, R65). -/
structure OpMap where
  nop : BitVec 8
  ldsL : BitVec 8
  ldsR : BitVec 8
  stsL : BitVec 8
  stsR : BitVec 8
  ldsiL : BitVec 8
  ldsiR : BitVec 8
  stsiL : BitVec 8
  stsiR : BitVec 8
  ldfL : BitVec 8
  ldfR : BitVec 8
  stfL : BitVec 8
  stfR : BitVec 8
  ldfiL : BitVec 8
  ldfiR : BitVec 8
  stfiL : BitVec 8
  stfiR : BitVec 8
  uopL : BitVec 8
  uopR : BitVec 8
  bopL : BitVec 8
  bopR : BitVec 8
  swap : BitVec 8
  brl : BitVec 8
  brr : BitVec 8
  jmp : BitVec 8
  call : BitVec 8
  ret : BitVec 8
  deriving DecidableEq, Repr

/-- The code `OPMAP` gives an opcode. -/
def OpMap.code (m : OpMap) : Op → BitVec 8
  | .nop => m.nop
  | .ldsL => m.ldsL
  | .ldsR => m.ldsR
  | .stsL => m.stsL
  | .stsR => m.stsR
  | .ldsiL => m.ldsiL
  | .ldsiR => m.ldsiR
  | .stsiL => m.stsiL
  | .stsiR => m.stsiR
  | .ldfL => m.ldfL
  | .ldfR => m.ldfR
  | .stfL => m.stfL
  | .stfR => m.stfR
  | .ldfiL => m.ldfiL
  | .ldfiR => m.ldfiR
  | .stfiL => m.stfiL
  | .stfiR => m.stfiR
  | .uopL => m.uopL
  | .uopR => m.uopR
  | .bopL => m.bopL
  | .bopR => m.bopR
  | .swap => m.swap
  | .brl => m.brl
  | .brr => m.brr
  | .jmp => m.jmp
  | .call => m.call
  | .ret => m.ret

/-- The default `OPMAP` of R65: the spec's own numbers, not the source's (D2). UNVERIFIED, unsafe: log 2. -/
def OpMap.default : OpMap where
  nop := 0x00
  ldsL := 0x10
  ldsR := 0x11
  stsL := 0x12
  stsR := 0x13
  ldsiL := 0x14
  ldsiR := 0x15
  stsiL := 0x16
  stsiR := 0x17
  ldfL := 0x20
  ldfR := 0x21
  stfL := 0x22
  stfR := 0x23
  ldfiL := 0x24
  ldfiR := 0x25
  stfiL := 0x26
  stfiR := 0x27
  uopL := 0x30
  uopR := 0x31
  bopL := 0x32
  bopR := 0x33
  swap := 0x34
  brl := 0x40
  brr := 0x41
  jmp := 0x42
  call := 0x43
  ret := 0x44

/-- `OPRMAP`: the 8-bit code of each operator (R7, R66). -/
structure OprMap where
  bnotCode : BitVec 8
  lnotCode : BitVec 8
  shrCode : BitVec 8
  shlCode : BitVec 8
  andCode : BitVec 8
  orCode : BitVec 8
  xorCode : BitVec 8
  eqCode : BitVec 8
  neCode : BitVec 8
  leCode : BitVec 8
  geCode : BitVec 8
  ltCode : BitVec 8
  gtCode : BitVec 8
  landCode : BitVec 8
  lorCode : BitVec 8
  addCode : BitVec 8
  subCode : BitVec 8
  mulCode : BitVec 8
  divCode : BitVec 8
  modCode : BitVec 8
  powCode : BitVec 8
  deriving DecidableEq, Repr

/-- The code `OPRMAP` gives a unary operator. -/
def OprMap.unary (m : OprMap) : UnOp → BitVec 8
  | .bnot => m.bnotCode
  | .lnot => m.lnotCode

/-- The code `OPRMAP` gives a binary operator. -/
def OprMap.binary (m : OprMap) : BinOp → BitVec 8
  | .shr => m.shrCode
  | .shl => m.shlCode
  | .and => m.andCode
  | .or => m.orCode
  | .xor => m.xorCode
  | .eq => m.eqCode
  | .ne => m.neCode
  | .le => m.leCode
  | .ge => m.geCode
  | .lt => m.ltCode
  | .gt => m.gtCode
  | .land => m.landCode
  | .lor => m.lorCode
  | .add => m.addCode
  | .sub => m.subCode
  | .mul => m.mulCode
  | .div => m.divCode
  | .mod => m.modCode
  | .pow => m.powCode

/-- The default `OPRMAP` of R66: the spec's own numbers, not the source's (D3). UNVERIFIED, unsafe: log 2. -/
def OprMap.default : OprMap where
  bnotCode := 0x00
  lnotCode := 0x01
  shrCode := 0x10
  shlCode := 0x11
  andCode := 0x12
  orCode := 0x13
  xorCode := 0x14
  eqCode := 0x20
  neCode := 0x21
  leCode := 0x22
  geCode := 0x23
  ltCode := 0x24
  gtCode := 0x25
  landCode := 0x26
  lorCode := 0x27
  addCode := 0x30
  subCode := 0x31
  mulCode := 0x32
  divCode := 0x33
  modCode := 0x34
  powCode := 0x35

/-- `SHIFT_COUNT` (R7, R128). -/
inductive ShiftCount where
  /-- The count is the operand's low five bits. -/
  | mask5
  /-- A count outside 0 .. 31 faults. -/
  | fault
  deriving DecidableEq, Repr

/-- `DIV_ZERO` (R7, D13): its only value is `Fault`. -/
inductive DivZero where
  /-- A zero divisor faults. -/
  | fault
  deriving DecidableEq, Repr

/-- `POW_MODE` (R7, R146). -/
inductive PowMode where
  /-- The exact integer power, wrapped. -/
  | exactWrap
  /-- Agrees with `exactWrap` up to magnitude 2^53 and is open above. -/
  | float64
  deriving DecidableEq, Repr

/-- The parameters of R7 that the source does not fix. -/
structure Config where
  /-- `CODE_BASE` -/
  codeBase : Nat
  /-- `STACK_BASE` -/
  stackBase : Nat
  /-- `SPR_INIT_OFFSET` -/
  sprInitOffset : Nat
  /-- `MEM_SIZE`, in words -/
  memSize : Nat
  /-- `OPMAP` -/
  opmap : OpMap
  /-- `OPRMAP` -/
  oprmap : OprMap
  /-- `SHIFT_COUNT` -/
  shiftCount : ShiftCount
  /-- `DIV_ZERO` -/
  divZero : DivZero
  /-- `POW_MODE` -/
  powMode : PowMode
  deriving DecidableEq, Repr

/-- The defaults of R7, which every example and test vector of the spec uses. UNVERIFIED, unsafe: log 2. -/
def Config.default : Config where
  codeBase := 0x00800000
  stackBase := 0x00810000
  sprInitOffset := 1
  memSize := 0x01000000
  opmap := OpMap.default
  oprmap := OprMap.default
  shiftCount := .mask5
  divZero := .fault
  powMode := .exactWrap

/-- The constraints on the four sizes (R7). -/
abbrev Config.SizesValid (c : Config) : Prop :=
  0 < c.codeBase ∧ c.codeBase < c.stackBase ∧ c.stackBase < c.memSize ∧ c.memSize ≤ 2 ^ 31 ∧
    1 ≤ c.sprInitOffset ∧ c.stackBase + c.sprInitOffset ≤ c.memSize

/-- `OPMAP` is injective, with values in 0x00 .. 0x44 (R7). -/
abbrev Config.OpmapValid (c : Config) : Prop :=
  (Op.all.map c.opmap.code).Nodup ∧ ∀ o ∈ Op.all, c.opmap.code o ≤ 0x44#8

/-- `OPRMAP` is injective over all 21 operators, with values in 0x00 .. 0x35 (R7). -/
abbrev Config.OprmapValid (c : Config) : Prop :=
  (UnOp.all.map c.oprmap.unary ++ BinOp.all.map c.oprmap.binary).Nodup ∧
    (∀ u ∈ UnOp.all, c.oprmap.unary u ≤ 0x35#8) ∧ ∀ b ∈ BinOp.all, c.oprmap.binary b ≤ 0x35#8

/-- The constraints the parameters must meet (R7, D7). The engine of a configuration that breaks them is defined too, but
the spec says nothing of it: log 16. -/
abbrev Config.Valid (c : Config) : Prop := c.SizesValid ∧ c.OpmapValid ∧ c.OprmapValid

/-- FREE VALUE. What the device collaborator answers to a read of a device address, given every device access made so far:
the oracle of R45, of which the model assumes nothing. Log 7. -/
opaque Config.deviceAnswer : List DeviceEvent → Nat → Word

/-- FREE VALUE. The configuration function of R146: the result of `POW` under `POW_MODE = Float64` where the exact
magnitude is above 2^53. Log 13. -/
opaque Config.powFloat64 : Word → Word → Word

end Sys2Proof
end

