-- ==== Sys2Proof/Machine/State.lean ====
section
/-! DEFINITION. The architectural state of the engine (spec/10_state.md R20 to R33), the reasons of its runtime errors
(spec/60_exceptions.md R191), the model's own stops, and the state after reset (spec/70_reset_and_hazards.md R220). -/

namespace Sys2Proof.Machine

/-- The fault causes of R191. Each is taken as a next state whose status is `faulted` (R160). -/
inductive Reason where
  /-- Opcode field not in `OPMAP` (R68). -/
  | illegalOpcode
  /-- Operator field not of the opcode's arity (R69). -/
  | illegalOperator
  /-- An access outside `0 .. MEM_SIZE-1` (R41, R43, R44). -/
  | addressOutOfRange
  /-- A read of a plain word that nothing has written (R43). -/
  | uninitializedRead
  /-- `DIV` or `MOD` by 0; `POW` of base 0 and negative exponent (R144 to R146). -/
  | divideByZero
  /-- `CALL` with its return slot below `STACK_BASE` or the new SPR above `MEM_SIZE` (R165). -/
  | stackOverflow
  /-- `CALL` with a negative frame-size word (R165). -/
  | badFrameSize
  /-- A shift count outside 0 .. 31 under `SHIFT_COUNT = Fault` (R128, R129). -/
  | shiftCount
  deriving DecidableEq, Repr

/-- The code of a fault cause (R191); no program sees it. -/
def Reason.code : Reason → Nat
  | .illegalOpcode => 1
  | .illegalOperator => 2
  | .addressOutOfRange => 3
  | .uninitializedRead => 4
  | .divideByZero => 5
  | .stackOverflow => 6
  | .badFrameSize => 7
  | .shiftCount => 8

/-- The `info` of a fault record (R31, R191): an address or the value `S + n`, both mathematical integers, or a word. -/
inductive Info where
  /-- The address of the access, or the new SPR value `S + n` of `StackOverflow`. -/
  | int (i : Int)
  /-- The instruction word, or the frame-size word of `BadFrameSize`. -/
  | word (w : Word)
  deriving DecidableEq, Repr

/-- The run status (R31). -/
inductive Status where
  /-- The engine executes steps. -/
  | running
  /-- PC fell below `CODE_BASE` (R167). Final. -/
  | halted
  /-- A fatal runtime error, with its record (R192). Final. -/
  | faulted (reason : Reason) (pc0 : Int) (info : Info)
  deriving DecidableEq, Repr

/-- Why a step of the MODEL does not complete. The engine's own runtime errors are not here: they are next states. -/
inductive Fault where
  /-- A device read that the collaborator never answers: "an unanswered read leaves the engine stuck (no step)" (R225).
  Raised by `deviceRead` where the next reply is `DeviceReply.silent`. Safe: the spec says nothing of such a run, and no
  next state is invented. Log 8. -/
  | deviceReadUnanswered
  deriving DecidableEq, Repr

/-- Why the model refuses. -/
inductive Refusal where
  /-- An instruction of the table without a meaning; raised by no arm of `exec`. Safe: no next state is invented. -/
  | notModelled (mnemonic : String)
  /-- `run(words)` with an image longer than `STACK_BASE - CODE_BASE` words (R220, R221); raised by `State.start`, never by a
  step. Safe: the spec refuses it too. -/
  | imageTooLong
  deriving DecidableEq, Repr

/-- Plain memory (R33): the written words by address, addresses strictly rising. An address that is not listed is
`unwritten`. A cell is a 32-bit word, since each address names one word (R40). DESIGN CHOICE, safe: log 3. -/
abbrev Memory := List (Nat × Word)

/-- The architectural state of R20, with the device history of R45, the host's replies to device reads and the parameters
of R7. -/
structure State where
  /-- PC: address of the next instruction to fetch (R24). -/
  pc : Word
  /-- The MODEL's own field: PC was last set to an address of 2^31 or more, which its 32 bits, read as `sint32`, do not hold
  (R25, R161). It stays `false` unless `MEM_SIZE` is 2^31 or `CODE_BASE` is above 2^31 - 2^23. DESIGN CHOICE: log 22. -/
  pcAbove : Bool
  /-- L: working register "left" (R21). -/
  l : Word
  /-- R: working register "right" (R22). -/
  r : Word
  /-- SPL: current frame base (R26). -/
  spl : Word
  /-- SPR: next free stack slot (R27). -/
  spr : Word
  /-- The run status (R31). -/
  status : Status
  /-- Plain memory (R33). -/
  mem : Memory
  /-- Every device access made, oldest first (R45, R224). -/
  deviceHistory : List DeviceEvent
  /-- The MODEL's own field: replies the host has laid down for the device reads to come (R225). Log 7. -/
  deviceReplies : List DeviceReply
  /-- The MODEL's own field: the parameters of R7. No step writes it. Log 1. -/
  cfg : Config
  deriving DecidableEq, Repr

/-- The reset values of R20 under a configuration, with the empty image. -/
def State.resetFor (c : Config) : State where
  pc := word c.codeBase
  pcAbove := false
  l := 0
  r := 0
  spl := word c.stackBase
  spr := word (c.stackBase + c.sprInitOffset)
  status := .running
  mem := []
  deviceHistory := []
  deviceReplies := []
  cfg := c

/-- The machine right after reset (R20, R220), under the default parameters and with the empty image (R221). The device
history and the replies are empty: DESIGN CHOICE, log 9. -/
def State.reset : State := State.resetFor Config.default

/-- The state with another word in PC (`PC <- w`), read as `sint32(PC)` (R24). -/
def State.setPc (s : State) (w : Word) : State := { s with pc := w, pcAbove := false }

/-- The state with another word in L. -/
def State.setL (s : State) (w : Word) : State := { s with l := w }

/-- The state with another word in R. -/
def State.setR (s : State) (w : Word) : State := { s with r := w }

/-- The state with another word in SPL. -/
def State.setSpl (s : State) (w : Word) : State := { s with spl := w }

/-- The state with another word in SPR. -/
def State.setSpr (s : State) (w : Word) : State := { s with spr := w }

/-- The state with another run status. -/
def State.setStatus (s : State) (x : Status) : State := { s with status := x }

/-- The state with another plain memory. -/
def State.setMem (s : State) (m : Memory) : State := { s with mem := m }

/-- The state with another device history and other replies to come. -/
def State.setDevice (s : State) (h : List DeviceEvent) (q : List DeviceReply) : State :=
  { s with deviceHistory := h, deviceReplies := q }

end Sys2Proof.Machine
end

