-- ==== Sys2Proof/Machine/Memory.lean ====
section
/-! DEFINITION. Plain memory as data (spec/10_state.md R33): reading and writing one word, and the canonical form. -/

namespace Sys2Proof.Machine

/-- The word at a plain address, `none` where it is `unwritten` (R33). -/
def Memory.read : Memory → Nat → Option Word
  | [], _ => none
  | (k, w) :: m, a => if a = k then some w else Memory.read m a

/-- `Mem[a] <- v` (R44), at the place that keeps the addresses rising. -/
def Memory.write : Memory → Nat → Word → Memory
  | [], a, v => [(a, v)]
  | (k, w) :: m, a, v =>
    if a < k then (a, v) :: (k, w) :: m
    else if a = k then (a, v) :: m
    else (k, w) :: Memory.write m a v

/-- The canonical form: addresses strictly rising. An unlisted address reads as no word at all, so no entry can equal what
an unlisted address reads as, and equal memories are equal lists. -/
abbrev Memory.wf (m : Memory) : Prop := m.Pairwise fun p q => p.1 < q.1

/-- The words placed one after another from an address (R220). -/
def Memory.image : Nat → List Word → Memory
  | _, [] => []
  | a, w :: ws => (a, w) :: Memory.image (a + 1) ws

end Sys2Proof.Machine
end

