-- ==== Sys2Proof/Machine/Ops.lean ====
section
/-! DEFINITION. The shared operations: the memory port (spec/20_memory.md R43 to R45), the increment of PC, and taking a
fault (spec/42_control.md R160, spec/60_exceptions.md R190 to R193). -/

namespace Sys2Proof.Machine

/-- What a part of an instruction comes to: a value and the state reached, a `raise Fault(reason, info)` in the state
reached (R12), or no completion at all. -/
inductive Res (α : Type) where
  /-- The part completed. -/
  | ok (a : α) (s : State)
  /-- The part raised a fault of the engine. -/
  | raised (reason : Reason) (info : Info) (s : State)
  /-- The part does not complete. -/
  | stuck (f : Fault)
  deriving DecidableEq, Repr

/-- One part after another (R13): the second runs only if the first completed. -/
def Res.bind {α β : Type} (x : Res α) (k : α → State → Res β) : Res β :=
  match x with
  | .ok a s => k a s
  | .raised ρ i s => .raised ρ i s
  | .stuck f => .stuck f

/-- The address names a plain word (R42). -/
abbrev State.PlainAddr (s : State) (a : Int) : Prop := s.cfg.codeBase ≤ a ∧ a < s.cfg.memSize

/-- The address lies in device space (R42). -/
abbrev State.DeviceAddr (s : State) (a : Int) : Prop := 0 ≤ a ∧ a < s.cfg.codeBase ∧ a < s.cfg.memSize

/-- The address is outside the addressable space (R41). -/
abbrev State.OutsideAddr (s : State) (a : Int) : Prop := a < 0 ∨ s.cfg.memSize ≤ a

/-- `DeviceRead(a)` (R45): the collaborator answers a word and the access is recorded. The answer is the next reply the
host has laid down, or, where there is none, the oracle's word. Log 7, 8. -/
def deviceRead (a : Nat) (s : State) : Res Word :=
  match s.deviceReplies with
  | .word w :: q => .ok w (s.setDevice (s.deviceHistory ++ [.read a w]) q)
  | .silent :: _ => .stuck .deviceReadUnanswered
  | [] =>
    .ok (Config.deviceAnswer s.deviceHistory a)
      (s.setDevice (s.deviceHistory ++ [.read a (Config.deviceAnswer s.deviceHistory a)]) [])

/-- `DeviceWrite(a, v)` (R45): the collaborator takes the word and the access is recorded. -/
def deviceWrite (a : Nat) (v : Word) (s : State) : State :=
  s.setDevice (s.deviceHistory ++ [.write a v]) s.deviceReplies

/-- `MemRead(a, 1)` (R43). -/
def memRead (a : Int) (s : State) : Res Word :=
  if s.OutsideAddr a then .raised .addressOutOfRange (.int a) s
  else if a < s.cfg.codeBase then deviceRead a.toNat s
  else
    match s.mem.read a.toNat with
    | some w => .ok w s
    | none => .raised .uninitializedRead (.int a) s

/-- `MemWrite(a, 1, v)` (R44). -/
def memWrite (a : Int) (v : Word) (s : State) : Res Unit :=
  if s.OutsideAddr a then .raised .addressOutOfRange (.int a) s
  else if a < s.cfg.codeBase then .ok () (deviceWrite a.toNat v s)
  else .ok () (s.setMem (s.mem.write a.toNat v))

/-- The address PC names: `sint32(PC)` (R24), but for a PC set to an address of 2^31 or more, which never wraps (R25) and
is its 32 bits read as they stand. DESIGN CHOICE: log 22. -/
def State.pcAddr (s : State) : Int := if s.pcAbove then uint32 s.pc else sint32 s.pc

/-- `pc <- a` for an address `a` (R10): PC takes `word(a)`. That `a` is 2^31 or more is kept beside it, so that "PC never wraps"
(R25) and such an address faults at the next fetch (R161) and does not halt. DESIGN CHOICE: log 22. -/
def State.goTo (s : State) (a : Int) : State := { s with pc := word a, pcAbove := decide (0x80000000 ≤ a) }

/-- "increment PC": `PC <- word(pc0 + 1)`, made before the instruction runs (R24, R160). It never wraps (R25): log 22. -/
def State.advance (s : State) : State := s.goTo (s.pcAddr + 1)

/-- Taking a fault (R12, R160, R193): every register and every plain word as they were at the start `s₀` of the step, the
device accesses made up to the state `s` of the fault kept, and the record in the status with `pc0`, the address fetched.
There is no return from it: no handler, no vector and no return instruction exist (R190, R196, R197). The replies used stay used: log 5. -/
def takeFault (s₀ s : State) (reason : Reason) (info : Info) : State :=
  (s₀.setDevice s.deviceHistory s.deviceReplies).setStatus (.faulted reason s₀.pcAddr info)

/-- The end of an instruction begun in the state `s₀`: the state it reached, or the fault it raised, taken. -/
def conclude (s₀ : State) : Res Unit → Host.Outcome State Fault Refusal
  | .ok _ s => .next s
  | .raised ρ i s => .next (takeFault s₀ s ρ i)
  | .stuck f => .fault f

end Sys2Proof.Machine
end

