-- ==== Sys2Proof/Machine/Operands.lean ====
section
/-! DEFINITION. The operand forms: static and frame addresses, pointers, transfer targets. Addresses are mathematical
integers, computed without wrap (spec/20_memory.md R41). -/

namespace Sys2Proof.Machine

/-- Static effective address `CODE_BASE + off` (R91). -/
def staticEA (s : State) (off : Int) : Int := s.cfg.codeBase + off

/-- Frame effective address `sint32(SPL) + off` (R92). -/
def frameEA (s : State) (off : Int) : Int := sint32 s.spl + off

/-- The absolute address a pointer word names (R93). -/
def pointerEA (p : Word) : Int := sint32 p

/-- Control-transfer target `CODE_BASE + off`, absolute (R161). -/
def transferTarget (s : State) (off : Int) : Int := s.cfg.codeBase + off

end Sys2Proof.Machine
end

