-- ==== Sys2Proof/Machine/Control.lean ====
section
/-! DEFINITION. Branches, jump, call and return (spec/42_control.md R161 to R166). -/

namespace Sys2Proof.Machine

/-- `pc <- CODE_BASE + off` (R10, R161). The target is not checked here; one of 2^31 or more faults at the next fetch: log 22. -/
def jumpTo (off : Int) (s : State) : Res Unit := .ok () (s.goTo (transferTarget s off))

/-- The two writes of `CALL` and what follows them (R165): `S` is `sint32(SPR)`, `n` the frame size. An entry
`next` of 2^31 or more faults at the next fetch (R161): log 22. -/
def enterFrame (S n next : Int) (s : State) : Res Unit :=
  (memWrite (S - 1) s.pc s).bind fun _ t =>
    (memWrite S t.spl t).bind fun _ u =>
      .ok () (((u.setSpl (word S)).setSpr (word (S + n))).goTo next)

/-- The checks of `CALL` on the frame-size word `nw`, in the order of R165, then the entry. -/
def callWithSize (next : Int) (nw : Word) (s : State) : Res Unit :=
  let n := sint32 nw
  let S := sint32 s.spr
  if n < 0 then .raised .badFrameSize (.word nw) s
  else if S - 1 < s.cfg.stackBase ∨ s.cfg.memSize < S + n then .raised .stackOverflow (.int (S + n)) s
  else enterFrame S n next s

/-- The body of `CALL` (R165), PC already at the return address. -/
def callBody (off : Int) (s : State) : Res Unit :=
  (memRead (transferTarget s off - 1) s).bind fun nw t => callWithSize (transferTarget s off) nw t

/-- The body of `RET` (R166): the saved SPL is read first. -/
def retBody (s : State) : Res Unit :=
  (memRead (sint32 s.spl) s).bind fun saved t =>
    (memRead (sint32 s.spl - 1) t).bind fun ret u =>
      .ok () (((u.setSpr s.spl).setSpl saved).setPc ret)

/-- `BRL off` (R162). -/
def execBrl (off : Int) (s : State) : Host.Outcome State Fault Refusal :=
  conclude s (if isNonzero s.l then jumpTo off s.advance else .ok () s.advance)

/-- `BRR off` (R163). -/
def execBrr (off : Int) (s : State) : Host.Outcome State Fault Refusal :=
  conclude s (if isNonzero s.r then jumpTo off s.advance else .ok () s.advance)

/-- `JMP off` (R164). -/
def execJmp (off : Int) (s : State) : Host.Outcome State Fault Refusal := conclude s (jumpTo off s.advance)

/-- `CALL off` (R165). -/
def execCall (off : Int) (s : State) : Host.Outcome State Fault Refusal := conclude s (callBody off s.advance)

/-- `RET` (R166). -/
def execRet (_ign : BitVec 24) (s : State) : Host.Outcome State Fault Refusal := conclude s (retBody s.advance)

end Sys2Proof.Machine
end

