-- ==== Sys2Proof/Machine/LoadStore.lean ====
section
/-! DEFINITION. `NOP`, the static and frame loads and stores, direct and indirect (spec/40_loadstore.md R90 to R109). Each
meaning is given the state at the start of the step, PC still at the instruction (log 11). -/

namespace Sys2Proof.Machine

/-- `L <- MemRead(a, 1)`. -/
def loadL (a : Int) (s : State) : Res Unit := (memRead a s).bind fun w t => .ok () (t.setL w)

/-- `R <- MemRead(a, 1)`. -/
def loadR (a : Int) (s : State) : Res Unit := (memRead a s).bind fun w t => .ok () (t.setR w)

/-- `let p = MemRead(a, 1)`, then the access at `sint32(p)` (R93). -/
def viaPointer (a : Int) (access : Int → State → Res Unit) (s : State) : Res Unit :=
  (memRead a s).bind fun p t => access (pointerEA p) t

/-- `MemWrite(a, 1, L)`. -/
def storeL (a : Int) (s : State) : Res Unit := memWrite a s.l s

/-- `MemWrite(a, 1, R)`. -/
def storeR (a : Int) (s : State) : Res Unit := memWrite a s.r s

/-- `NOP` (R90). -/
def execNop (_ign : BitVec 24) (s : State) : Host.Outcome State Fault Refusal := conclude s (.ok () s.advance)

/-- `LDS.L off` (R94). -/
def execLdsL (off : Int) (s : State) : Host.Outcome State Fault Refusal :=
  conclude s (loadL (staticEA s off) s.advance)

/-- `LDS.R off` (R95). -/
def execLdsR (off : Int) (s : State) : Host.Outcome State Fault Refusal :=
  conclude s (loadR (staticEA s off) s.advance)

/-- `STS.L off` (R96). -/
def execStsL (off : Int) (s : State) : Host.Outcome State Fault Refusal :=
  conclude s (storeL (staticEA s off) s.advance)

/-- `STS.R off` (R97). -/
def execStsR (off : Int) (s : State) : Host.Outcome State Fault Refusal :=
  conclude s (storeR (staticEA s off) s.advance)

/-- `LDSI.L off` (R98). -/
def execLdsiL (off : Int) (s : State) : Host.Outcome State Fault Refusal :=
  conclude s (viaPointer (staticEA s off) loadL s.advance)

/-- `LDSI.R off` (R99). -/
def execLdsiR (off : Int) (s : State) : Host.Outcome State Fault Refusal :=
  conclude s (viaPointer (staticEA s off) loadR s.advance)

/-- `STSI.L off` (R100). -/
def execStsiL (off : Int) (s : State) : Host.Outcome State Fault Refusal :=
  conclude s (viaPointer (staticEA s off) storeL s.advance)

/-- `STSI.R off` (R101). -/
def execStsiR (off : Int) (s : State) : Host.Outcome State Fault Refusal :=
  conclude s (viaPointer (staticEA s off) storeR s.advance)

/-- `LDF.L off` (R102). -/
def execLdfL (off : Int) (s : State) : Host.Outcome State Fault Refusal :=
  conclude s (loadL (frameEA s off) s.advance)

/-- `LDF.R off` (R103). -/
def execLdfR (off : Int) (s : State) : Host.Outcome State Fault Refusal :=
  conclude s (loadR (frameEA s off) s.advance)

/-- `STF.L off` (R104). -/
def execStfL (off : Int) (s : State) : Host.Outcome State Fault Refusal :=
  conclude s (storeL (frameEA s off) s.advance)

/-- `STF.R off` (R105). -/
def execStfR (off : Int) (s : State) : Host.Outcome State Fault Refusal :=
  conclude s (storeR (frameEA s off) s.advance)

/-- `LDFI.L off` (R106). -/
def execLdfiL (off : Int) (s : State) : Host.Outcome State Fault Refusal :=
  conclude s (viaPointer (frameEA s off) loadL s.advance)

/-- `LDFI.R off` (R107). -/
def execLdfiR (off : Int) (s : State) : Host.Outcome State Fault Refusal :=
  conclude s (viaPointer (frameEA s off) loadR s.advance)

/-- `STFI.L off` (R108). -/
def execStfiL (off : Int) (s : State) : Host.Outcome State Fault Refusal :=
  conclude s (viaPointer (frameEA s off) storeL s.advance)

/-- `STFI.R off` (R109). -/
def execStfiR (off : Int) (s : State) : Host.Outcome State Fault Refusal :=
  conclude s (viaPointer (frameEA s off) storeR s.advance)

end Sys2Proof.Machine
end

