-- ==== Sys2Proof/WellFormed.lean ====
section
/-! DEFINITION. Which instructions an encoding admits: an offset fits in 24 signed bits (spec/30_encoding.md R73). Every
other field of `Instr` has the width of its encoding and cannot be ill-formed. -/

namespace Sys2Proof

/-- "offsets must fit in 24 bits signed" (R73): -2^23 .. 2^23-1. -/
def offsetFits (off : Int) : Bool := decide (-8388608 ≤ off ∧ off ≤ 8388607)

/-- The offset of a format O instruction (R64). -/
def Instr.offset? : Instr → Option Int
  | .nop _ => none
  | .ldsL off => some off
  | .ldsR off => some off
  | .stsL off => some off
  | .stsR off => some off
  | .ldsiL off => some off
  | .ldsiR off => some off
  | .stsiL off => some off
  | .stsiR off => some off
  | .ldfL off => some off
  | .ldfR off => some off
  | .stfL off => some off
  | .stfR off => some off
  | .ldfiL off => some off
  | .ldfiR off => some off
  | .stfiL off => some off
  | .stfiR off => some off
  | .uopLBnot _ => none
  | .uopLLnot _ => none
  | .uopRBnot _ => none
  | .uopRLnot _ => none
  | .bopLShr _ => none
  | .bopLShl _ => none
  | .bopLAnd _ => none
  | .bopLOr _ => none
  | .bopLXor _ => none
  | .bopLEq _ => none
  | .bopLNe _ => none
  | .bopLLe _ => none
  | .bopLGe _ => none
  | .bopLLt _ => none
  | .bopLGt _ => none
  | .bopLLand _ => none
  | .bopLLor _ => none
  | .bopLAdd _ => none
  | .bopLSub _ => none
  | .bopLMul _ => none
  | .bopLDiv _ => none
  | .bopLMod _ => none
  | .bopLPow _ => none
  | .bopRShr _ => none
  | .bopRShl _ => none
  | .bopRAnd _ => none
  | .bopROr _ => none
  | .bopRXor _ => none
  | .bopREq _ => none
  | .bopRNe _ => none
  | .bopRLe _ => none
  | .bopRGe _ => none
  | .bopRLt _ => none
  | .bopRGt _ => none
  | .bopRLand _ => none
  | .bopRLor _ => none
  | .bopRAdd _ => none
  | .bopRSub _ => none
  | .bopRMul _ => none
  | .bopRDiv _ => none
  | .bopRMod _ => none
  | .bopRPow _ => none
  | .swap _ => none
  | .brl off => some off
  | .brr off => some off
  | .jmp off => some off
  | .call off => some off
  | .ret _ => none

/-- An instruction that has an encoding. -/
def Instr.wellFormed (i : Instr) : Bool :=
  match i.offset? with
  | some off => offsetFits off
  | none => true

/-- `Instr.wellFormed` as a proposition, the form the statements use. -/
abbrev WellFormed (i : Instr) : Prop := i.wellFormed = true

end Sys2Proof
end

