-- ==== Sys2Proof/Decode.lean ====
section
/-! DEFINITION. The decoder, total on words and rejecting by name (spec/30_encoding.md R67 to R71), and the encoder the
assembler uses (R72). Both read the maps of the configuration they are given. -/

namespace Sys2Proof

/-- Why a word decodes to no instruction (R68, R69). -/
inductive DecodeError where
  /-- The opcode field is not in `OPMAP` (R68). -/
  | illegalOpcode
  /-- The operator field is not a code of the opcode's arity (R69). -/
  | illegalOperator
  deriving DecidableEq, Repr

/-- `w[31:24]` (R61). -/
def opcodeField (w : Word) : BitVec 8 := w.extractLsb' 24 8

/-- `w[23:0]`, the offset field of format O (R62) and the ignored bits of format N (R64). -/
def low24 (w : Word) : BitVec 24 := w.extractLsb' 0 24

/-- `w[23:16]` (R63). -/
def operatorField (w : Word) : BitVec 8 := w.extractLsb' 16 8

/-- `w[15:0]`, the ignored bits of format P (R64). -/
def low16 (w : Word) : BitVec 16 := w.extractLsb' 0 16

/-- `sext_24` (R9, R62): the offset as a signed integer. -/
def sext24 (v : BitVec 24) : Int := v.toInt

/-- `OPMAP^-1`: the opcode with this code (R67); for a map that is not injective, the first in the order of R65 (log 16). -/
def Config.opOf? (c : Config) (code : BitVec 8) : Option Op := Op.all.find? fun o => c.opmap.code o == code

/-- The unary operator with this code (R66, R69). -/
def Config.unOpOf? (c : Config) (code : BitVec 8) : Option UnOp := UnOp.all.find? fun u => c.oprmap.unary u == code

/-- The binary operator with this code (R66, R69). -/
def Config.binOpOf? (c : Config) (code : BitVec 8) : Option BinOp := BinOp.all.find? fun b => c.oprmap.binary b == code

/-- `UOP.L` with the operator given as data (R120). -/
def Instr.uopL : UnOp → BitVec 16 → Instr
  | .bnot, ign => .uopLBnot ign
  | .lnot, ign => .uopLLnot ign

/-- `UOP.R` with the operator given as data (R121). -/
def Instr.uopR : UnOp → BitVec 16 → Instr
  | .bnot, ign => .uopRBnot ign
  | .lnot, ign => .uopRLnot ign

/-- `BOP.L` with the operator given as data (R122). -/
def Instr.bopL : BinOp → BitVec 16 → Instr
  | .shr, ign => .bopLShr ign
  | .shl, ign => .bopLShl ign
  | .and, ign => .bopLAnd ign
  | .or, ign => .bopLOr ign
  | .xor, ign => .bopLXor ign
  | .eq, ign => .bopLEq ign
  | .ne, ign => .bopLNe ign
  | .le, ign => .bopLLe ign
  | .ge, ign => .bopLGe ign
  | .lt, ign => .bopLLt ign
  | .gt, ign => .bopLGt ign
  | .land, ign => .bopLLand ign
  | .lor, ign => .bopLLor ign
  | .add, ign => .bopLAdd ign
  | .sub, ign => .bopLSub ign
  | .mul, ign => .bopLMul ign
  | .div, ign => .bopLDiv ign
  | .mod, ign => .bopLMod ign
  | .pow, ign => .bopLPow ign

/-- `BOP.R` with the operator given as data (R123). -/
def Instr.bopR : BinOp → BitVec 16 → Instr
  | .shr, ign => .bopRShr ign
  | .shl, ign => .bopRShl ign
  | .and, ign => .bopRAnd ign
  | .or, ign => .bopROr ign
  | .xor, ign => .bopRXor ign
  | .eq, ign => .bopREq ign
  | .ne, ign => .bopRNe ign
  | .le, ign => .bopRLe ign
  | .ge, ign => .bopRGe ign
  | .lt, ign => .bopRLt ign
  | .gt, ign => .bopRGt ign
  | .land, ign => .bopRLand ign
  | .lor, ign => .bopRLor ign
  | .add, ign => .bopRAdd ign
  | .sub, ign => .bopRSub ign
  | .mul, ign => .bopRMul ign
  | .div, ign => .bopRDiv ign
  | .mod, ign => .bopRMod ign
  | .pow, ign => .bopRPow ign

/-- The format O instruction of an opcode, `none` for an opcode of another format (R64). -/
def Instr.ofOffset : Op → Int → Option Instr
  | .nop, _ => none
  | .ldsL, off => some (.ldsL off)
  | .ldsR, off => some (.ldsR off)
  | .stsL, off => some (.stsL off)
  | .stsR, off => some (.stsR off)
  | .ldsiL, off => some (.ldsiL off)
  | .ldsiR, off => some (.ldsiR off)
  | .stsiL, off => some (.stsiL off)
  | .stsiR, off => some (.stsiR off)
  | .ldfL, off => some (.ldfL off)
  | .ldfR, off => some (.ldfR off)
  | .stfL, off => some (.stfL off)
  | .stfR, off => some (.stfR off)
  | .ldfiL, off => some (.ldfiL off)
  | .ldfiR, off => some (.ldfiR off)
  | .stfiL, off => some (.stfiL off)
  | .stfiR, off => some (.stfiR off)
  | .uopL, _ => none
  | .uopR, _ => none
  | .bopL, _ => none
  | .bopR, _ => none
  | .swap, _ => none
  | .brl, off => some (.brl off)
  | .brr, off => some (.brr off)
  | .jmp, off => some (.jmp off)
  | .call, off => some (.call off)
  | .ret, _ => none

/-- The opcode of an instruction. -/
def Instr.op : Instr → Op
  | .nop _ => .nop
  | .ldsL _ => .ldsL
  | .ldsR _ => .ldsR
  | .stsL _ => .stsL
  | .stsR _ => .stsR
  | .ldsiL _ => .ldsiL
  | .ldsiR _ => .ldsiR
  | .stsiL _ => .stsiL
  | .stsiR _ => .stsiR
  | .ldfL _ => .ldfL
  | .ldfR _ => .ldfR
  | .stfL _ => .stfL
  | .stfR _ => .stfR
  | .ldfiL _ => .ldfiL
  | .ldfiR _ => .ldfiR
  | .stfiL _ => .stfiL
  | .stfiR _ => .stfiR
  | .uopLBnot _ => .uopL
  | .uopLLnot _ => .uopL
  | .uopRBnot _ => .uopR
  | .uopRLnot _ => .uopR
  | .bopLShr _ => .bopL
  | .bopLShl _ => .bopL
  | .bopLAnd _ => .bopL
  | .bopLOr _ => .bopL
  | .bopLXor _ => .bopL
  | .bopLEq _ => .bopL
  | .bopLNe _ => .bopL
  | .bopLLe _ => .bopL
  | .bopLGe _ => .bopL
  | .bopLLt _ => .bopL
  | .bopLGt _ => .bopL
  | .bopLLand _ => .bopL
  | .bopLLor _ => .bopL
  | .bopLAdd _ => .bopL
  | .bopLSub _ => .bopL
  | .bopLMul _ => .bopL
  | .bopLDiv _ => .bopL
  | .bopLMod _ => .bopL
  | .bopLPow _ => .bopL
  | .bopRShr _ => .bopR
  | .bopRShl _ => .bopR
  | .bopRAnd _ => .bopR
  | .bopROr _ => .bopR
  | .bopRXor _ => .bopR
  | .bopREq _ => .bopR
  | .bopRNe _ => .bopR
  | .bopRLe _ => .bopR
  | .bopRGe _ => .bopR
  | .bopRLt _ => .bopR
  | .bopRGt _ => .bopR
  | .bopRLand _ => .bopR
  | .bopRLor _ => .bopR
  | .bopRAdd _ => .bopR
  | .bopRSub _ => .bopR
  | .bopRMul _ => .bopR
  | .bopRDiv _ => .bopR
  | .bopRMod _ => .bopR
  | .bopRPow _ => .bopR
  | .swap _ => .swap
  | .brl _ => .brl
  | .brr _ => .brr
  | .jmp _ => .jmp
  | .call _ => .call
  | .ret _ => .ret

/-- The decoder of R67: it reads nothing but the word (and the maps, which are configuration). -/
def decode (c : Config) (w : Word) : Except DecodeError Instr :=
  match c.opOf? (opcodeField w) with
  | none => .error .illegalOpcode
  | some .nop => .ok (.nop (low24 w))
  | some .ldsL => .ok (.ldsL (sext24 (low24 w)))
  | some .ldsR => .ok (.ldsR (sext24 (low24 w)))
  | some .stsL => .ok (.stsL (sext24 (low24 w)))
  | some .stsR => .ok (.stsR (sext24 (low24 w)))
  | some .ldsiL => .ok (.ldsiL (sext24 (low24 w)))
  | some .ldsiR => .ok (.ldsiR (sext24 (low24 w)))
  | some .stsiL => .ok (.stsiL (sext24 (low24 w)))
  | some .stsiR => .ok (.stsiR (sext24 (low24 w)))
  | some .ldfL => .ok (.ldfL (sext24 (low24 w)))
  | some .ldfR => .ok (.ldfR (sext24 (low24 w)))
  | some .stfL => .ok (.stfL (sext24 (low24 w)))
  | some .stfR => .ok (.stfR (sext24 (low24 w)))
  | some .ldfiL => .ok (.ldfiL (sext24 (low24 w)))
  | some .ldfiR => .ok (.ldfiR (sext24 (low24 w)))
  | some .stfiL => .ok (.stfiL (sext24 (low24 w)))
  | some .stfiR => .ok (.stfiR (sext24 (low24 w)))
  | some .uopL =>
    match c.unOpOf? (operatorField w) with
    | some x => .ok (Instr.uopL x (low16 w))
    | none => .error .illegalOperator
  | some .uopR =>
    match c.unOpOf? (operatorField w) with
    | some x => .ok (Instr.uopR x (low16 w))
    | none => .error .illegalOperator
  | some .bopL =>
    match c.binOpOf? (operatorField w) with
    | some x => .ok (Instr.bopL x (low16 w))
    | none => .error .illegalOperator
  | some .bopR =>
    match c.binOpOf? (operatorField w) with
    | some x => .ok (Instr.bopR x (low16 w))
    | none => .error .illegalOperator
  | some .swap => .ok (.swap (low24 w))
  | some .brl => .ok (.brl (sext24 (low24 w)))
  | some .brr => .ok (.brr (sext24 (low24 w)))
  | some .jmp => .ok (.jmp (sext24 (low24 w)))
  | some .call => .ok (.call (sext24 (low24 w)))
  | some .ret => .ok (.ret (low24 w))

/-- A word of format N: the opcode above bits that the decoder ignores (R64, R72). -/
def encodeN (c : Config) (o : Op) (ign : BitVec 24) : Word := c.opmap.code o ++ ign

/-- `encodeO` of R72: the opcode above the offset, masked to 24 bits. -/
def encodeO (c : Config) (o : Op) (off : Int) : Word := c.opmap.code o ++ BitVec.ofInt 24 off

/-- A word of format P: opcode, operator code, ignored bits (R64, R72). -/
def encodeP (c : Config) (o : Op) (opr : BitVec 8) (ign : BitVec 16) : Word := c.opmap.code o ++ opr ++ ign

/-- The word of an instruction. With every ignored bit 0 it is the word the assembler writes (R72); the decoder gives the
instruction back from it whatever the ignored bits are (R70). -/
def encode (c : Config) : Instr → Word
  | .nop ign => encodeN c .nop ign
  | .ldsL off => encodeO c .ldsL off
  | .ldsR off => encodeO c .ldsR off
  | .stsL off => encodeO c .stsL off
  | .stsR off => encodeO c .stsR off
  | .ldsiL off => encodeO c .ldsiL off
  | .ldsiR off => encodeO c .ldsiR off
  | .stsiL off => encodeO c .stsiL off
  | .stsiR off => encodeO c .stsiR off
  | .ldfL off => encodeO c .ldfL off
  | .ldfR off => encodeO c .ldfR off
  | .stfL off => encodeO c .stfL off
  | .stfR off => encodeO c .stfR off
  | .ldfiL off => encodeO c .ldfiL off
  | .ldfiR off => encodeO c .ldfiR off
  | .stfiL off => encodeO c .stfiL off
  | .stfiR off => encodeO c .stfiR off
  | .uopLBnot ign => encodeP c .uopL (c.oprmap.unary .bnot) ign
  | .uopLLnot ign => encodeP c .uopL (c.oprmap.unary .lnot) ign
  | .uopRBnot ign => encodeP c .uopR (c.oprmap.unary .bnot) ign
  | .uopRLnot ign => encodeP c .uopR (c.oprmap.unary .lnot) ign
  | .bopLShr ign => encodeP c .bopL (c.oprmap.binary .shr) ign
  | .bopLShl ign => encodeP c .bopL (c.oprmap.binary .shl) ign
  | .bopLAnd ign => encodeP c .bopL (c.oprmap.binary .and) ign
  | .bopLOr ign => encodeP c .bopL (c.oprmap.binary .or) ign
  | .bopLXor ign => encodeP c .bopL (c.oprmap.binary .xor) ign
  | .bopLEq ign => encodeP c .bopL (c.oprmap.binary .eq) ign
  | .bopLNe ign => encodeP c .bopL (c.oprmap.binary .ne) ign
  | .bopLLe ign => encodeP c .bopL (c.oprmap.binary .le) ign
  | .bopLGe ign => encodeP c .bopL (c.oprmap.binary .ge) ign
  | .bopLLt ign => encodeP c .bopL (c.oprmap.binary .lt) ign
  | .bopLGt ign => encodeP c .bopL (c.oprmap.binary .gt) ign
  | .bopLLand ign => encodeP c .bopL (c.oprmap.binary .land) ign
  | .bopLLor ign => encodeP c .bopL (c.oprmap.binary .lor) ign
  | .bopLAdd ign => encodeP c .bopL (c.oprmap.binary .add) ign
  | .bopLSub ign => encodeP c .bopL (c.oprmap.binary .sub) ign
  | .bopLMul ign => encodeP c .bopL (c.oprmap.binary .mul) ign
  | .bopLDiv ign => encodeP c .bopL (c.oprmap.binary .div) ign
  | .bopLMod ign => encodeP c .bopL (c.oprmap.binary .mod) ign
  | .bopLPow ign => encodeP c .bopL (c.oprmap.binary .pow) ign
  | .bopRShr ign => encodeP c .bopR (c.oprmap.binary .shr) ign
  | .bopRShl ign => encodeP c .bopR (c.oprmap.binary .shl) ign
  | .bopRAnd ign => encodeP c .bopR (c.oprmap.binary .and) ign
  | .bopROr ign => encodeP c .bopR (c.oprmap.binary .or) ign
  | .bopRXor ign => encodeP c .bopR (c.oprmap.binary .xor) ign
  | .bopREq ign => encodeP c .bopR (c.oprmap.binary .eq) ign
  | .bopRNe ign => encodeP c .bopR (c.oprmap.binary .ne) ign
  | .bopRLe ign => encodeP c .bopR (c.oprmap.binary .le) ign
  | .bopRGe ign => encodeP c .bopR (c.oprmap.binary .ge) ign
  | .bopRLt ign => encodeP c .bopR (c.oprmap.binary .lt) ign
  | .bopRGt ign => encodeP c .bopR (c.oprmap.binary .gt) ign
  | .bopRLand ign => encodeP c .bopR (c.oprmap.binary .land) ign
  | .bopRLor ign => encodeP c .bopR (c.oprmap.binary .lor) ign
  | .bopRAdd ign => encodeP c .bopR (c.oprmap.binary .add) ign
  | .bopRSub ign => encodeP c .bopR (c.oprmap.binary .sub) ign
  | .bopRMul ign => encodeP c .bopR (c.oprmap.binary .mul) ign
  | .bopRDiv ign => encodeP c .bopR (c.oprmap.binary .div) ign
  | .bopRMod ign => encodeP c .bopR (c.oprmap.binary .mod) ign
  | .bopRPow ign => encodeP c .bopR (c.oprmap.binary .pow) ign
  | .swap ign => encodeN c .swap ign
  | .brl off => encodeO c .brl off
  | .brr off => encodeO c .brr off
  | .jmp off => encodeO c .jmp off
  | .call off => encodeO c .call off
  | .ret ign => encodeN c .ret ign

/-- The instruction with every ignored bit 0, as the assembler writes it (R72). -/
def Instr.clearIgnored : Instr → Instr
  | .nop _ => .nop 0
  | .ldsL off => .ldsL off
  | .ldsR off => .ldsR off
  | .stsL off => .stsL off
  | .stsR off => .stsR off
  | .ldsiL off => .ldsiL off
  | .ldsiR off => .ldsiR off
  | .stsiL off => .stsiL off
  | .stsiR off => .stsiR off
  | .ldfL off => .ldfL off
  | .ldfR off => .ldfR off
  | .stfL off => .stfL off
  | .stfR off => .stfR off
  | .ldfiL off => .ldfiL off
  | .ldfiR off => .ldfiR off
  | .stfiL off => .stfiL off
  | .stfiR off => .stfiR off
  | .uopLBnot _ => .uopLBnot 0
  | .uopLLnot _ => .uopLLnot 0
  | .uopRBnot _ => .uopRBnot 0
  | .uopRLnot _ => .uopRLnot 0
  | .bopLShr _ => .bopLShr 0
  | .bopLShl _ => .bopLShl 0
  | .bopLAnd _ => .bopLAnd 0
  | .bopLOr _ => .bopLOr 0
  | .bopLXor _ => .bopLXor 0
  | .bopLEq _ => .bopLEq 0
  | .bopLNe _ => .bopLNe 0
  | .bopLLe _ => .bopLLe 0
  | .bopLGe _ => .bopLGe 0
  | .bopLLt _ => .bopLLt 0
  | .bopLGt _ => .bopLGt 0
  | .bopLLand _ => .bopLLand 0
  | .bopLLor _ => .bopLLor 0
  | .bopLAdd _ => .bopLAdd 0
  | .bopLSub _ => .bopLSub 0
  | .bopLMul _ => .bopLMul 0
  | .bopLDiv _ => .bopLDiv 0
  | .bopLMod _ => .bopLMod 0
  | .bopLPow _ => .bopLPow 0
  | .bopRShr _ => .bopRShr 0
  | .bopRShl _ => .bopRShl 0
  | .bopRAnd _ => .bopRAnd 0
  | .bopROr _ => .bopROr 0
  | .bopRXor _ => .bopRXor 0
  | .bopREq _ => .bopREq 0
  | .bopRNe _ => .bopRNe 0
  | .bopRLe _ => .bopRLe 0
  | .bopRGe _ => .bopRGe 0
  | .bopRLt _ => .bopRLt 0
  | .bopRGt _ => .bopRGt 0
  | .bopRLand _ => .bopRLand 0
  | .bopRLor _ => .bopRLor 0
  | .bopRAdd _ => .bopRAdd 0
  | .bopRSub _ => .bopRSub 0
  | .bopRMul _ => .bopRMul 0
  | .bopRDiv _ => .bopRDiv 0
  | .bopRMod _ => .bopRMod 0
  | .bopRPow _ => .bopRPow 0
  | .swap _ => .swap 0
  | .brl off => .brl off
  | .brr off => .brr off
  | .jmp off => .jmp off
  | .call off => .call off
  | .ret _ => .ret 0

/-- `HALT` (R77): the pseudo-instruction that assembles as `JMP -1`. -/
def Instr.halt : Instr := .jmp (-1)

/-- The instruction the decoder of the default configuration reads from the word `w`, of which the table gives `nbits`
bits. Every instruction is one 32-bit word (R60), so bits above `nbits` are 0 and there is no second word. -/
def decodeTableWord (nbits w : Nat) : Option Instr :=
  match decode Config.default (BitVec.ofNat 32 (w % 2 ^ nbits)) with
  | .ok i => some i
  | .error _ => none

end Sys2Proof
end

