-- ==== Sys2Proof/Machine/OperatorUnit.lean ====
section
/-! DEFINITION. The operator unit (spec/41_operators.md R125 to R146): one definition for each operator, on words, with the
faults each rule names. -/

namespace Sys2Proof.Machine

/-- `BNOT` (R126). -/
def opBnot (a : Word) : Word := ~~~a

/-- `LNOT` (R127). -/
def opLnot (a : Word) : Word := truth (a == 0)

/-- The shift count (R128): the low five bits, or a fault outside 0 .. 31 under `SHIFT_COUNT = Fault`. -/
def shiftAmount (c : Config) (b : Word) : Except Reason Nat :=
  match c.shiftCount with
  | .mask5 => .ok (uint32 b % 32)
  | .fault => if sint32 b < 0 ∨ 31 < sint32 b then .error .shiftCount else .ok (uint32 b)

/-- `SHR` (R128): arithmetic, `word(floor(sa / 2^c))`. -/
def opShr (c : Config) (a b : Word) : Except Reason Word :=
  match shiftAmount c b with
  | .ok n => .ok (word (Int.fdiv (sint32 a) ((2 ^ n : Nat) : Int)))
  | .error ρ => .error ρ

/-- `SHL` (R129): `word(uint32(a) * 2^c)`. -/
def opShl (c : Config) (a b : Word) : Except Reason Word :=
  match shiftAmount c b with
  | .ok n => .ok (word ((uint32 a * 2 ^ n : Nat) : Int))
  | .error ρ => .error ρ

/-- `AND` (R130). -/
def opAnd (a b : Word) : Word := a &&& b

/-- `OR` (R131). -/
def opOr (a b : Word) : Word := a ||| b

/-- `XOR` (R132). -/
def opXor (a b : Word) : Word := a ^^^ b

/-- `EQ` (R133). -/
def opEq (a b : Word) : Word := truth (a == b)

/-- `NE` (R134). -/
def opNe (a b : Word) : Word := truth (a != b)

/-- `LE` (R135), signed. -/
def opLe (a b : Word) : Word := truth (decide (sint32 a ≤ sint32 b))

/-- `GE` (R136), signed. -/
def opGe (a b : Word) : Word := truth (decide (sint32 b ≤ sint32 a))

/-- `LT` (R137), signed. -/
def opLt (a b : Word) : Word := truth (decide (sint32 a < sint32 b))

/-- `GT` (R138), signed. -/
def opGt (a b : Word) : Word := truth (decide (sint32 b < sint32 a))

/-- `LAND` (R139). -/
def opLand (a b : Word) : Word := truth (isNonzero a && isNonzero b)

/-- `LOR` (R140). -/
def opLor (a b : Word) : Word := truth (isNonzero a || isNonzero b)

/-- `ADD` (R141): `word(sa + sb)`. -/
def opAdd (a b : Word) : Word := word (sint32 a + sint32 b)

/-- `SUB` (R142): `word(sa - sb)`. -/
def opSub (a b : Word) : Word := word (sint32 a - sint32 b)

/-- `MUL` (R143): `word(sa * sb)`. -/
def opMul (a b : Word) : Word := word (sint32 a * sint32 b)

/-- `DIV` (R144): truncated toward zero; a zero divisor faults (`DIV_ZERO`). -/
def opDiv (c : Config) (a b : Word) : Except Reason Word :=
  match c.divZero with
  | .fault => if sint32 b = 0 then .error .divideByZero else .ok (word (Int.tdiv (sint32 a) (sint32 b)))

/-- `MOD` (R145): `word(sa - sb * trunc(sa / sb))`; a zero divisor faults. -/
def opMod (c : Config) (a b : Word) : Except Reason Word :=
  match c.divZero with
  | .fault =>
    if sint32 b = 0 then .error .divideByZero
    else .ok (word (sint32 a - sint32 b * Int.tdiv (sint32 a) (sint32 b)))

/-- Repeated squaring over the `k` low bits of the exponent `n`: `acc * base ^ n` on words. -/
def powLoop : Nat → Word → Word → Nat → Word
  | 0, _, acc, _ => acc
  | k + 1, base, acc, n => powLoop k (base * base) (if n % 2 = 1 then acc * base else acc) (n / 2)

/-- `word(sa ^ n)` for an exponent below 2^32, computed by repeated squaring so that it can be evaluated: an exact power
has up to 2^36 bits. DESIGN CHOICE, safe: log 12. -/
def powWrap (a : Word) (n : Nat) : Word := powLoop 32 a 1 n

/-- `|sa ^ n| <= 2^53`, decided without computing a power of an exponent above 53 (R146). -/
def powFits53 (a : Word) (n : Nat) : Bool :=
  decide ((sint32 a).natAbs ≤ 1) || (decide (n ≤ 53) && decide ((sint32 a).natAbs ^ n ≤ 2 ^ 53))

/-- `POW` for a non-negative exponent (R146), by `POW_MODE`. -/
def powNonneg (c : Config) (a : Word) (n : Nat) (b : Word) : Word :=
  match c.powMode with
  | .exactWrap => powWrap a n
  | .float64 => if powFits53 a n then powWrap a n else Config.powFloat64 a b

/-- `POW` (R146). A negative exponent is as R146 says under either mode: log 13. -/
def opPow (c : Config) (a b : Word) : Except Reason Word :=
  if 0 ≤ sint32 b then .ok (powNonneg c a (sint32 b).toNat b)
  else if sint32 a = 0 then .error .divideByZero
  else if sint32 a = 1 then .ok 1
  else if sint32 a = -1 then .ok (if sint32 b % 2 = 0 then 1 else word (-1))
  else .ok 0

/-- `unop(opr, a)` (R125): the dispatch of the unary operators. -/
def unop (u : UnOp) (a : Word) : Word :=
  match u with
  | .bnot => opBnot a
  | .lnot => opLnot a

/-- `binop(opr, a, b)` (R125): the dispatch of the binary operators; a word or a fault. -/
def binop (c : Config) (o : BinOp) (a b : Word) : Except Reason Word :=
  match o with
  | .shr => opShr c a b
  | .shl => opShl c a b
  | .and => .ok (opAnd a b)
  | .or => .ok (opOr a b)
  | .xor => .ok (opXor a b)
  | .eq => .ok (opEq a b)
  | .ne => .ok (opNe a b)
  | .le => .ok (opLe a b)
  | .ge => .ok (opGe a b)
  | .lt => .ok (opLt a b)
  | .gt => .ok (opGt a b)
  | .land => .ok (opLand a b)
  | .lor => .ok (opLor a b)
  | .add => .ok (opAdd a b)
  | .sub => .ok (opSub a b)
  | .mul => .ok (opMul a b)
  | .div => opDiv c a b
  | .mod => opMod c a b
  | .pow => opPow c a b

end Sys2Proof.Machine
end

