-- ==== Sys2Proof/Machine/OperatorInstrs.lean ====
section
/-! DEFINITION. The operator instructions and `SWAP` (spec/41_operators.md R120 to R124). An operator fault records the
instruction word `w` (R191), which the encoder gives back from the instruction and its ignored bits (log 10). -/

namespace Sys2Proof.Machine

/-- `L <- unop(opr, L)` (R120). -/
def unaryToL (u : UnOp) (s : State) : Res Unit := .ok () (s.setL (unop u s.l))

/-- `R <- unop(opr, L)` (R121): the operand is L. -/
def unaryToR (u : UnOp) (s : State) : Res Unit := .ok () (s.setR (unop u s.l))

/-- `L <- binop(opr, L, R)` (R122), where `w` is the instruction word. -/
def binaryToL (o : BinOp) (w : Word) (s : State) : Res Unit :=
  match binop s.cfg o s.l s.r with
  | .ok v => .ok () (s.setL v)
  | .error ρ => .raised ρ (.word w) s

/-- `R <- binop(opr, L, R)` (R123), where `w` is the instruction word. -/
def binaryToR (o : BinOp) (w : Word) (s : State) : Res Unit :=
  match binop s.cfg o s.l s.r with
  | .ok v => .ok () (s.setR v)
  | .error ρ => .raised ρ (.word w) s

/-- `SWAP` (R124). -/
def execSwap (_ign : BitVec 24) (s : State) : Host.Outcome State Fault Refusal :=
  conclude s (.ok () ((s.advance.setL s.r).setR s.l))

/-- `UOP.L BNOT` (R120, R126). -/
def execUopLBnot (_ign : BitVec 16) (s : State) : Host.Outcome State Fault Refusal :=
  conclude s (unaryToL .bnot s.advance)

/-- `UOP.L LNOT` (R120, R127). -/
def execUopLLnot (_ign : BitVec 16) (s : State) : Host.Outcome State Fault Refusal :=
  conclude s (unaryToL .lnot s.advance)

/-- `UOP.R BNOT` (R121, R126). -/
def execUopRBnot (_ign : BitVec 16) (s : State) : Host.Outcome State Fault Refusal :=
  conclude s (unaryToR .bnot s.advance)

/-- `UOP.R LNOT` (R121, R127). -/
def execUopRLnot (_ign : BitVec 16) (s : State) : Host.Outcome State Fault Refusal :=
  conclude s (unaryToR .lnot s.advance)

/-- `BOP.L SHR` (R122, R128). -/
def execBopLShr (ign : BitVec 16) (s : State) : Host.Outcome State Fault Refusal :=
  conclude s (binaryToL .shr (encode s.cfg (.bopLShr ign)) s.advance)

/-- `BOP.L SHL` (R122, R129). -/
def execBopLShl (ign : BitVec 16) (s : State) : Host.Outcome State Fault Refusal :=
  conclude s (binaryToL .shl (encode s.cfg (.bopLShl ign)) s.advance)

/-- `BOP.L AND` (R122, R130). -/
def execBopLAnd (ign : BitVec 16) (s : State) : Host.Outcome State Fault Refusal :=
  conclude s (binaryToL .and (encode s.cfg (.bopLAnd ign)) s.advance)

/-- `BOP.L OR` (R122, R131). -/
def execBopLOr (ign : BitVec 16) (s : State) : Host.Outcome State Fault Refusal :=
  conclude s (binaryToL .or (encode s.cfg (.bopLOr ign)) s.advance)

/-- `BOP.L XOR` (R122, R132). -/
def execBopLXor (ign : BitVec 16) (s : State) : Host.Outcome State Fault Refusal :=
  conclude s (binaryToL .xor (encode s.cfg (.bopLXor ign)) s.advance)

/-- `BOP.L EQ` (R122, R133). -/
def execBopLEq (ign : BitVec 16) (s : State) : Host.Outcome State Fault Refusal :=
  conclude s (binaryToL .eq (encode s.cfg (.bopLEq ign)) s.advance)

/-- `BOP.L NE` (R122, R134). -/
def execBopLNe (ign : BitVec 16) (s : State) : Host.Outcome State Fault Refusal :=
  conclude s (binaryToL .ne (encode s.cfg (.bopLNe ign)) s.advance)

/-- `BOP.L LE` (R122, R135). -/
def execBopLLe (ign : BitVec 16) (s : State) : Host.Outcome State Fault Refusal :=
  conclude s (binaryToL .le (encode s.cfg (.bopLLe ign)) s.advance)

/-- `BOP.L GE` (R122, R136). -/
def execBopLGe (ign : BitVec 16) (s : State) : Host.Outcome State Fault Refusal :=
  conclude s (binaryToL .ge (encode s.cfg (.bopLGe ign)) s.advance)

/-- `BOP.L LT` (R122, R137). -/
def execBopLLt (ign : BitVec 16) (s : State) : Host.Outcome State Fault Refusal :=
  conclude s (binaryToL .lt (encode s.cfg (.bopLLt ign)) s.advance)

/-- `BOP.L GT` (R122, R138). -/
def execBopLGt (ign : BitVec 16) (s : State) : Host.Outcome State Fault Refusal :=
  conclude s (binaryToL .gt (encode s.cfg (.bopLGt ign)) s.advance)

/-- `BOP.L LAND` (R122, R139). -/
def execBopLLand (ign : BitVec 16) (s : State) : Host.Outcome State Fault Refusal :=
  conclude s (binaryToL .land (encode s.cfg (.bopLLand ign)) s.advance)

/-- `BOP.L LOR` (R122, R140). -/
def execBopLLor (ign : BitVec 16) (s : State) : Host.Outcome State Fault Refusal :=
  conclude s (binaryToL .lor (encode s.cfg (.bopLLor ign)) s.advance)

/-- `BOP.L ADD` (R122, R141). -/
def execBopLAdd (ign : BitVec 16) (s : State) : Host.Outcome State Fault Refusal :=
  conclude s (binaryToL .add (encode s.cfg (.bopLAdd ign)) s.advance)

/-- `BOP.L SUB` (R122, R142). -/
def execBopLSub (ign : BitVec 16) (s : State) : Host.Outcome State Fault Refusal :=
  conclude s (binaryToL .sub (encode s.cfg (.bopLSub ign)) s.advance)

/-- `BOP.L MUL` (R122, R143). -/
def execBopLMul (ign : BitVec 16) (s : State) : Host.Outcome State Fault Refusal :=
  conclude s (binaryToL .mul (encode s.cfg (.bopLMul ign)) s.advance)

/-- `BOP.L DIV` (R122, R144). -/
def execBopLDiv (ign : BitVec 16) (s : State) : Host.Outcome State Fault Refusal :=
  conclude s (binaryToL .div (encode s.cfg (.bopLDiv ign)) s.advance)

/-- `BOP.L MOD` (R122, R145). -/
def execBopLMod (ign : BitVec 16) (s : State) : Host.Outcome State Fault Refusal :=
  conclude s (binaryToL .mod (encode s.cfg (.bopLMod ign)) s.advance)

/-- `BOP.L POW` (R122, R146). -/
def execBopLPow (ign : BitVec 16) (s : State) : Host.Outcome State Fault Refusal :=
  conclude s (binaryToL .pow (encode s.cfg (.bopLPow ign)) s.advance)

/-- `BOP.R SHR` (R123, R128). -/
def execBopRShr (ign : BitVec 16) (s : State) : Host.Outcome State Fault Refusal :=
  conclude s (binaryToR .shr (encode s.cfg (.bopRShr ign)) s.advance)

/-- `BOP.R SHL` (R123, R129). -/
def execBopRShl (ign : BitVec 16) (s : State) : Host.Outcome State Fault Refusal :=
  conclude s (binaryToR .shl (encode s.cfg (.bopRShl ign)) s.advance)

/-- `BOP.R AND` (R123, R130). -/
def execBopRAnd (ign : BitVec 16) (s : State) : Host.Outcome State Fault Refusal :=
  conclude s (binaryToR .and (encode s.cfg (.bopRAnd ign)) s.advance)

/-- `BOP.R OR` (R123, R131). -/
def execBopROr (ign : BitVec 16) (s : State) : Host.Outcome State Fault Refusal :=
  conclude s (binaryToR .or (encode s.cfg (.bopROr ign)) s.advance)

/-- `BOP.R XOR` (R123, R132). -/
def execBopRXor (ign : BitVec 16) (s : State) : Host.Outcome State Fault Refusal :=
  conclude s (binaryToR .xor (encode s.cfg (.bopRXor ign)) s.advance)

/-- `BOP.R EQ` (R123, R133). -/
def execBopREq (ign : BitVec 16) (s : State) : Host.Outcome State Fault Refusal :=
  conclude s (binaryToR .eq (encode s.cfg (.bopREq ign)) s.advance)

/-- `BOP.R NE` (R123, R134). -/
def execBopRNe (ign : BitVec 16) (s : State) : Host.Outcome State Fault Refusal :=
  conclude s (binaryToR .ne (encode s.cfg (.bopRNe ign)) s.advance)

/-- `BOP.R LE` (R123, R135). -/
def execBopRLe (ign : BitVec 16) (s : State) : Host.Outcome State Fault Refusal :=
  conclude s (binaryToR .le (encode s.cfg (.bopRLe ign)) s.advance)

/-- `BOP.R GE` (R123, R136). -/
def execBopRGe (ign : BitVec 16) (s : State) : Host.Outcome State Fault Refusal :=
  conclude s (binaryToR .ge (encode s.cfg (.bopRGe ign)) s.advance)

/-- `BOP.R LT` (R123, R137). -/
def execBopRLt (ign : BitVec 16) (s : State) : Host.Outcome State Fault Refusal :=
  conclude s (binaryToR .lt (encode s.cfg (.bopRLt ign)) s.advance)

/-- `BOP.R GT` (R123, R138). -/
def execBopRGt (ign : BitVec 16) (s : State) : Host.Outcome State Fault Refusal :=
  conclude s (binaryToR .gt (encode s.cfg (.bopRGt ign)) s.advance)

/-- `BOP.R LAND` (R123, R139). -/
def execBopRLand (ign : BitVec 16) (s : State) : Host.Outcome State Fault Refusal :=
  conclude s (binaryToR .land (encode s.cfg (.bopRLand ign)) s.advance)

/-- `BOP.R LOR` (R123, R140). -/
def execBopRLor (ign : BitVec 16) (s : State) : Host.Outcome State Fault Refusal :=
  conclude s (binaryToR .lor (encode s.cfg (.bopRLor ign)) s.advance)

/-- `BOP.R ADD` (R123, R141). -/
def execBopRAdd (ign : BitVec 16) (s : State) : Host.Outcome State Fault Refusal :=
  conclude s (binaryToR .add (encode s.cfg (.bopRAdd ign)) s.advance)

/-- `BOP.R SUB` (R123, R142). -/
def execBopRSub (ign : BitVec 16) (s : State) : Host.Outcome State Fault Refusal :=
  conclude s (binaryToR .sub (encode s.cfg (.bopRSub ign)) s.advance)

/-- `BOP.R MUL` (R123, R143). -/
def execBopRMul (ign : BitVec 16) (s : State) : Host.Outcome State Fault Refusal :=
  conclude s (binaryToR .mul (encode s.cfg (.bopRMul ign)) s.advance)

/-- `BOP.R DIV` (R123, R144). -/
def execBopRDiv (ign : BitVec 16) (s : State) : Host.Outcome State Fault Refusal :=
  conclude s (binaryToR .div (encode s.cfg (.bopRDiv ign)) s.advance)

/-- `BOP.R MOD` (R123, R145). -/
def execBopRMod (ign : BitVec 16) (s : State) : Host.Outcome State Fault Refusal :=
  conclude s (binaryToR .mod (encode s.cfg (.bopRMod ign)) s.advance)

/-- `BOP.R POW` (R123, R146). -/
def execBopRPow (ign : BitVec 16) (s : State) : Host.Outcome State Fault Refusal :=
  conclude s (binaryToR .pow (encode s.cfg (.bopRPow ign)) s.advance)

end Sys2Proof.Machine
end

