-- ==== Sys2Proof/Machine/Dispatch.lean ====
section
/-! DEFINITION. What each instruction does: one arm for each constructor of `Instr`. -/

namespace Sys2Proof.Machine

def exec (i : Instr) (s : State) : Host.Outcome State Fault Refusal :=
  match i with
  | .nop ign => Sys2Proof.Machine.execNop ign s
  | .ldsL off => Sys2Proof.Machine.execLdsL off s
  | .ldsR off => Sys2Proof.Machine.execLdsR off s
  | .stsL off => Sys2Proof.Machine.execStsL off s
  | .stsR off => Sys2Proof.Machine.execStsR off s
  | .ldsiL off => Sys2Proof.Machine.execLdsiL off s
  | .ldsiR off => Sys2Proof.Machine.execLdsiR off s
  | .stsiL off => Sys2Proof.Machine.execStsiL off s
  | .stsiR off => Sys2Proof.Machine.execStsiR off s
  | .ldfL off => Sys2Proof.Machine.execLdfL off s
  | .ldfR off => Sys2Proof.Machine.execLdfR off s
  | .stfL off => Sys2Proof.Machine.execStfL off s
  | .stfR off => Sys2Proof.Machine.execStfR off s
  | .ldfiL off => Sys2Proof.Machine.execLdfiL off s
  | .ldfiR off => Sys2Proof.Machine.execLdfiR off s
  | .stfiL off => Sys2Proof.Machine.execStfiL off s
  | .stfiR off => Sys2Proof.Machine.execStfiR off s
  | .uopLBnot ign => Sys2Proof.Machine.execUopLBnot ign s
  | .uopLLnot ign => Sys2Proof.Machine.execUopLLnot ign s
  | .uopRBnot ign => Sys2Proof.Machine.execUopRBnot ign s
  | .uopRLnot ign => Sys2Proof.Machine.execUopRLnot ign s
  | .bopLShr ign => Sys2Proof.Machine.execBopLShr ign s
  | .bopLShl ign => Sys2Proof.Machine.execBopLShl ign s
  | .bopLAnd ign => Sys2Proof.Machine.execBopLAnd ign s
  | .bopLOr ign => Sys2Proof.Machine.execBopLOr ign s
  | .bopLXor ign => Sys2Proof.Machine.execBopLXor ign s
  | .bopLEq ign => Sys2Proof.Machine.execBopLEq ign s
  | .bopLNe ign => Sys2Proof.Machine.execBopLNe ign s
  | .bopLLe ign => Sys2Proof.Machine.execBopLLe ign s
  | .bopLGe ign => Sys2Proof.Machine.execBopLGe ign s
  | .bopLLt ign => Sys2Proof.Machine.execBopLLt ign s
  | .bopLGt ign => Sys2Proof.Machine.execBopLGt ign s
  | .bopLLand ign => Sys2Proof.Machine.execBopLLand ign s
  | .bopLLor ign => Sys2Proof.Machine.execBopLLor ign s
  | .bopLAdd ign => Sys2Proof.Machine.execBopLAdd ign s
  | .bopLSub ign => Sys2Proof.Machine.execBopLSub ign s
  | .bopLMul ign => Sys2Proof.Machine.execBopLMul ign s
  | .bopLDiv ign => Sys2Proof.Machine.execBopLDiv ign s
  | .bopLMod ign => Sys2Proof.Machine.execBopLMod ign s
  | .bopLPow ign => Sys2Proof.Machine.execBopLPow ign s
  | .bopRShr ign => Sys2Proof.Machine.execBopRShr ign s
  | .bopRShl ign => Sys2Proof.Machine.execBopRShl ign s
  | .bopRAnd ign => Sys2Proof.Machine.execBopRAnd ign s
  | .bopROr ign => Sys2Proof.Machine.execBopROr ign s
  | .bopRXor ign => Sys2Proof.Machine.execBopRXor ign s
  | .bopREq ign => Sys2Proof.Machine.execBopREq ign s
  | .bopRNe ign => Sys2Proof.Machine.execBopRNe ign s
  | .bopRLe ign => Sys2Proof.Machine.execBopRLe ign s
  | .bopRGe ign => Sys2Proof.Machine.execBopRGe ign s
  | .bopRLt ign => Sys2Proof.Machine.execBopRLt ign s
  | .bopRGt ign => Sys2Proof.Machine.execBopRGt ign s
  | .bopRLand ign => Sys2Proof.Machine.execBopRLand ign s
  | .bopRLor ign => Sys2Proof.Machine.execBopRLor ign s
  | .bopRAdd ign => Sys2Proof.Machine.execBopRAdd ign s
  | .bopRSub ign => Sys2Proof.Machine.execBopRSub ign s
  | .bopRMul ign => Sys2Proof.Machine.execBopRMul ign s
  | .bopRDiv ign => Sys2Proof.Machine.execBopRDiv ign s
  | .bopRMod ign => Sys2Proof.Machine.execBopRMod ign s
  | .bopRPow ign => Sys2Proof.Machine.execBopRPow ign s
  | .swap ign => Sys2Proof.Machine.execSwap ign s
  | .brl off => Sys2Proof.Machine.execBrl off s
  | .brr off => Sys2Proof.Machine.execBrr off s
  | .jmp off => Sys2Proof.Machine.execJmp off s
  | .call off => Sys2Proof.Machine.execCall off s
  | .ret ign => Sys2Proof.Machine.execRet ign s

end Sys2Proof.Machine
end

