-- ==== Sys2Proof/Machine/Sequencer.lean ====
section
/-! DEFINITION. The front half of a step (spec/42_control.md R160): the halt check, the fetch and the decode. -/

namespace Sys2Proof.Machine

/-- The halt check (R167): `sint32(PC) < CODE_BASE`, on the address PC names, so that a PC past 2^31 - 1 does not count as
below the code base (R25): log 22. -/
def belowCode (s : State) : Bool := decide (s.pcAddr < s.cfg.codeBase)

/-- What the halt check does when it holds (R167): the status becomes `Halted` and nothing else changes. -/
def halt (s : State) : State := s.setStatus .halted

/-- The fault cause of a decode error (R67). -/
def decodeReason : DecodeError → Reason
  | .illegalOpcode => .illegalOpcode
  | .illegalOperator => .illegalOperator

/-- Decode as a part of the step: a decode error raises its fault with the word as info (R68, R69). -/
def decodeWord (w : Word) (s : State) : Res Instr :=
  match decode s.cfg w with
  | .ok i => .ok i s
  | .error e => .raised (decodeReason e) (.word w) s

/-- The fetch is a `MemRead` at the address PC names (R51, R160), then the decode. -/
def fetchDecode (s : State) : Res Instr := (memRead s.pcAddr s).bind decodeWord

/-- The end of a step begun in the state `s₀`: the decoded instruction runs, or the fault of the fetch or the decode is
taken (R160). -/
def runFetched (s₀ : State) (run : Instr → State → Host.Outcome State Fault Refusal) :
    Res Instr → Host.Outcome State Fault Refusal
  | .ok i s => run i s
  | .raised ρ i s => .next (takeFault s₀ s ρ i)
  | .stuck f => .fault f

/-- A step of an engine that is not running: "no step changes any state" (R31). DESIGN CHOICE: log 6. -/
def stepStopped (s : State) : Host.Outcome State Fault Refusal := .next s

/-- The state with a PC the fetch can use: as it is where PC names a plain word, else at `CODE_BASE`. -/
def toFetchable (s : State) : State := if s.PlainAddr s.pcAddr then s else s.goTo s.cfg.codeBase

/-- The state with the word `w` where the next step fetches, and running. Log 14. -/
def placeFetchWord (s : State) (w : Word) : State :=
  ((toFetchable s).setStatus .running).setMem (s.mem.write (toFetchable s).pcAddr.toNat w)

end Sys2Proof.Machine
end

