-- ==== Sys2Proof/Machine/Step.lean ====
section
/-! DEFINITION. One step of the engine (spec/42_control.md R160). -/

namespace Sys2Proof.Machine

/-- One step (R160): while the status is `Running`, the halt check, then fetch, decode and dispatch; a fault on the way is
taken. A halted or faulted engine changes no state (R31). -/
def step (s : State) : Host.Outcome State Fault Refusal :=
  match s.status with
  | .running => if belowCode s then .next (halt s) else runFetched s exec (fetchDecode s)
  | .halted => stepStopped s
  | .faulted _ _ _ => stepStopped s

/-- The state with an instruction of `nbits` bits stored where `step` fetches its next instruction, so that `step` runs
exactly it. Beside that word only what the fetch needs is set: the status `Running`, and PC where it names no plain word.
Every instruction is one word (R60). Log 14. -/
def State.withFetchWord (s : State) (nbits w : Nat) : State := placeFetchWord s (BitVec.ofNat 32 (w % 2 ^ nbits))

end Sys2Proof.Machine
end

