-- ==== Sys2Proof/Machine/Assembler.lean ====
section
/-! DEFINITION. How a symbolic program becomes words (spec/30_encoding.md R72 to R77), as functions on parsed lines; the text
syntax of R74 is left out. The engine itself does not depend on this file. Log 18. -/

namespace Sys2Proof.Machine

/-- One statement of a symbolic program (R74), or a tag definition. -/
inductive AsmLine where
  /-- A tag definition `name:`; it takes no word (R75). -/
  | tag (name : String)
  /-- An instruction whose operand, if any, is written as a number. -/
  | instr (i : Instr)
  /-- A format O instruction whose operand is a tag. -/
  | symbolic (o : Op) (name : String)
  /-- `.word v` (R76). -/
  | data (v : Int)
  /-- The pseudo-instruction `HALT` (R77). -/
  | halt
  deriving DecidableEq, Repr

/-- How many words a line takes: "tag markers themselves do not consume an offset" (R75). -/
def AsmLine.size : AsmLine → Nat
  | .tag _ => 0
  | .instr _ => 1
  | .symbolic _ _ => 1
  | .data _ => 1
  | .halt => 1

/-- Pass 1 (R75): each tag with the offset of the next word, counted from `at`. -/
def asmTags : Nat → List AsmLine → List (String × Nat)
  | _, [] => []
  | n, .tag name :: rest => (name, n) :: asmTags n rest
  | n, line :: rest => asmTags (n + line.size) rest

/-- The offset of a tag in the symbol table of pass 1. -/
def asmLookup : List (String × Nat) → String → Option Nat
  | [], _ => none
  | (k, n) :: rest, name => if name == k then some n else asmLookup rest name

/-- Pass 2 for one line: its words, `none` for an assembly error (R75 undefined tag, R76 range and shape). -/
def asmLine (c : Config) (tags : List (String × Nat)) : AsmLine → Option (List Word)
  | .tag _ => some []
  | .instr i => some [encode c i.clearIgnored]
  | .symbolic o name =>
    match asmLookup tags name with
    | none => none
    | some n =>
      match Instr.ofOffset o n with
      | none => none
      | some i => some [encode c i]
  | .data v => if -2147483648 ≤ v ∧ v < 4294967296 then some [word v] else none
  | .halt => some [encode c Instr.halt]

/-- Pass 2 (R75, R76): the words in order; one error and there is no output at all. -/
def asmWords (c : Config) (tags : List (String × Nat)) : List AsmLine → Option (List Word)
  | [] => some []
  | line :: rest =>
    match asmLine c tags line with
    | none => none
    | some ws =>
      match asmWords c tags rest with
      | none => none
      | some vs => some (ws ++ vs)

/-- The two passes (R75): the words `run` loads at `CODE_BASE`. -/
def assemble (c : Config) (program : List AsmLine) : Option (List Word) := asmWords c (asmTags 0 program) program

end Sys2Proof.Machine
end

