-- ==== Sys2Proof/Machine/Start.lean ====
section
/-! DEFINITION. The start of `run(words)` (spec/70_reset_and_hazards.md R220, R221): the image is loaded and the registers
take their reset values. The steps that follow are `Host.Core.run Sys2Proof.core`. -/

namespace Sys2Proof.Machine

/-- The image is no longer than `STACK_BASE - CODE_BASE` words (R221). -/
def imageFits (c : Config) (words : List Word) : Bool := decide (words.length ≤ c.stackBase - c.codeBase)

/-- The state `run(words)` starts its steps in (R220), with the replies the host has laid down for device reads; an image
that is too long is refused, with no state. Log 15. -/
def State.start (c : Config) (replies : List DeviceReply) (words : List Word) : Host.Outcome State Fault Refusal :=
  if imageFits c words then
    .next (((State.resetFor c).setMem (Memory.image c.codeBase words)).setDevice [] replies)
  else .refused .imageTooLong

end Sys2Proof.Machine
end

