-- ==== Sys2Proof/Safety.lean ====
section
/-! DEFINITION. The terms the statements use: what a plain word holds, what one access of the memory port gives, said on the
state and not through the port's functions, and the invariant of a run. -/

namespace Sys2Proof.Machine

/-- The plain word at address `a` has been written and holds `w` (R33, R43). -/
abbrev State.Holds (s : State) (a : Int) (w : Word) : Prop := s.PlainAddr a ∧ s.mem.read a.toNat = some w

/-- The address names a plain word that nothing has written (R33). -/
abbrev State.Unwritten (s : State) (a : Int) : Prop := s.PlainAddr a ∧ s.mem.read a.toNat = none

/-- The collaborator answers the next device read with `w`: the next reply laid down, or the oracle's word where there is
none (R45). -/
def State.Answers (s : State) (a : Nat) (w : Word) : Prop :=
  s.deviceReplies.head? = some (.word w) ∨ s.deviceReplies = [] ∧ w = Config.deviceAnswer s.deviceHistory a

/-- A read of address `a` in the state `s` gives `w` and leaves the state `t` (R43, R45): a plain word that was written, and
then nothing changes, or a device's answer, and then the access is recorded. Log 7. -/
def ReadGives (s : State) (a : Int) (w : Word) (t : State) : Prop :=
  (s.Holds a w ∧ t = s) ∨
    (s.DeviceAddr a ∧ s.Answers a.toNat w ∧
      t = { s with deviceHistory := s.deviceHistory ++ [.read a.toNat w], deviceReplies := s.deviceReplies.tail })

/-- A read of address `a` in the state `s` raises the fault `ρ` (R43). -/
def ReadFaults (s : State) (a : Int) (ρ : Reason) : Prop :=
  (s.OutsideAddr a ∧ ρ = .addressOutOfRange) ∨ (s.Unwritten a ∧ ρ = .uninitializedRead)

/-- A read of address `a` in the state `s` is never answered (R225). -/
def ReadSticks (s : State) (a : Int) : Prop := s.DeviceAddr a ∧ s.deviceReplies.head? = some .silent

/-- The state `t` is `s` after a store of `v` at address `a` by an instruction of one word (R44, R45): the next PC; in
plain memory that one word and no other; in device space one recorded write. -/
def StoreGives (s : State) (a : Int) (v : Word) (t : State) : Prop :=
  (s.PlainAddr a → t = { s with pc := s.pc + 1, pcAbove := s.advance.pcAbove, mem := t.mem } ∧ t.mem.read a.toNat = some v ∧
      ∀ b : Nat, b ≠ a.toNat → t.mem.read b = s.mem.read b) ∧
    (s.DeviceAddr a →
      t = { s with
        pc := s.pc + 1, pcAbove := s.advance.pcAbove, deviceHistory := s.deviceHistory ++ [.write a.toNat v] })

/-- The state `s` with a fault taken at the instruction it stands at, the device accesses made up to `t` kept (R12, R193). -/
def faultRecord (s t : State) (ρ : Reason) (info : Info) : State :=
  { s with status := .faulted ρ s.pcAddr info, deviceHistory := t.deviceHistory, deviceReplies := t.deviceReplies }

/-- The integer whose word is `POW` of the operands' signed values (R146, `ExactWrap`), `none` where the rule faults. -/
def powExact (sa sb : Int) : Option Int :=
  if 0 ≤ sb then some (sa ^ sb.toNat)
  else if sa = 0 then none
  else if sa = 1 then some 1
  else if sa = -1 then some (if sb % 2 = 0 then 1 else -1)
  else some 0

/-- The address of the first read of an instruction that can make a further access after it (R52): the pointer read of an
indirect load or store, the frame-size read of `CALL`, the saved-SPL read of `RET`. -/
def State.leadingRead (s : State) (i : Instr) : Option Int :=
  if i.op ∈ [.ldsiL, .ldsiR, .stsiL, .stsiR] then i.offset?.map fun off => s.cfg.codeBase + off
  else if i.op ∈ [.ldfiL, .ldfiR, .stfiL, .stfiR] then i.offset?.map fun off => sint32 s.spl + off
  else if i.op = .call then i.offset?.map fun off => s.cfg.codeBase + off - 1
  else if i.op = .ret then some (sint32 s.spl)
  else none

/-- The address `a` is one the instruction `i` reads when it runs in the state `s` (R52): its leading read, the one read of a
direct load, or, where the leading read gave `p`, the read that follows it. -/
def State.ReadsAt (s : State) (i : Instr) (a : Int) : Prop :=
  s.leadingRead i = some a ∨
    (i.op ∈ [.ldsL, .ldsR] ∧ ∃ off, i.offset? = some off ∧ a = s.cfg.codeBase + off) ∨
    (i.op ∈ [.ldfL, .ldfR] ∧ ∃ off, i.offset? = some off ∧ a = sint32 s.spl + off) ∨
    ∃ b p t, s.leadingRead i = some b ∧ ReadGives s b p t ∧
      (i.op ∈ [.ldsiL, .ldsiR, .ldfiL, .ldfiR] ∧ a = sint32 p ∨ i.op = .ret ∧ a = sint32 s.spl - 1)

/-- The address `a` is one the instruction `i` writes when it runs in the state `s` (R52): that of a direct store; or, where
the leading read gave `p`, that of an indirect store, or a linkage word of a `CALL` that passed its checks (R165). -/
def State.WritesAt (s : State) (i : Instr) (a : Int) : Prop :=
  (i.op ∈ [.stsL, .stsR] ∧ ∃ off, i.offset? = some off ∧ a = s.cfg.codeBase + off) ∨
    (i.op ∈ [.stfL, .stfR] ∧ ∃ off, i.offset? = some off ∧ a = sint32 s.spl + off) ∨
    ∃ b p t, s.leadingRead i = some b ∧ ReadGives s b p t ∧
      (i.op ∈ [.stsiL, .stsiR, .stfiL, .stfiR] ∧ a = sint32 p ∨
        i.op = .call ∧ 0 ≤ sint32 p ∧ s.cfg.stackBase ≤ sint32 s.spr - 1 ∧ sint32 s.spr + sint32 p ≤ s.cfg.memSize ∧
          (a = sint32 s.spr - 1 ∨ a = sint32 s.spr))

/-- The instruction the step at `s` fetches and decodes is `i` (R67, R160). -/
def State.Runs (s : State) (i : Instr) : Prop := ∃ w, s.Holds s.pcAddr w ∧ decode s.cfg w = .ok i

/-- The address of a recorded device access. -/
def eventAddress : DeviceEvent → Nat
  | .read a _ => a
  | .write a _ => a

/-- The status tells the truth about PC: halted below `CODE_BASE` (R167); faulted at the address the record names, which
was not below `CODE_BASE` (R160, R192, R193). -/
def State.StatusAgrees (s : State) : Prop :=
  match s.status with
  | .running => True
  | .halted => s.pcAddr < s.cfg.codeBase
  | .faulted _ p _ => p = s.pcAddr ∧ s.cfg.codeBase ≤ p

/-- PC counts as set to an address of 2^31 or more only where its 32 bits are that address (R25). Log 22. -/
def State.PcAgrees (s : State) : Prop := s.pcAbove = true → 0x80000000 ≤ uint32 s.pc

/-- The invariant of a run: sizes within the constraints of R7, memory in canonical form and within plain addresses (R33,
R42), device accesses within device space (R42, R45, R53), the status in agreement with PC, and PC not wrapped (R25). -/
def State.Inv (s : State) : Prop :=
  s.cfg.SizesValid ∧ s.PcAgrees ∧ s.mem.wf ∧ (∀ p ∈ s.mem, s.cfg.codeBase ≤ p.1 ∧ p.1 < s.cfg.memSize) ∧
    (∀ e ∈ s.deviceHistory, eventAddress e < s.cfg.codeBase) ∧ s.StatusAgrees

end Sys2Proof.Machine
end

