-- ==== Sys2Proof/Certificates/Slice0/Obligations.lean ====
section
/-! DEFINITION. The statements for the provers. Each docstring names the rules of spec/ it formalises. `exec i s` is given the
state at the start of the step: PC still at the instruction. -/

open Sys2Proof Sys2Proof.Machine

/-- Decoding the word of any well-formed instruction gives the instruction back. Derived from R61, R62, R63, R64, R67, R70,
R72. -/
def Obligations.DecodeEncodeRoundTrip : Prop :=
  ∀ (c : Config) (i : Instr), c.Valid → WellFormed i → decode c (encode c i) = .ok i

/-- A word that decodes is the word of the instruction it decodes to, and that instruction is well-formed (Instr keeps
ignored bits: the model's choice, log 10). Derived from R61, R62, R63, R64, R67, R72. -/
def Obligations.EncodeDecodeRoundTrip : Prop :=
  ∀ (c : Config) (w : Word) (i : Instr), decode c w = .ok i → encode c i = w ∧ WellFormed i

/-- The decoder rejects exactly the words of an illegal opcode or an illegal operator. Derived from R67, R68, R69. -/
def Obligations.DecodeErrorsExactly : Prop :=
  ∀ (c : Config) (w : Word),
    (decode c w = .error .illegalOpcode ↔ ∀ o, c.opmap.code o ≠ opcodeField w) ∧
    (c.OpmapValid → (decode c w = .error .illegalOperator ↔
      ((opcodeField w = c.opmap.code .uopL ∨ opcodeField w = c.opmap.code .uopR) ∧
          ∀ u, c.oprmap.unary u ≠ operatorField w) ∨
        ((opcodeField w = c.opmap.code .bopL ∨ opcodeField w = c.opmap.code .bopR) ∧
          ∀ b, c.oprmap.binary b ≠ operatorField w)))

/-- The seventeen decode vectors of 95_test_vectors.md section 2, and two words more, decode as the spec says. Derived from
95_test_vectors.md section 2, R65, R66, R67. -/
def Obligations.DecodesSampleWords : Prop :=
  decode Config.default 0x10FFFFFF = .ok (.ldsL (-1)) ∧
    decode Config.default 0x10000000 = .ok (.ldsL 0) ∧
    decode Config.default 0x10800000 = .ok (.ldsL (-8388608)) ∧
    decode Config.default 0x107FFFFF = .ok (.ldsL 8388607) ∧
    decode Config.default 0x27000001 = .ok (.stfiR 1) ∧
    decode Config.default 0x4300000B = .ok (.call 11) ∧
    decode Config.default 0x42FFFFFF = .ok (.jmp (-1)) ∧
    decode Config.default 0x00000005 = .ok (.nop 5) ∧
    decode Config.default 0x34ABCDEF = .ok (.swap 0xABCDEF) ∧
    decode Config.default 0x44FFFFFF = .ok (.ret 0xFFFFFF) ∧
    decode Config.default 0x3230FFFF = .ok (.bopLAdd 0xFFFF) ∧
    decode Config.default 0x31010000 = .ok (.uopRLnot 0) ∧
    decode Config.default 0x05000000 = .error .illegalOpcode ∧
    decode Config.default 0x35000000 = .error .illegalOpcode ∧
    decode Config.default 0x45000000 = .error .illegalOpcode ∧
    decode Config.default 0xFF000000 = .error .illegalOpcode ∧
    decode Config.default 0x32000000 = .error .illegalOperator ∧
    decode Config.default 0x30100000 = .error .illegalOperator ∧
    decode Config.default 0x3236FFFF = .error .illegalOperator

/-- The words the assembler writes are op * 2^24, with the masked offset or the operator code added. Formalises R72. -/
def Obligations.AssemblerWritesTheseWords : Prop :=
  ∀ c : Config,
    (∀ i, i = Instr.nop 0 ∨ i = Instr.swap 0 ∨ i = Instr.ret 0 →
      encode c i = word ((c.opmap.code i.op).toNat * 2 ^ 24)) ∧
    (∀ o off i, Instr.ofOffset o off = some i →
      encode c i = word ((c.opmap.code o).toNat * 2 ^ 24 + off % 2 ^ 24)) ∧
    (∀ u, encode c (Instr.uopL u 0) = word ((c.opmap.code .uopL).toNat * 2 ^ 24 + (c.oprmap.unary u).toNat * 2 ^ 16) ∧
      encode c (Instr.uopR u 0) = word ((c.opmap.code .uopR).toNat * 2 ^ 24 + (c.oprmap.unary u).toNat * 2 ^ 16)) ∧
    ∀ b, encode c (Instr.bopL b 0) = word ((c.opmap.code .bopL).toNat * 2 ^ 24 + (c.oprmap.binary b).toNat * 2 ^ 16) ∧
      encode c (Instr.bopR b 0) = word ((c.opmap.code .bopR).toNat * 2 ^ 24 + (c.oprmap.binary b).toNat * 2 ^ 16)

/-- An offset outside the 24-bit range, masked, decodes as its low 24 bits sign-extended. Formalises R73. -/
def Obligations.MaskedOffsetsDecodeSignExtended : Prop :=
  (∀ (c : Config) (o : Op) (off : Int) (i : Instr), c.OpmapValid → Instr.ofOffset o off = some i →
    ∃ off', decode c (encode c i) = .ok ((Instr.ofOffset o off').getD i) ∧
      -2 ^ 23 ≤ off' ∧ off' < 2 ^ 23 ∧ off' % 2 ^ 24 = off % 2 ^ 24 ∧ off' = sext24 (BitVec.ofInt 24 off) ∧
      (-2 ^ 23 ≤ off → off < 2 ^ 23 → off' = off)) ∧
    sext24 (BitVec.ofInt 24 0x800000) = -8388608 ∧ sext24 (BitVec.ofInt 24 0xFFFFFF) = -1 ∧
    ∀ a : Int, (∃ v : BitVec 24, (Config.default.codeBase : Int) + sext24 v = a) ↔ 0 ≤ a ∧ a ≤ 0xFFFFFF

/-- The ignored bits of an instruction have no effect but on the word in an operator fault record (the Instr keeps them, log
10). Derived from R70, R191. The address PC names, and the `pc0` of a record, is `pcAddr`: the model's choice, log 22. -/
def Obligations.IgnoredBitsHaveNoEffect : Prop :=
  ∀ (i : Instr) (s : State),
    exec i s = exec i.clearIgnored s ∨
      ∃ ρ, exec i s = .next (faultRecord s s ρ (.word (encode s.cfg i))) ∧
        exec i.clearIgnored s = .next (faultRecord s s ρ (.word (encode s.cfg i.clearIgnored)))

/-- BNOT inverts every bit, LNOT tests for zero; UOP.L writes L, UOP.R writes R, the operand is L. Derived from R120, R121,
R126, R127, R160. `pcAbove` is the model's own, written as PcWritesAreThese says: log 22. -/
def Obligations.UnaryOperators : Prop :=
  (∀ (s : State) (ign : BitVec 16),
    exec (.uopLBnot ign) s = .next { s with pc := s.pc + 1, pcAbove := s.advance.pcAbove, l := ~~~s.l } ∧
    exec (.uopRBnot ign) s = .next { s with pc := s.pc + 1, pcAbove := s.advance.pcAbove, r := ~~~s.l } ∧
    exec (.uopLLnot ign) s = .next { s with pc := s.pc + 1, pcAbove := s.advance.pcAbove, l := if s.l = 0 then 1 else 0 } ∧
    exec (.uopRLnot ign) s = .next { s with pc := s.pc + 1, pcAbove := s.advance.pcAbove, r := if s.l = 0 then 1 else 0 }) ∧
    (∀ a : Word, unop .bnot a = ~~~a ∧ unop .bnot a = word (-sint32 a - 1)) ∧
    (∀ a : Word, unop .lnot a = (if a = 0 then 1 else 0) ∧ unop .lnot (unop .lnot a) = if a = 0 then 0 else 1) ∧
    unop .bnot 0 = 0xFFFFFFFF ∧ unop .bnot 0x7FFFFFFF = 0x80000000 ∧ unop .bnot 0xFFFFFFF7 = 0x00000008 ∧
    unop .lnot 0x80000000 = 0 ∧ unop .lnot 42 = 0 ∧
    OprMap.default.unary .bnot = 0x00#8 ∧ OprMap.default.unary .lnot = 0x01#8

/-- SHR is arithmetic and SHL logical, by the low five bits of R, or faulting outside 0..31 under SHIFT_COUNT = Fault.
Derived from R122, R123, R128, R129, R160, R191. `pcAbove` is the model's own, written as PcWritesAreThese says: log 22. The
address PC names, and the `pc0` of a record, is `pcAddr`: the model's choice, log 22. -/
def Obligations.ShiftOperators : Prop :=
  (∀ (s : State) (ign : BitVec 16),
    (s.cfg.shiftCount = .mask5 →
      exec (.bopLShr ign) s =
        .next { s with pc := s.pc + 1, pcAbove := s.advance.pcAbove, l := word (Int.fdiv (sint32 s.l) (2 ^ (uint32 s.r % 2 ^ 5))) } ∧
      exec (.bopRShr ign) s =
        .next { s with pc := s.pc + 1, pcAbove := s.advance.pcAbove, r := word (Int.fdiv (sint32 s.l) (2 ^ (uint32 s.r % 2 ^ 5))) } ∧
      exec (.bopLShl ign) s =
        .next { s with pc := s.pc + 1, pcAbove := s.advance.pcAbove, l := word (uint32 s.l * 2 ^ (uint32 s.r % 2 ^ 5)) } ∧
      exec (.bopRShl ign) s =
        .next { s with pc := s.pc + 1, pcAbove := s.advance.pcAbove, r := word (uint32 s.l * 2 ^ (uint32 s.r % 2 ^ 5)) }) ∧
    (s.cfg.shiftCount = .fault → 0 ≤ sint32 s.r → sint32 s.r ≤ 31 →
      exec (.bopLShr ign) s =
        .next { s with pc := s.pc + 1, pcAbove := s.advance.pcAbove, l := word (Int.fdiv (sint32 s.l) (2 ^ (sint32 s.r).toNat)) } ∧
      exec (.bopRShr ign) s =
        .next { s with pc := s.pc + 1, pcAbove := s.advance.pcAbove, r := word (Int.fdiv (sint32 s.l) (2 ^ (sint32 s.r).toNat)) } ∧
      exec (.bopLShl ign) s =
        .next { s with pc := s.pc + 1, pcAbove := s.advance.pcAbove, l := word (uint32 s.l * 2 ^ (sint32 s.r).toNat) } ∧
      exec (.bopRShl ign) s =
        .next { s with pc := s.pc + 1, pcAbove := s.advance.pcAbove, r := word (uint32 s.l * 2 ^ (sint32 s.r).toNat) }) ∧
    (s.cfg.shiftCount = .fault → sint32 s.r < 0 ∨ 31 < sint32 s.r → ∀ w : Word,
      (decode s.cfg w = .ok (.bopLShr ign) → exec (.bopLShr ign) s = .next (faultRecord s s .shiftCount (.word w))) ∧
      (decode s.cfg w = .ok (.bopRShr ign) → exec (.bopRShr ign) s = .next (faultRecord s s .shiftCount (.word w))) ∧
      (decode s.cfg w = .ok (.bopLShl ign) → exec (.bopLShl ign) s = .next (faultRecord s s .shiftCount (.word w))) ∧
      (decode s.cfg w = .ok (.bopRShl ign) → exec (.bopRShl ign) s = .next (faultRecord s s .shiftCount (.word w))))) ∧
    (∀ (a : Word) (n : Nat), n < 32 →
      word (Int.fdiv (sint32 a) (2 ^ n)) = a.sshiftRight n ∧ word (uint32 a * 2 ^ n) = a <<< n) ∧
    OprMap.default.binary .shr = 0x10#8 ∧ OprMap.default.binary .shl = 0x11#8

/-- AND, OR and XOR act bit by bit and never fault. Derived from R122, R123, R130, R131, R132, R160. `pcAbove` is the model's
own, written as PcWritesAreThese says: log 22. -/
def Obligations.BitwiseOperators : Prop :=
  (∀ (s : State) (ign : BitVec 16),
    exec (.bopLAnd ign) s = .next { s with pc := s.pc + 1, pcAbove := s.advance.pcAbove, l := s.l &&& s.r } ∧
    exec (.bopRAnd ign) s = .next { s with pc := s.pc + 1, pcAbove := s.advance.pcAbove, r := s.l &&& s.r } ∧
    exec (.bopLOr ign) s = .next { s with pc := s.pc + 1, pcAbove := s.advance.pcAbove, l := s.l ||| s.r } ∧
    exec (.bopROr ign) s = .next { s with pc := s.pc + 1, pcAbove := s.advance.pcAbove, r := s.l ||| s.r } ∧
    exec (.bopLXor ign) s = .next { s with pc := s.pc + 1, pcAbove := s.advance.pcAbove, l := s.l ^^^ s.r } ∧
    exec (.bopRXor ign) s = .next { s with pc := s.pc + 1, pcAbove := s.advance.pcAbove, r := s.l ^^^ s.r }) ∧
    (∀ a : Word, opXor a a = 0) ∧
    OprMap.default.binary .and = 0x12#8 ∧ OprMap.default.binary .or = 0x13#8 ∧ OprMap.default.binary .xor = 0x14#8

/-- The six comparisons are signed and give exactly 0 or 1. Derived from R122, R123, R133, R134, R135, R136, R137, R138,
R160. `pcAbove` is the model's own, written as PcWritesAreThese says: log 22. -/
def Obligations.ComparisonOperators : Prop :=
  (∀ (s : State) (ign : BitVec 16),
    exec (.bopLEq ign) s = .next { s with pc := s.pc + 1, pcAbove := s.advance.pcAbove, l := if s.l = s.r then 1 else 0 } ∧
    exec (.bopREq ign) s = .next { s with pc := s.pc + 1, pcAbove := s.advance.pcAbove, r := if s.l = s.r then 1 else 0 } ∧
    exec (.bopLNe ign) s = .next { s with pc := s.pc + 1, pcAbove := s.advance.pcAbove, l := if s.l ≠ s.r then 1 else 0 } ∧
    exec (.bopRNe ign) s = .next { s with pc := s.pc + 1, pcAbove := s.advance.pcAbove, r := if s.l ≠ s.r then 1 else 0 } ∧
    exec (.bopLLe ign) s =
      .next { s with pc := s.pc + 1, pcAbove := s.advance.pcAbove, l := if sint32 s.l ≤ sint32 s.r then 1 else 0 } ∧
    exec (.bopRLe ign) s =
      .next { s with pc := s.pc + 1, pcAbove := s.advance.pcAbove, r := if sint32 s.l ≤ sint32 s.r then 1 else 0 } ∧
    exec (.bopLGe ign) s =
      .next { s with pc := s.pc + 1, pcAbove := s.advance.pcAbove, l := if sint32 s.l ≥ sint32 s.r then 1 else 0 } ∧
    exec (.bopRGe ign) s =
      .next { s with pc := s.pc + 1, pcAbove := s.advance.pcAbove, r := if sint32 s.l ≥ sint32 s.r then 1 else 0 } ∧
    exec (.bopLLt ign) s =
      .next { s with pc := s.pc + 1, pcAbove := s.advance.pcAbove, l := if sint32 s.l < sint32 s.r then 1 else 0 } ∧
    exec (.bopRLt ign) s =
      .next { s with pc := s.pc + 1, pcAbove := s.advance.pcAbove, r := if sint32 s.l < sint32 s.r then 1 else 0 } ∧
    exec (.bopLGt ign) s =
      .next { s with pc := s.pc + 1, pcAbove := s.advance.pcAbove, l := if sint32 s.l > sint32 s.r then 1 else 0 } ∧
    exec (.bopRGt ign) s =
      .next { s with pc := s.pc + 1, pcAbove := s.advance.pcAbove, r := if sint32 s.l > sint32 s.r then 1 else 0 }) ∧
    (∀ a b : Word, (a = b) = (sint32 a = sint32 b)) ∧
    OprMap.default.binary .eq = 0x20#8 ∧ OprMap.default.binary .ne = 0x21#8 ∧ OprMap.default.binary .le = 0x22#8 ∧
    OprMap.default.binary .ge = 0x23#8 ∧ OprMap.default.binary .lt = 0x24#8 ∧ OprMap.default.binary .gt = 0x25#8

/-- LAND and LOR test both operands for nonzero and give exactly 0 or 1. Derived from R122, R123, R139, R140, R160. `pcAbove`
is the model's own, written as PcWritesAreThese says: log 22. -/
def Obligations.LogicalOperators : Prop :=
  (∀ (s : State) (ign : BitVec 16),
    exec (.bopLLand ign) s =
      .next { s with pc := s.pc + 1, pcAbove := s.advance.pcAbove, l := if s.l ≠ 0 ∧ s.r ≠ 0 then 1 else 0 } ∧
    exec (.bopRLand ign) s =
      .next { s with pc := s.pc + 1, pcAbove := s.advance.pcAbove, r := if s.l ≠ 0 ∧ s.r ≠ 0 then 1 else 0 } ∧
    exec (.bopLLor ign) s =
      .next { s with pc := s.pc + 1, pcAbove := s.advance.pcAbove, l := if s.l ≠ 0 ∨ s.r ≠ 0 then 1 else 0 } ∧
    exec (.bopRLor ign) s =
      .next { s with pc := s.pc + 1, pcAbove := s.advance.pcAbove, r := if s.l ≠ 0 ∨ s.r ≠ 0 then 1 else 0 }) ∧
    OprMap.default.binary .land = 0x26#8 ∧ OprMap.default.binary .lor = 0x27#8

/-- ADD, SUB and MUL are exact modulo 2^32 and never fault. Derived from R122, R123, R141, R142, R143, R160. `pcAbove` is the
model's own, written as PcWritesAreThese says: log 22. -/
def Obligations.AddSubMulOperators : Prop :=
  (∀ (s : State) (ign : BitVec 16),
    exec (.bopLAdd ign) s = .next { s with pc := s.pc + 1, pcAbove := s.advance.pcAbove, l := word (sint32 s.l + sint32 s.r) } ∧
    exec (.bopRAdd ign) s = .next { s with pc := s.pc + 1, pcAbove := s.advance.pcAbove, r := word (sint32 s.l + sint32 s.r) } ∧
    exec (.bopLSub ign) s = .next { s with pc := s.pc + 1, pcAbove := s.advance.pcAbove, l := word (sint32 s.l - sint32 s.r) } ∧
    exec (.bopRSub ign) s = .next { s with pc := s.pc + 1, pcAbove := s.advance.pcAbove, r := word (sint32 s.l - sint32 s.r) } ∧
    exec (.bopLMul ign) s = .next { s with pc := s.pc + 1, pcAbove := s.advance.pcAbove, l := word (sint32 s.l * sint32 s.r) } ∧
    exec (.bopRMul ign) s = .next { s with pc := s.pc + 1, pcAbove := s.advance.pcAbove, r := word (sint32 s.l * sint32 s.r) }) ∧
    (∀ a b : Word, opAdd a b = a + b ∧ opSub a b = a - b ∧ opMul a b = a * b) ∧
    opAdd 0x7FFFFFFF 1 = 0x80000000 ∧
    OprMap.default.binary .add = 0x30#8 ∧ OprMap.default.binary .sub = 0x31#8 ∧ OprMap.default.binary .mul = 0x32#8

/-- DIV and MOD truncate toward zero; a zero divisor faults DivideByZero with the instruction word. Derived from R122, R123,
R144, R145, R160, R191. `pcAbove` is the model's own, written as PcWritesAreThese says: log 22. The address PC names, and the
`pc0` of a record, is `pcAddr`: the model's choice, log 22. -/
def Obligations.DivModOperators : Prop :=
  (∀ (s : State) (ign : BitVec 16),
    (s.r ≠ 0 →
      exec (.bopLDiv ign) s =
        .next { s with pc := s.pc + 1, pcAbove := s.advance.pcAbove, l := word (Int.tdiv (sint32 s.l) (sint32 s.r)) } ∧
      exec (.bopRDiv ign) s =
        .next { s with pc := s.pc + 1, pcAbove := s.advance.pcAbove, r := word (Int.tdiv (sint32 s.l) (sint32 s.r)) } ∧
      exec (.bopLMod ign) s =
        .next { s with pc := s.pc + 1, pcAbove := s.advance.pcAbove, l := word (sint32 s.l - sint32 s.r * Int.tdiv (sint32 s.l) (sint32 s.r)) } ∧
      exec (.bopRMod ign) s =
        .next { s with pc := s.pc + 1, pcAbove := s.advance.pcAbove, r := word (sint32 s.l - sint32 s.r * Int.tdiv (sint32 s.l) (sint32 s.r)) }) ∧
    (s.r = 0 → ∀ w : Word,
      (decode s.cfg w = .ok (.bopLDiv ign) → exec (.bopLDiv ign) s = .next (faultRecord s s .divideByZero (.word w))) ∧
      (decode s.cfg w = .ok (.bopRDiv ign) → exec (.bopRDiv ign) s = .next (faultRecord s s .divideByZero (.word w))) ∧
      (decode s.cfg w = .ok (.bopLMod ign) → exec (.bopLMod ign) s = .next (faultRecord s s .divideByZero (.word w))) ∧
      (decode s.cfg w = .ok (.bopRMod ign) → exec (.bopRMod ign) s = .next (faultRecord s s .divideByZero (.word w))))) ∧
    (∀ (c : Config) (a b : Word), b ≠ 0 → ∃ q m : Word,
      binop c .div a b = .ok q ∧ binop c .mod a b = .ok m ∧ q * b + m = a ∧
        (m = 0 ∨ (sint32 m < 0 ↔ sint32 a < 0)) ∧ (sint32 m).natAbs < (sint32 b).natAbs) ∧
    word (Int.tdiv (sint32 0x80000000) (sint32 0xFFFFFFFF)) = 0x80000000 ∧
    OprMap.default.binary .div = 0x33#8 ∧ OprMap.default.binary .mod = 0x34#8

/-- POW under ExactWrap is the exact integer power wrapped; base 0 with a negative exponent faults. Derived from R122, R123,
R146, R160, R191. `pcAbove` is the model's own, written as PcWritesAreThese says: log 22. The address PC names, and the `pc0`
of a record, is `pcAddr`: the model's choice, log 22. -/
def Obligations.PowExactWrap : Prop :=
  ∀ (s : State) (ign : BitVec 16), s.cfg.powMode = .exactWrap →
    (∀ x, powExact (sint32 s.l) (sint32 s.r) = some x →
      exec (.bopLPow ign) s = .next { s with pc := s.pc + 1, pcAbove := s.advance.pcAbove, l := word x } ∧
      exec (.bopRPow ign) s = .next { s with pc := s.pc + 1, pcAbove := s.advance.pcAbove, r := word x }) ∧
    (powExact (sint32 s.l) (sint32 s.r) = none → ∀ w : Word,
      (decode s.cfg w = .ok (.bopLPow ign) → exec (.bopLPow ign) s = .next (faultRecord s s .divideByZero (.word w))) ∧
      (decode s.cfg w = .ok (.bopRPow ign) → exec (.bopRPow ign) s = .next (faultRecord s s .divideByZero (.word w))))

/-- POW under Float64 agrees with ExactWrap up to magnitude 2^53, is some value above, and keeps every other case (log 13).
Derived from R122, R123, R146, R160, R191, 93_implementation_defined.md row 15. `pcAbove` is the model's own, written as
PcWritesAreThese says: log 22. The address PC names, and the `pc0` of a record, is `pcAddr`: the model's choice, log 22. -/
def Obligations.PowFloat64 : Prop :=
  ∀ (s : State) (ign : BitVec 16), s.cfg.powMode = .float64 →
    (∀ x, powExact (sint32 s.l) (sint32 s.r) = some x → x.natAbs ≤ 2 ^ 53 →
      exec (.bopLPow ign) s = .next { s with pc := s.pc + 1, pcAbove := s.advance.pcAbove, l := word x } ∧
      exec (.bopRPow ign) s = .next { s with pc := s.pc + 1, pcAbove := s.advance.pcAbove, r := word x }) ∧
    (∀ x, powExact (sint32 s.l) (sint32 s.r) = some x → ∃ v : Word,
      exec (.bopLPow ign) s = .next { s with pc := s.pc + 1, pcAbove := s.advance.pcAbove, l := v } ∧
      exec (.bopRPow ign) s = .next { s with pc := s.pc + 1, pcAbove := s.advance.pcAbove, r := v }) ∧
    (powExact (sint32 s.l) (sint32 s.r) = none → ∀ w : Word,
      (decode s.cfg w = .ok (.bopLPow ign) → exec (.bopLPow ign) s = .next (faultRecord s s .divideByZero (.word w))) ∧
      (decode s.cfg w = .ok (.bopRPow ign) → exec (.bopRPow ign) s = .next (faultRecord s s .divideByZero (.word w))))

/-- NOP advances PC and changes nothing else, whatever its low 24 bits. Derived from R90, R160. `pcAbove` is the model's own,
written as PcWritesAreThese says: log 22. -/
def Obligations.NopOnlyAdvances : Prop :=
  (∀ v : BitVec 24, decode Config.default (0x00#8 ++ v) = .ok (.nop v)) ∧
    ∀ (s : State) (ign : BitVec 24), exec (.nop ign) s = .next { s with pc := s.pc + 1, pcAbove := s.advance.pcAbove }

/-- SWAP exchanges L and R and changes nothing else. Derived from R124, R160. `pcAbove` is the model's own, written as
PcWritesAreThese says: log 22. -/
def Obligations.SwapExchanges : Prop :=
  (∀ v : BitVec 24, decode Config.default (0x34#8 ++ v) = .ok (.swap v)) ∧
    ∀ (s : State) (ign ign' : BitVec 24),
      exec (.swap ign) s = .next { s with pc := s.pc + 1, pcAbove := s.advance.pcAbove, l := s.r, r := s.l } ∧
      (s.l = s.r → exec (.swap ign) s = .next { s with pc := s.pc + 1, pcAbove := s.advance.pcAbove }) ∧
      ∀ t u, exec (.swap ign) s = .next t → exec (.swap ign') t = .next u → u.l = s.l ∧ u.r = s.r

/-- BRL and BRR go to CODE_BASE + off on a nonzero L or R and fall through on zero; JMP always goes there. Derived from R161,
R162, R163, R164, R160. `pcAbove` is the model's own, written as PcWritesAreThese says: log 22. -/
def Obligations.BranchesAndJump : Prop :=
  (∀ v : BitVec 24, decode Config.default (0x40#8 ++ v) = .ok (.brl (sext24 v)) ∧
      decode Config.default (0x41#8 ++ v) = .ok (.brr (sext24 v)) ∧
      decode Config.default (0x42#8 ++ v) = .ok (.jmp (sext24 v))) ∧
    encode Config.default Instr.halt = 0x42FFFFFF ∧
    ∀ (s : State) (off : Int),
      (s.l ≠ 0 → exec (.brl off) s =
        .next { s with pc := word (s.cfg.codeBase + off), pcAbove := (s.goTo (s.cfg.codeBase + off)).pcAbove }) ∧
      (s.l = 0 → exec (.brl off) s = .next { s with pc := s.pc + 1, pcAbove := s.advance.pcAbove }) ∧
      (s.r ≠ 0 → exec (.brr off) s =
        .next { s with pc := word (s.cfg.codeBase + off), pcAbove := (s.goTo (s.cfg.codeBase + off)).pcAbove }) ∧
      (s.r = 0 → exec (.brr off) s = .next { s with pc := s.pc + 1, pcAbove := s.advance.pcAbove }) ∧
      exec (.jmp off) s = .next { s with pc := word (s.cfg.codeBase + off), pcAbove := (s.goTo (s.cfg.codeBase + off)).pcAbove }

/-- LDS.L, LDS.R, LDF.L, LDF.R load the word their address gives, plain or device (the list of replies is the model's own,
log 7). Derived from R91, R92, R94, R95, R102, R103, R43, R45. `pcAbove` is the model's own, written as PcWritesAreThese
says: log 22. -/
def Obligations.DirectLoads : Prop :=
  ∀ (s t : State) (off : Int) (w : Word),
    (ReadGives s (s.cfg.codeBase + off) w t →
      exec (.ldsL off) s = .next { t with pc := s.pc + 1, pcAbove := s.advance.pcAbove, l := w } ∧
      exec (.ldsR off) s = .next { t with pc := s.pc + 1, pcAbove := s.advance.pcAbove, r := w }) ∧
    (ReadGives s (sint32 s.spl + off) w t →
      exec (.ldfL off) s = .next { t with pc := s.pc + 1, pcAbove := s.advance.pcAbove, l := w } ∧
      exec (.ldfR off) s = .next { t with pc := s.pc + 1, pcAbove := s.advance.pcAbove, r := w })

/-- LDSI.* and LDFI.* load the word at the absolute address their pointer names (the list of replies is the model's own, log
7). Derived from R93, R98, R99, R106, R107, R43, R45, R52. `pcAbove` is the model's own, written as PcWritesAreThese says:
log 22. -/
def Obligations.IndirectLoads : Prop :=
  ∀ (s t u : State) (off : Int) (p w : Word), ReadGives t (sint32 p) w u →
    (ReadGives s (s.cfg.codeBase + off) p t →
      exec (.ldsiL off) s = .next { u with pc := s.pc + 1, pcAbove := s.advance.pcAbove, l := w } ∧
      exec (.ldsiR off) s = .next { u with pc := s.pc + 1, pcAbove := s.advance.pcAbove, r := w }) ∧
    (ReadGives s (sint32 s.spl + off) p t →
      exec (.ldfiL off) s = .next { u with pc := s.pc + 1, pcAbove := s.advance.pcAbove, l := w } ∧
      exec (.ldfiR off) s = .next { u with pc := s.pc + 1, pcAbove := s.advance.pcAbove, r := w })

/-- STS.L, STS.R, STF.L, STF.R store L or R at their address and nowhere else. Derived from R91, R92, R96, R97, R104, R105,
R44, R45. `pcAbove` is the model's own, written as PcWritesAreThese says: log 22. -/
def Obligations.DirectStores : Prop :=
  ∀ (s : State) (off : Int),
    (¬ s.OutsideAddr (s.cfg.codeBase + off) →
      (∃ t, exec (.stsL off) s = .next t ∧ StoreGives s (s.cfg.codeBase + off) s.l t) ∧
      (∃ t, exec (.stsR off) s = .next t ∧ StoreGives s (s.cfg.codeBase + off) s.r t)) ∧
    (¬ s.OutsideAddr (sint32 s.spl + off) →
      (∃ t, exec (.stfL off) s = .next t ∧ StoreGives s (sint32 s.spl + off) s.l t) ∧
      (∃ t, exec (.stfR off) s = .next t ∧ StoreGives s (sint32 s.spl + off) s.r t))

/-- STSI.* and STFI.* store L or R at the absolute address their pointer names and nowhere else (the list of replies is the
model's own, log 7). Derived from R93, R100, R101, R108, R109, R44, R45, R52. `pcAbove` is the model's own, written as
PcWritesAreThese says: log 22. -/
def Obligations.IndirectStores : Prop :=
  ∀ (s t : State) (off : Int) (p : Word), ¬ s.OutsideAddr (sint32 p) →
    (ReadGives s (s.cfg.codeBase + off) p t →
      (∃ u, exec (.stsiL off) s = .next u ∧ StoreGives t (sint32 p) s.l u) ∧
      (∃ u, exec (.stsiR off) s = .next u ∧ StoreGives t (sint32 p) s.r u)) ∧
    (ReadGives s (sint32 s.spl + off) p t →
      (∃ u, exec (.stfiL off) s = .next u ∧ StoreGives t (sint32 p) s.l u) ∧
      (∃ u, exec (.stfiR off) s = .next u ∧ StoreGives t (sint32 p) s.r u))

/-- A load, store or pointer read whose first access faults takes that fault and changes nothing else. Derived from R43, R44,
R94, R96, R98, R100, R102, R104, R106, R108, R193, R194. The address PC names, and the `pc0` of a record, is `pcAddr`: the
model's choice, log 22. -/
def Obligations.FirstAccessFaults : Prop :=
  ∀ (s : State) (off : Int),
    (∀ ρ, ReadFaults s (s.cfg.codeBase + off) ρ →
      exec (.ldsL off) s = .next (faultRecord s s ρ (.int (s.cfg.codeBase + off))) ∧
      exec (.ldsR off) s = .next (faultRecord s s ρ (.int (s.cfg.codeBase + off))) ∧
      exec (.ldsiL off) s = .next (faultRecord s s ρ (.int (s.cfg.codeBase + off))) ∧
      exec (.ldsiR off) s = .next (faultRecord s s ρ (.int (s.cfg.codeBase + off))) ∧
      exec (.stsiL off) s = .next (faultRecord s s ρ (.int (s.cfg.codeBase + off))) ∧
      exec (.stsiR off) s = .next (faultRecord s s ρ (.int (s.cfg.codeBase + off)))) ∧
    (∀ ρ, ReadFaults s (sint32 s.spl + off) ρ →
      exec (.ldfL off) s = .next (faultRecord s s ρ (.int (sint32 s.spl + off))) ∧
      exec (.ldfR off) s = .next (faultRecord s s ρ (.int (sint32 s.spl + off))) ∧
      exec (.ldfiL off) s = .next (faultRecord s s ρ (.int (sint32 s.spl + off))) ∧
      exec (.ldfiR off) s = .next (faultRecord s s ρ (.int (sint32 s.spl + off))) ∧
      exec (.stfiL off) s = .next (faultRecord s s ρ (.int (sint32 s.spl + off))) ∧
      exec (.stfiR off) s = .next (faultRecord s s ρ (.int (sint32 s.spl + off)))) ∧
    (s.OutsideAddr (s.cfg.codeBase + off) →
      exec (.stsL off) s = .next (faultRecord s s .addressOutOfRange (.int (s.cfg.codeBase + off))) ∧
      exec (.stsR off) s = .next (faultRecord s s .addressOutOfRange (.int (s.cfg.codeBase + off)))) ∧
    (s.OutsideAddr (sint32 s.spl + off) →
      exec (.stfL off) s = .next (faultRecord s s .addressOutOfRange (.int (sint32 s.spl + off))) ∧
      exec (.stfR off) s = .next (faultRecord s s .addressOutOfRange (.int (sint32 s.spl + off))))

/-- An indirect access that faults after its pointer read keeps that device read and nothing else (the reply it used stays
used, log 5). Derived from R93, R98, R100, R106, R108, R193, R194. The address PC names, and the `pc0` of a record, is
`pcAddr`: the model's choice, log 22. What a device read answers comes from the model's own list of replies: log 7. -/
def Obligations.SecondAccessFaults : Prop :=
  ∀ (s t : State) (off : Int) (p : Word),
    (ReadGives s (s.cfg.codeBase + off) p t →
      (∀ ρ, ReadFaults t (sint32 p) ρ →
        exec (.ldsiL off) s = .next (faultRecord s t ρ (.int (sint32 p))) ∧
        exec (.ldsiR off) s = .next (faultRecord s t ρ (.int (sint32 p)))) ∧
      (t.OutsideAddr (sint32 p) →
        exec (.stsiL off) s = .next (faultRecord s t .addressOutOfRange (.int (sint32 p))) ∧
        exec (.stsiR off) s = .next (faultRecord s t .addressOutOfRange (.int (sint32 p))))) ∧
    (ReadGives s (sint32 s.spl + off) p t →
      (∀ ρ, ReadFaults t (sint32 p) ρ →
        exec (.ldfiL off) s = .next (faultRecord s t ρ (.int (sint32 p))) ∧
        exec (.ldfiR off) s = .next (faultRecord s t ρ (.int (sint32 p)))) ∧
      (t.OutsideAddr (sint32 p) →
        exec (.stfiL off) s = .next (faultRecord s t .addressOutOfRange (.int (sint32 p))) ∧
        exec (.stfiR off) s = .next (faultRecord s t .addressOutOfRange (.int (sint32 p)))))

/-- A device read that is never answered leaves the instruction stuck (the model's named stop, log 7, 8). Derived from
70_reset_and_hazards.md R225, 93_implementation_defined.md row 4. -/
def Obligations.UnansweredReadsStick : Prop :=
  ∀ (s : State) (off : Int) (ign : BitVec 24),
    (ReadSticks s (s.cfg.codeBase + off) →
      exec (.ldsL off) s = .fault .deviceReadUnanswered ∧
      exec (.ldsR off) s = .fault .deviceReadUnanswered ∧
      exec (.ldsiL off) s = .fault .deviceReadUnanswered ∧
      exec (.ldsiR off) s = .fault .deviceReadUnanswered ∧
      exec (.stsiL off) s = .fault .deviceReadUnanswered ∧
      exec (.stsiR off) s = .fault .deviceReadUnanswered) ∧
    (ReadSticks s (sint32 s.spl + off) →
      exec (.ldfL off) s = .fault .deviceReadUnanswered ∧
      exec (.ldfR off) s = .fault .deviceReadUnanswered ∧
      exec (.ldfiL off) s = .fault .deviceReadUnanswered ∧
      exec (.ldfiR off) s = .fault .deviceReadUnanswered ∧
      exec (.stfiL off) s = .fault .deviceReadUnanswered ∧
      exec (.stfiR off) s = .fault .deviceReadUnanswered) ∧
    (∀ t p, ReadSticks t (sint32 p) →
      (ReadGives s (s.cfg.codeBase + off) p t → exec (.ldsiL off) s = .fault .deviceReadUnanswered ∧ exec (.ldsiR off) s = .fault .deviceReadUnanswered) ∧
      (ReadGives s (sint32 s.spl + off) p t → exec (.ldfiL off) s = .fault .deviceReadUnanswered ∧ exec (.ldfiR off) s = .fault .deviceReadUnanswered)) ∧
    (ReadSticks s (s.cfg.codeBase + off - 1) → exec (.call off) s = .fault .deviceReadUnanswered) ∧
    (ReadSticks s (sint32 s.spl) → exec (.ret ign) s = .fault .deviceReadUnanswered) ∧
    (∀ t v, ReadGives s (sint32 s.spl) v t → ReadSticks t (sint32 s.spl - 1) →
      exec (.ret ign) s = .fault .deviceReadUnanswered)

/-- CALL saves the return address and SPL, enters the frame and jumps (the list of replies is the model's own, log 7).
Derived from R165, R168, R169, R161. `pcAbove` is the model's own, written as PcWritesAreThese says: log 22. -/
def Obligations.CallEntersFrame : Prop :=
  ∀ (s u : State) (off : Int) (nw : Word), s.cfg.SizesValid → ReadGives s (s.cfg.codeBase + off - 1) nw u →
    0 ≤ sint32 nw → s.cfg.stackBase ≤ sint32 s.spr - 1 → sint32 s.spr + sint32 nw ≤ s.cfg.memSize →
    sint32 s.spr < s.cfg.memSize →
    ∃ t, exec (.call off) s = .next t ∧
      t = { u with pc := word (s.cfg.codeBase + off), pcAbove := (s.goTo (s.cfg.codeBase + off)).pcAbove, spl := s.spr, spr := word (sint32 s.spr + sint32 nw), mem := t.mem } ∧
      t.mem.read (sint32 s.spr - 1).toNat = some (s.pc + 1) ∧ t.mem.read (sint32 s.spr).toNat = some s.spl ∧
      ∀ b : Nat, b ≠ (sint32 s.spr - 1).toNat → b ≠ (sint32 s.spr).toNat → t.mem.read b = s.mem.read b

/-- CALL faults in the order of its checks and leaves every register and plain word as before (a reply it used stays used,
log 5). Derived from R165, R191, R193, R194. The address PC names, and the `pc0` of a record, is `pcAddr`: the model's
choice, log 22. What a device read answers comes from the model's own list of replies: log 7. -/
def Obligations.CallFaultsInOrder : Prop :=
  ∀ (s : State) (off : Int), s.cfg.SizesValid →
    (∀ ρ, ReadFaults s (s.cfg.codeBase + off - 1) ρ → exec (.call off) s = .next (faultRecord s s ρ (.int (s.cfg.codeBase + off - 1)))) ∧
    ∀ u nw, ReadGives s (s.cfg.codeBase + off - 1) nw u →
      (sint32 nw < 0 → exec (.call off) s = .next (faultRecord s u .badFrameSize (.word nw))) ∧
      (0 ≤ sint32 nw → sint32 s.spr - 1 < s.cfg.stackBase ∨ s.cfg.memSize < sint32 s.spr + sint32 nw →
        exec (.call off) s = .next (faultRecord s u .stackOverflow (.int (sint32 s.spr + sint32 nw)))) ∧
      (sint32 nw = 0 → sint32 s.spr = s.cfg.memSize → exec (.call off) s = .next (faultRecord s u .addressOutOfRange (.int (sint32 s.spr))))

/-- RET restores SPR, SPL and PC from the frame, or takes the fault of its first faulting read (log 5, 7). Derived from R166,
R171. `pcAbove` is the model's own, written as PcWritesAreThese says: log 22. The address PC names, and the `pc0` of a
record, is `pcAddr`: the model's choice, log 22. -/
def Obligations.ReturnRestoresCaller : Prop :=
  ∀ (s t u : State) (ign : BitVec 24) (saved ret : Word),
    (ReadGives s (sint32 s.spl) saved t → ReadGives t (sint32 s.spl - 1) ret u →
      exec (.ret ign) s = .next { u with pc := ret, pcAbove := false, spl := saved, spr := s.spl }) ∧
    (∀ ρ, ReadFaults s (sint32 s.spl) ρ →
      exec (.ret ign) s = .next (faultRecord s s ρ (.int (sint32 s.spl)))) ∧
    (∀ ρ, ReadGives s (sint32 s.spl) saved t → ReadFaults t (sint32 s.spl - 1) ρ →
      exec (.ret ign) s = .next (faultRecord s t ρ (.int (sint32 s.spl - 1))))

/-- A RET in the callee's frame, the two saved words still in place, undoes the CALL. Formalises R170. -/
def Obligations.CallThenReturnRestores : Prop :=
  ∀ (s t u : State) (off : Int) (ign : BitVec 24), s.cfg.SizesValid → s.status = .running →
    exec (.call off) s = .next t → t.status = .running →
    u.cfg = s.cfg → u.spl = s.spr →
    u.mem.read (sint32 s.spr).toNat = some s.spl → u.mem.read (sint32 s.spr - 1).toNat = some (s.pc + 1) →
    ∃ v, exec (.ret ign) u = .next v ∧ v.spl = s.spl ∧ v.spr = s.spr ∧ v.pc = s.pc + 1

/-- A step at a written plain word that decodes runs the decoded instruction (exec is given the state at the start of the
step, log 11). Derived from R160, R51, R67. The address PC names, and the `pc0` of a record, is `pcAddr`: the model's choice,
log 22. -/
def Obligations.StepRunsDecodedInstruction : Prop :=
  ∀ (s : State) (w : Word) (i : Instr), s.status = .running → s.Holds s.pcAddr w →
    decode s.cfg w = .ok i → step s = exec i s

/-- A step with PC below CODE_BASE halts the engine and changes nothing else (a PC that never wrapped, log 22). Derived from
R167, R77. -/
def Obligations.StepHaltsBelowCodeBase : Prop :=
  (∀ s : State, s.status = .running → s.pcAbove = false → sint32 s.pc < s.cfg.codeBase →
      step s = .next { s with status := .halted }) ∧
    (∀ (i : Instr) (s t : State), exec i s = .next t → t.status = .running → t.pcAddr < t.cfg.codeBase →
      step t = .next { t with status := .halted }) ∧
    ∀ s : State, s.cfg.SizesValid → s.status = .running → ∃ t, exec Instr.halt s = .next t ∧
      t.pcAbove = false ∧ sint32 t.pc = s.cfg.codeBase - 1 ∧ step t = .next { t with status := .halted }

/-- A fetch outside the space or of an unwritten word, and a word that does not decode, fault with their records. Derived
from R160, R68, R69, R191, R194, R43. The address PC names, and the `pc0` of a record, is `pcAddr`: the model's choice, log
22. -/
def Obligations.FetchAndDecodeFaults : Prop :=
  ∀ s : State, s.status = .running →
    (s.cfg.memSize ≤ s.pcAddr → s.cfg.codeBase ≤ s.pcAddr →
      step s = .next (faultRecord s s .addressOutOfRange (.int s.pcAddr))) ∧
    (s.Unwritten s.pcAddr → step s = .next (faultRecord s s .uninitializedRead (.int s.pcAddr))) ∧
    ∀ w, s.Holds s.pcAddr w →
      (decode s.cfg w = .error .illegalOpcode → step s = .next (faultRecord s s .illegalOpcode (.word w))) ∧
      (decode s.cfg w = .error .illegalOperator → step s = .next (faultRecord s s .illegalOperator (.word w)))

/-- A halted or faulted engine never changes again (a step of it answers the same state: log 6). Derived from R31, R197,
R204, R224. -/
def Obligations.StoppedEngineNeverChanges : Prop :=
  ∀ (k : Nat) (s : State), s.status ≠ .running → Host.Core.run Sys2Proof.core k s = .next s

/-- A step that faults leaves PC, L, R, SPL, SPR and plain memory as they were and keeps the device access made before the
fault. Derived from R193, R52, R160. `pcAbove` is the model's own, written as PcWritesAreThese says: log 22. The address PC
names, and the `pc0` of a record, is `pcAddr`: the model's choice, log 22. What a device read answers comes from the model's
own list of replies: log 7. -/
def Obligations.FaultsArePrecise : Prop :=
  ∀ (s t : State) (ρ : Reason) (p : Int) (info : Info), s.status = .running → step s = .next t →
    t.status = .faulted ρ p info →
    p = s.pcAddr ∧ t = faultRecord s t ρ info ∧ t.pc = s.pc ∧ t.pcAbove = s.pcAbove ∧ t.l = s.l ∧ t.r = s.r ∧
      t.spl = s.spl ∧ t.spr = s.spr ∧ t.mem = s.mem ∧
      (s.cfg.SizesValid →
        (∀ i a v u, s.Runs i → s.leadingRead i = some a → ReadGives s a v u → t.deviceHistory = u.deviceHistory) ∧
        ((∀ i a v u, s.Runs i → s.leadingRead i = some a → ¬ ReadGives s a v u) → t.deviceHistory = s.deviceHistory))

/-- Every fault a step takes has the cause and the info that the table of R191 gives its reason (the types of the info, log
17). Derived from R191, R192, R194. The address PC names, and the `pc0` of a record, is `pcAddr`: the model's choice, log 22.
What a device read answers comes from the model's own list of replies: log 7. -/
def Obligations.FaultsHaveOnlyTheirCauses : Prop :=
  ∀ (s t : State) (ρ : Reason) (p : Int) (info : Info), s.status = .running → step s = .next t →
    t.status = .faulted ρ p info →
    match ρ with
    | .illegalOpcode =>
      ∃ w, s.Holds s.pcAddr w ∧ info = .word w ∧ decode s.cfg w = .error .illegalOpcode
    | .illegalOperator =>
      ∃ w, s.Holds s.pcAddr w ∧ info = .word w ∧ decode s.cfg w = .error .illegalOperator
    | .addressOutOfRange =>
      ∃ a, info = .int a ∧ s.OutsideAddr a ∧ (a = s.pcAddr ∨ ∃ i, s.Runs i ∧ (s.ReadsAt i a ∨ s.WritesAt i a))
    | .uninitializedRead =>
      ∃ a, info = .int a ∧ s.Unwritten a ∧ (a = s.pcAddr ∨ ∃ i, s.Runs i ∧ s.ReadsAt i a)
    | .divideByZero =>
      ∃ w o ign, s.Holds s.pcAddr w ∧ info = .word w ∧
        (decode s.cfg w = .ok (Instr.bopL o ign) ∨ decode s.cfg w = .ok (Instr.bopR o ign)) ∧
        ((o = .div ∨ o = .mod) ∧ s.r = 0 ∨ o = .pow ∧ s.l = 0 ∧ sint32 s.r < 0)
    | .stackOverflow =>
      ∃ off nw u, s.Runs (.call off) ∧ ReadGives s (s.cfg.codeBase + off - 1) nw u ∧
        info = .int (sint32 s.spr + sint32 nw) ∧ 0 ≤ sint32 nw ∧
        (sint32 s.spr - 1 < s.cfg.stackBase ∨ s.cfg.memSize < sint32 s.spr + sint32 nw)
    | .badFrameSize =>
      ∃ off nw u, s.Runs (.call off) ∧ ReadGives s (s.cfg.codeBase + off - 1) nw u ∧ info = .word nw ∧ sint32 nw < 0
    | .shiftCount =>
      ∃ w o ign, s.Holds s.pcAddr w ∧ info = .word w ∧
        (decode s.cfg w = .ok (Instr.bopL o ign) ∨ decode s.cfg w = .ok (Instr.bopR o ign)) ∧
        (o = .shr ∨ o = .shl) ∧ s.cfg.shiftCount = .fault ∧ (sint32 s.r < 0 ∨ 31 < sint32 s.r)

/-- No instruction and no step is refused, and a step stops only on a device read never answered (the model's stop, log 7,
8). Derived from R67, R198, R225. -/
def Obligations.NoStepRefused : Prop :=
  ∀ (s : State) (r : Refusal) (f : Fault),
    step s ≠ .refused r ∧ (∀ i, exec i s ≠ .refused r) ∧
      (step s = .fault f ∨ (∃ i, exec i s = .fault f) → f = .deviceReadUnanswered ∧ .silent ∈ s.deviceReplies)

/-- A word placed where the next step fetches is the instruction that step runs (the model's own placement, log 14). Derived
from R51, R160, 70_reset_and_hazards.md R221. -/
def Obligations.FetchWordIsRunNext : Prop :=
  ∀ (s : State) (w : Nat) (i : Instr), s.cfg.SizesValid → decode s.cfg (BitVec.ofNat 32 w) = .ok i →
    step (s.withFetchWord 32 w) = exec i (s.withFetchWord 32 w)

/-- A store into the next word is seen by the very next fetch. Derived from R51, R227, R96. The address PC names, and the
`pc0` of a record, is `pcAddr`: the model's choice, log 22. -/
def Obligations.StoredInstructionIsFetchedNext : Prop :=
  ∀ (s : State) (off : Int), s.cfg.SizesValid → s.status = .running → s.PlainAddr s.pcAddr →
    s.cfg.codeBase + off = s.pcAddr + 1 → s.pcAddr + 1 < s.cfg.memSize →
    ∃ t, exec (.stsL off) s = .next t ∧ t.Holds t.pcAddr s.l ∧
      ∀ i, decode s.cfg s.l = .ok i → step t = exec i t

/-- PC is read as sint32(PC), but as its 32 bits where it was set to 2^31 or more; the increment and a transfer set it so
(log 22). Derived from R10, R24, R160. -/
def Obligations.PcWritesAreThese : Prop :=
  ∀ s : State,
    (s.pcAbove = false → s.pcAddr = sint32 s.pc) ∧ (s.pcAbove = true → s.pcAddr = uint32 s.pc) ∧
      s.advance = { s with pc := s.pc + 1, pcAbove := decide (2 ^ 31 ≤ s.pcAddr + 1) } ∧
      ∀ a : Int, s.goTo a = { s with pc := word a, pcAbove := decide (2 ^ 31 ≤ a) }

/-- PC never wraps: it goes to the next address or to CODE_BASE + off itself, and an address at or above MEM_SIZE faults at
the fetch (log 22). Derived from R25, R161, R160. -/
def Obligations.PcNeverWraps : Prop :=
  (∀ s : State, s.cfg.SizesValid → s.PlainAddr s.pcAddr →
      (∀ ign, ∃ t, exec (.nop ign) s = .next t ∧ t.pc = s.pc + 1 ∧ t.pcAddr = s.pcAddr + 1) ∧
      ∀ (i : Instr) (off : Int) (t : State), i ∈ [.brl off, .brr off, .jmp off, .call off] → WellFormed i →
        s.status = .running → exec i s = .next t → t.status = .running →
        t.pcAddr = s.cfg.codeBase + off ∨
          t.pcAddr = s.pcAddr + 1 ∧ (i = .brl off ∧ s.l = 0 ∨ i = .brr off ∧ s.r = 0)) ∧
    ∀ s : State, s.cfg.SizesValid → s.status = .running → s.cfg.memSize ≤ s.pcAddr →
      step s = .next (faultRecord s s .addressOutOfRange (.int s.pcAddr))

/-- With MEM_SIZE below 2^31 and CODE_BASE at most 2^31 - 2^23, as by default, the address PC names is always sint32(PC) (log
22). Derived from R24, R25, R7. -/
def Obligations.PcIsPlainlyReadBelowTheTop : Prop :=
  ∀ s t : State, s.cfg.SizesValid → s.cfg.memSize < 2 ^ 31 → s.cfg.codeBase + 2 ^ 23 ≤ 2 ^ 31 → s.pcAbove = false →
    step s = .next t → t.pcAbove = false ∧ t.pcAddr = sint32 t.pc

/-- Every step keeps memory canonical and plain, device accesses below CODE_BASE, the status true of PC, and PC unwrapped
(log 22). Derived from R33, R42, R45, R53, R167, R193. -/
def Obligations.StepKeepsInvariant : Prop :=
  ∀ s t : State, s.Inv → step s = .next t → t.Inv

/-- The invariant holds at reset (the device history empty, log 9). Derived from R20, R33, R42, R220. -/
def Obligations.ResetMeetsInvariant : Prop :=
  State.reset.Inv

/-- The invariant holds at the start of every run (the device history empty, log 9). Derived from R33, R42, R220, R221. -/
def Obligations.StartMeetsInvariant : Prop :=
  ∀ (c : Config) (replies : List DeviceReply) (words : List Word) (s : State), c.SizesValid →
    State.start c replies words = .next s → s.Inv

/-- run(words) starts with PC at CODE_BASE, L = R = 0, SPL and SPR at the stack base, Running, the image loaded and all else
unwritten. Formalises R20. -/
def Obligations.RunStartsInResetState : Prop :=
  (∀ (c : Config) (replies : List DeviceReply) (words : List Word), words.length ≤ c.stackBase - c.codeBase →
    ∃ s, State.start c replies words = .next s ∧ s.pc = word c.codeBase ∧ s.l = 0 ∧ s.r = 0 ∧
      s.spl = word c.stackBase ∧ s.spr = word (c.stackBase + c.sprInitOffset) ∧ s.status = .running ∧
      (∀ i, s.mem.read (c.codeBase + i) = words[i]?) ∧ (∀ a, a < c.codeBase → s.mem.read a = none)) ∧
    State.reset.pc = 0x00800000 ∧ State.reset.l = 0 ∧ State.reset.r = 0 ∧ State.reset.spl = 0x00810000 ∧
      State.reset.spr = 0x00810001 ∧ State.reset.status = .running ∧ ∀ a, State.reset.mem.read a = none

/-- A run starts with no device access made, the given replies and parameters, PC unwrapped (the model's own fields and
choice, log 1, 7, 9, 22). Derived from R220, R225. -/
def Obligations.RunStartsWithNoDeviceAccess : Prop :=
  (∀ (c : Config) (replies : List DeviceReply) (words : List Word) (s : State),
    State.start c replies words = .next s → s.deviceHistory = [] ∧ s.deviceReplies = replies ∧ s.cfg = c ∧ s.pcAbove = false) ∧
    State.start Config.default [] [] = .next State.reset

/-- An image longer than STACK_BASE - CODE_BASE words is refused; the empty image is accepted and its first fetch faults (the
refusal imageTooLong, log 15). Derived from R220, R221. The address PC names, and the `pc0` of a record, is `pcAddr`: the
model's choice, log 22. -/
def Obligations.LongImageIsRefused : Prop :=
  ∀ (c : Config) (replies : List DeviceReply),
    (∀ words : List Word, c.stackBase - c.codeBase < words.length →
      State.start c replies words = .refused .imageTooLong) ∧
    (c.SizesValid → ∃ s, State.start c replies [] = .next s ∧
      step s = .next (faultRecord s s .uninitializedRead (.int c.codeBase)))

/-- No step changes a parameter of the engine (the State field cfg, log 1). Derived from R15, R30. -/
def Obligations.StepKeepsParameters : Prop :=
  (∀ s t : State, step s = .next t → t.cfg = s.cfg) ∧ ∀ (i : Instr) (s t : State), exec i s = .next t → t.cfg = s.cfg

/-- A step adds at most two device accesses to the history and never takes one away. Derived from R45, R49, R52, R193. -/
def Obligations.DeviceHistoryOnlyGrows : Prop :=
  ∀ s t : State, s.cfg.SizesValid → step s = .next t →
    ∃ accesses, t.deviceHistory = s.deviceHistory ++ accesses ∧ accesses.length ≤ 2 ∧
      (∀ e ∈ accesses, eventAddress e < s.cfg.codeBase) ∧ (s.status ≠ .running → accesses = [])

/-- No instruction but CALL and RET changes SPL or SPR. Derived from R26, R27. -/
def Obligations.OnlyCallAndReturnMoveTheStack : Prop :=
  ∀ (i : Instr) (s t : State), i.op ≠ .call → i.op ≠ .ret → exec i s = .next t → t.spl = s.spl ∧ t.spr = s.spr

/-- L and R are written only by the instructions R21 and R22 name. Derived from R21, R22. -/
def Obligations.OnlyNamedInstructionsWriteWorkingRegisters : Prop :=
  ∀ (i : Instr) (s t : State), exec i s = .next t →
    (i.op ∉ [.ldsL, .ldsiL, .ldfL, .ldfiL, .uopL, .bopL, .swap] → t.l = s.l) ∧
    (i.op ∉ [.ldsR, .ldsiR, .ldfR, .ldfiR, .uopR, .bopR, .swap] → t.r = s.r)

/-- Plain memory is written only by stores and CALL; NOP, operators, SWAP, branches and JMP touch no device. Derived from
R52, R44. -/
def Obligations.OnlyStoresAndCallWriteMemory : Prop :=
  ∀ (i : Instr) (s t : State), exec i s = .next t →
    (i.op ∉ [.stsL, .stsR, .stsiL, .stsiR, .stfL, .stfR, .stfiL, .stfiR, .call] → t.mem = s.mem) ∧
    (i.op ∈ [.nop, .uopL, .uopR, .bopL, .bopR, .swap, .brl, .brr, .jmp] →
      t.deviceHistory = s.deviceHistory ∧ t.deviceReplies = s.deviceReplies)

/-- PC goes to the next word, to CODE_BASE + off for a transfer, or to the word RET reads at SPL - 1, or stays on a fault
(log 7, 22). Derived from R24, R160, R161, R166, R171. -/
def Obligations.PcAdvancesOrTransfers : Prop :=
  ∀ (i : Instr) (s t : State), exec i s = .next t →
    (∃ ρ info, t.status = .faulted ρ s.pcAddr info ∧ t.pc = s.pc ∧ t.pcAbove = s.pcAbove) ∨
      (t.status = s.status ∧
        ((t.pc = s.pc + 1 ∧ t.pcAbove = s.advance.pcAbove ∧ i.op ∉ [.jmp, .call, .ret]) ∨
          (∃ off, i.offset? = some off ∧ i.op ∈ [.brl, .brr, .jmp, .call] ∧ t.pc = word (s.cfg.codeBase + off) ∧
            t.pcAbove = (s.goTo (s.cfg.codeBase + off)).pcAbove) ∨
          (i.op = .ret ∧ ∃ saved u v, ReadGives s (sint32 s.spl) saved u ∧ ReadGives u (sint32 s.spl - 1) t.pc v ∧
            t.pcAbove = false)))

/-- A written plain word never becomes unwritten, and a word that changes is one the instruction of the step writes. Derived
from R33, R43, R44, R52. What a device read answers comes from the model's own list of replies: log 7. -/
def Obligations.WrittenWordsStayWritten : Prop :=
  ∀ (s t : State) (a : Nat), step s = .next t →
    (s.mem.read a ≠ none → t.mem.read a ≠ none) ∧
      (t.mem.read a ≠ s.mem.read a → ∃ i, s.Runs i ∧ s.WritesAt i a)

/-- MemRead of a plain address gives the word last written there by MemWrite, and other words are untouched. Derived from
R43, R44, R49. -/
def Obligations.PlainWordReadsBackAsWritten : Prop :=
  ∀ (s : State) (a : Int) (v : Word), s.PlainAddr a →
    ∃ t, memWrite a v s = .ok () t ∧ memRead a t = .ok v t ∧
      ∀ b w, s.PlainAddr b → b ≠ a → memRead b s = .ok w s → memRead b t = .ok w t

/-- A device read gives the collaborator's word and a device write hands one over; each is one event of the history (the list
of replies is the model's own, log 7). Derived from R44, R45. -/
def Obligations.DeviceAccessesAreRecorded : Prop :=
  ∀ (s : State) (a : Int) (v : Word), s.DeviceAddr a →
    (∀ w, s.Answers a.toNat w →
      memRead a s = .ok w { s with
        deviceHistory := s.deviceHistory ++ [.read a.toNat w], deviceReplies := s.deviceReplies.tail }) ∧
    memWrite a v s = .ok () { s with deviceHistory := s.deviceHistory ++ [.write a.toNat v] }

/-- The assembler emits one word for each instruction, data word and HALT, and none for a tag (the assembler on parsed lines,
log 18). Derived from R75, R76, R77. -/
def Obligations.AssembledLengthCountsOnlyWords : Prop :=
  ∀ (c : Config) (program : List AsmLine),
    (∀ ws, assemble c program = some ws → ws.length = (program.map AsmLine.size).sum) ∧
    (∀ v, AsmLine.data v ∈ program → v < -2 ^ 31 ∨ 2 ^ 32 ≤ v → assemble c program = none)
end

