-- ==== Sys2Proof/Laws/Encoding.lean ====
section
/-! SUPPORT. Laws of the maps and of the fields of an encoded word. -/

namespace Sys2Proof

theorem Op.mem_all (o : Op) : o ∈ Op.all := by cases o <;> simp [Op.all]

theorem UnOp.mem_all (u : UnOp) : u ∈ UnOp.all := by cases u <;> simp [UnOp.all]

theorem BinOp.mem_all (b : BinOp) : b ∈ BinOp.all := by cases b <;> simp [BinOp.all]

/-- The opcode `OPMAP^-1` gives has the code asked for. -/
theorem Config.code_of_opOf? {c : Config} {x : BitVec 8} {o : Op} (h : c.opOf? x = some o) : c.opmap.code o = x := by
  simpa using List.find?_some h

theorem Config.unary_of_unOpOf? {c : Config} {x : BitVec 8} {u : UnOp} (h : c.unOpOf? x = some u) :
    c.oprmap.unary u = x := by
  simpa using List.find?_some h

theorem Config.binary_of_binOpOf? {c : Config} {x : BitVec 8} {b : BinOp} (h : c.binOpOf? x = some b) :
    c.oprmap.binary b = x := by
  simpa using List.find?_some h

/-- No opcode is found exactly where no opcode has the code. -/
theorem Config.opOf?_eq_none {c : Config} {x : BitVec 8} : c.opOf? x = none ↔ ∀ o, c.opmap.code o ≠ x := by
  simp [Config.opOf?, Op.mem_all]

theorem Config.unOpOf?_eq_none {c : Config} {x : BitVec 8} : c.unOpOf? x = none ↔ ∀ u, c.oprmap.unary u ≠ x := by
  simp [Config.unOpOf?, UnOp.mem_all]

theorem Config.binOpOf?_eq_none {c : Config} {x : BitVec 8} : c.binOpOf? x = none ↔ ∀ b, c.oprmap.binary b ≠ x := by
  simp [Config.binOpOf?, BinOp.mem_all]

/-- A list without repeats under a map: the map is injective on it. -/
theorem inj_of_nodup_map {α β : Type} {f : α → β} {l : List α} (h : (l.map f).Nodup) {x y : α} (hx : x ∈ l) (hy : y ∈ l)
    (e : f x = f y) : x = y := by
  exact List.inj_on_of_nodup_map h hx hy e

theorem Config.code_injective {c : Config} (h : c.OpmapValid) {o o' : Op} (e : c.opmap.code o = c.opmap.code o') :
    o = o' := inj_of_nodup_map h.1 o.mem_all o'.mem_all e

theorem Config.unary_injective {c : Config} (h : c.OprmapValid) {u u' : UnOp}
    (e : c.oprmap.unary u = c.oprmap.unary u') : u = u' :=
  inj_of_nodup_map (List.nodup_append.1 h.1).1 u.mem_all u'.mem_all e

theorem Config.binary_injective {c : Config} (h : c.OprmapValid) {b b' : BinOp}
    (e : c.oprmap.binary b = c.oprmap.binary b') : b = b' :=
  inj_of_nodup_map (List.nodup_append.1 h.1).2.1 b.mem_all b'.mem_all e

/-- No code stands for a unary and a binary operator. -/
theorem Config.unary_ne_binary {c : Config} (h : c.OprmapValid) (u : UnOp) (b : BinOp) :
    c.oprmap.unary u ≠ c.oprmap.binary b :=
  (List.nodup_append.1 h.1).2.2 _ (List.mem_map_of_mem u.mem_all) _ (List.mem_map_of_mem b.mem_all)

/-- Under an injective map the opcode found is the one whose code it is. -/
theorem Config.opOf?_code {c : Config} (h : c.OpmapValid) (o : Op) : c.opOf? (c.opmap.code o) = some o := by
  cases e : c.opOf? (c.opmap.code o) with
  | none => exact absurd rfl (Config.opOf?_eq_none.1 e o)
  | some o' => rw [Config.code_injective h (Config.code_of_opOf? e)]

theorem Config.unOpOf?_unary {c : Config} (h : c.OprmapValid) (u : UnOp) : c.unOpOf? (c.oprmap.unary u) = some u := by
  cases e : c.unOpOf? (c.oprmap.unary u) with
  | none => exact absurd rfl (Config.unOpOf?_eq_none.1 e u)
  | some u' => rw [Config.unary_injective h (Config.unary_of_unOpOf? e)]

theorem Config.binOpOf?_binary {c : Config} (h : c.OprmapValid) (b : BinOp) :
    c.binOpOf? (c.oprmap.binary b) = some b := by
  cases e : c.binOpOf? (c.oprmap.binary b) with
  | none => exact absurd rfl (Config.binOpOf?_eq_none.1 e b)
  | some b' => rw [Config.binary_injective h (Config.binary_of_binOpOf? e)]

/-! ### The fields of a word put together -/

theorem extract_append_hi {n m : Nat} (x : BitVec n) (y : BitVec m) : (x ++ y).extractLsb' m n = x := by
  ext i hi
  simp [BitVec.getLsbD_append, hi]

theorem extract_append_lo {n m : Nat} (x : BitVec n) (y : BitVec m) : (x ++ y).extractLsb' 0 m = y := by
  ext i hi
  simp [BitVec.getLsbD_append, hi]

theorem extract_append_hi_hi {n m k : Nat} (x : BitVec n) (y : BitVec m) (z : BitVec k) :
    (x ++ y ++ z).extractLsb' (m + k) n = x := by
  ext i hi
  simp [BitVec.getLsbD_append, hi, show ¬ m + k + i < k by omega, show m + k + i - k = m + i by omega]

theorem extract_append_hi_lo {n m k : Nat} (x : BitVec n) (y : BitVec m) (z : BitVec k) :
    (x ++ y ++ z).extractLsb' k m = y := by
  ext i hi
  simp [BitVec.getLsbD_append, hi]

@[simp] theorem opcodeField_encodeN (c : Config) (o : Op) (g : BitVec 24) :
    opcodeField (encodeN c o g) = c.opmap.code o := extract_append_hi (c.opmap.code o) g

@[simp] theorem opcodeField_encodeO (c : Config) (o : Op) (off : Int) :
    opcodeField (encodeO c o off) = c.opmap.code o := extract_append_hi (c.opmap.code o) (BitVec.ofInt 24 off)

@[simp] theorem opcodeField_encodeP (c : Config) (o : Op) (x : BitVec 8) (g : BitVec 16) :
    opcodeField (encodeP c o x g) = c.opmap.code o := extract_append_hi_hi (c.opmap.code o) x g

@[simp] theorem low24_encodeN (c : Config) (o : Op) (g : BitVec 24) : low24 (encodeN c o g) = g :=
  extract_append_lo (c.opmap.code o) g

@[simp] theorem low24_encodeO (c : Config) (o : Op) (off : Int) : low24 (encodeO c o off) = BitVec.ofInt 24 off :=
  extract_append_lo (c.opmap.code o) (BitVec.ofInt 24 off)

@[simp] theorem operatorField_encodeP (c : Config) (o : Op) (x : BitVec 8) (g : BitVec 16) :
    operatorField (encodeP c o x g) = x := extract_append_hi_lo (c.opmap.code o) x g

@[simp] theorem low16_encodeP (c : Config) (o : Op) (x : BitVec 8) (g : BitVec 16) : low16 (encodeP c o x g) = g :=
  extract_append_lo (c.opmap.code o ++ x) g

end Sys2Proof
end

