-- ==== Sys2Proof/Laws/Memory.lean ====
section
/-! SUPPORT. Laws of plain memory: a read after a write, the canonical form kept, and what an image holds. -/

namespace Sys2Proof.Machine

@[simp] theorem Memory.read_nil (a : Nat) : Memory.read [] a = none := rfl

theorem Memory.read_cons (k a : Nat) (w : Word) (m : Memory) :
    Memory.read ((k, w) :: m) a = if a = k then some w else Memory.read m a := rfl

/-- The word just written is the word read. -/
@[simp] theorem Memory.read_write_same (m : Memory) (a : Nat) (v : Word) : (m.write a v).read a = some v := by
  induction m with
  | nil => simp [Memory.write, Memory.read_cons]
  | cons p m ih =>
    obtain ⟨k, w⟩ := p
    simp only [Memory.write]
    split
    · simp [Memory.read_cons]
    · split
      · simp [Memory.read_cons]
      · rw [Memory.read_cons, if_neg ‹_›, ih]

/-- A write leaves every other address alone. -/
theorem Memory.read_write_other (m : Memory) (a b : Nat) (v : Word) (h : b ≠ a) : (m.write a v).read b = m.read b := by
  induction m with
  | nil => simp [Memory.write, Memory.read_cons, h]
  | cons p m ih =>
    obtain ⟨k, w⟩ := p
    simp only [Memory.write]
    split
    · simp [Memory.read_cons, h]
    · split
      · subst_vars
        simp [Memory.read_cons, h]
      · simp [Memory.read_cons, ih]

theorem Memory.read_write (m : Memory) (a b : Nat) (v : Word) :
    (m.write a v).read b = if b = a then some v else m.read b := by
  split
  · subst_vars
    exact Memory.read_write_same ..
  · exact Memory.read_write_other _ _ _ _ ‹_›

/-- Every entry after a write is the written one or an old one. -/
theorem Memory.mem_write (m : Memory) (a : Nat) (v : Word) (p : Nat × Word) (h : p ∈ m.write a v) :
    p = (a, v) ∨ p ∈ m := by
  induction m with
  | nil => simpa [Memory.write] using h
  | cons q m ih =>
    obtain ⟨k, w⟩ := q
    simp only [Memory.write] at h
    split at h
    · simpa using h
    · split at h
      · rcases List.mem_cons.1 h with h | h
        · exact .inl h
        · exact .inr (List.mem_cons_of_mem _ h)
      · rcases List.mem_cons.1 h with h | h
        · exact .inr (h ▸ List.mem_cons_self)
        · exact (ih h).imp_right (List.mem_cons_of_mem _)

/-- A write keeps the canonical form. -/
theorem Memory.write_wf (m : Memory) (a : Nat) (v : Word) (h : m.wf) : (m.write a v).wf := by
  induction m with
  | nil => simp [Memory.write]
  | cons p m ih =>
    obtain ⟨k, w⟩ := p
    obtain ⟨hk, hm⟩ := List.pairwise_cons.1 h
    simp only [Memory.write]
    split
    · refine List.pairwise_cons.2 ⟨fun q hq => ?_, h⟩
      rcases List.mem_cons.1 hq with rfl | hq
      · assumption
      · exact Nat.lt_trans ‹_› (hk q hq)
    · split
      · subst_vars
        exact List.pairwise_cons.2 ⟨hk, hm⟩
      · refine List.pairwise_cons.2 ⟨fun q hq => ?_, ih hm⟩
        rcases Memory.mem_write m a v q hq with rfl | hq
        · simp only
          omega
        · exact hk q hq

/-- Every address of an image lies in the range it was placed in. -/
theorem Memory.mem_image (ws : List Word) (a : Nat) (p : Nat × Word) (h : p ∈ Memory.image a ws) :
    a ≤ p.1 ∧ p.1 < a + ws.length := by
  induction ws generalizing a with
  | nil => simp [Memory.image] at h
  | cons w ws ih =>
    simp only [Memory.image, List.mem_cons] at h
    simp only [List.length_cons]
    rcases h with rfl | h
    · simp only
      omega
    · have := ih (a + 1) h
      omega

/-- An image is in canonical form. -/
theorem Memory.image_wf (ws : List Word) (a : Nat) : (Memory.image a ws).wf := by
  induction ws generalizing a with
  | nil => simp [Memory.image]
  | cons w ws ih =>
    refine List.pairwise_cons.2 ⟨fun q hq => ?_, ih (a + 1)⟩
    have := Memory.mem_image ws (a + 1) q hq
    simp only
    omega

/-- An image holds its words one after another from its address, and nothing else. -/
theorem Memory.read_image (ws : List Word) (a b : Nat) :
    (Memory.image a ws).read b = if a ≤ b then ws[b - a]? else none := by
  induction ws generalizing a with
  | nil => simp [Memory.image]
  | cons w ws ih =>
    simp only [Memory.image, Memory.read_cons, ih]
    rcases Nat.lt_trichotomy b a with h | rfl | h
    · simp [show ¬ a ≤ b by omega, show ¬ a + 1 ≤ b by omega, show b ≠ a by omega]
    · simp
    · obtain ⟨d, rfl⟩ : ∃ d, b = a + 1 + d := ⟨b - a - 1, by omega⟩
      simp [show a + 1 + d - a = d + 1 by omega, show a + 1 + d ≠ a by omega, show a ≤ a + 1 + d by omega]

end Sys2Proof.Machine
end

