-- ==== Sys2Proof/Laws/State.lean ====
section
/-! SUPPORT. One lemma for each field of the state under each update, and under the two shared updates made of them. -/

namespace Sys2Proof.Machine

@[simp] theorem setPc_pc (s : State) (w : Word) : (s.setPc w).pc = w := rfl
@[simp] theorem setPc_pcAbove (s : State) (w : Word) : (s.setPc w).pcAbove = false := rfl
@[simp] theorem setPc_l (s : State) (w : Word) : (s.setPc w).l = s.l := rfl
@[simp] theorem setPc_r (s : State) (w : Word) : (s.setPc w).r = s.r := rfl
@[simp] theorem setPc_spl (s : State) (w : Word) : (s.setPc w).spl = s.spl := rfl
@[simp] theorem setPc_spr (s : State) (w : Word) : (s.setPc w).spr = s.spr := rfl
@[simp] theorem setPc_status (s : State) (w : Word) : (s.setPc w).status = s.status := rfl
@[simp] theorem setPc_mem (s : State) (w : Word) : (s.setPc w).mem = s.mem := rfl
@[simp] theorem setPc_deviceHistory (s : State) (w : Word) : (s.setPc w).deviceHistory = s.deviceHistory := rfl
@[simp] theorem setPc_deviceReplies (s : State) (w : Word) : (s.setPc w).deviceReplies = s.deviceReplies := rfl
@[simp] theorem setPc_cfg (s : State) (w : Word) : (s.setPc w).cfg = s.cfg := rfl

@[simp] theorem goTo_pc (s : State) (a : Int) : (s.goTo a).pc = word a := rfl
@[simp] theorem goTo_pcAbove (s : State) (a : Int) : (s.goTo a).pcAbove = decide (0x80000000 ≤ a) := rfl
@[simp] theorem goTo_l (s : State) (a : Int) : (s.goTo a).l = s.l := rfl
@[simp] theorem goTo_r (s : State) (a : Int) : (s.goTo a).r = s.r := rfl
@[simp] theorem goTo_spl (s : State) (a : Int) : (s.goTo a).spl = s.spl := rfl
@[simp] theorem goTo_spr (s : State) (a : Int) : (s.goTo a).spr = s.spr := rfl
@[simp] theorem goTo_status (s : State) (a : Int) : (s.goTo a).status = s.status := rfl
@[simp] theorem goTo_mem (s : State) (a : Int) : (s.goTo a).mem = s.mem := rfl
@[simp] theorem goTo_deviceHistory (s : State) (a : Int) : (s.goTo a).deviceHistory = s.deviceHistory := rfl
@[simp] theorem goTo_deviceReplies (s : State) (a : Int) : (s.goTo a).deviceReplies = s.deviceReplies := rfl
@[simp] theorem goTo_cfg (s : State) (a : Int) : (s.goTo a).cfg = s.cfg := rfl

@[simp] theorem setL_pc (s : State) (w : Word) : (s.setL w).pc = s.pc := rfl
@[simp] theorem setL_pcAbove (s : State) (w : Word) : (s.setL w).pcAbove = s.pcAbove := rfl
@[simp] theorem setL_l (s : State) (w : Word) : (s.setL w).l = w := rfl
@[simp] theorem setL_r (s : State) (w : Word) : (s.setL w).r = s.r := rfl
@[simp] theorem setL_spl (s : State) (w : Word) : (s.setL w).spl = s.spl := rfl
@[simp] theorem setL_spr (s : State) (w : Word) : (s.setL w).spr = s.spr := rfl
@[simp] theorem setL_status (s : State) (w : Word) : (s.setL w).status = s.status := rfl
@[simp] theorem setL_mem (s : State) (w : Word) : (s.setL w).mem = s.mem := rfl
@[simp] theorem setL_deviceHistory (s : State) (w : Word) : (s.setL w).deviceHistory = s.deviceHistory := rfl
@[simp] theorem setL_deviceReplies (s : State) (w : Word) : (s.setL w).deviceReplies = s.deviceReplies := rfl
@[simp] theorem setL_cfg (s : State) (w : Word) : (s.setL w).cfg = s.cfg := rfl

@[simp] theorem setR_pc (s : State) (w : Word) : (s.setR w).pc = s.pc := rfl
@[simp] theorem setR_pcAbove (s : State) (w : Word) : (s.setR w).pcAbove = s.pcAbove := rfl
@[simp] theorem setR_l (s : State) (w : Word) : (s.setR w).l = s.l := rfl
@[simp] theorem setR_r (s : State) (w : Word) : (s.setR w).r = w := rfl
@[simp] theorem setR_spl (s : State) (w : Word) : (s.setR w).spl = s.spl := rfl
@[simp] theorem setR_spr (s : State) (w : Word) : (s.setR w).spr = s.spr := rfl
@[simp] theorem setR_status (s : State) (w : Word) : (s.setR w).status = s.status := rfl
@[simp] theorem setR_mem (s : State) (w : Word) : (s.setR w).mem = s.mem := rfl
@[simp] theorem setR_deviceHistory (s : State) (w : Word) : (s.setR w).deviceHistory = s.deviceHistory := rfl
@[simp] theorem setR_deviceReplies (s : State) (w : Word) : (s.setR w).deviceReplies = s.deviceReplies := rfl
@[simp] theorem setR_cfg (s : State) (w : Word) : (s.setR w).cfg = s.cfg := rfl

@[simp] theorem setSpl_pc (s : State) (w : Word) : (s.setSpl w).pc = s.pc := rfl
@[simp] theorem setSpl_pcAbove (s : State) (w : Word) : (s.setSpl w).pcAbove = s.pcAbove := rfl
@[simp] theorem setSpl_l (s : State) (w : Word) : (s.setSpl w).l = s.l := rfl
@[simp] theorem setSpl_r (s : State) (w : Word) : (s.setSpl w).r = s.r := rfl
@[simp] theorem setSpl_spl (s : State) (w : Word) : (s.setSpl w).spl = w := rfl
@[simp] theorem setSpl_spr (s : State) (w : Word) : (s.setSpl w).spr = s.spr := rfl
@[simp] theorem setSpl_status (s : State) (w : Word) : (s.setSpl w).status = s.status := rfl
@[simp] theorem setSpl_mem (s : State) (w : Word) : (s.setSpl w).mem = s.mem := rfl
@[simp] theorem setSpl_deviceHistory (s : State) (w : Word) : (s.setSpl w).deviceHistory = s.deviceHistory := rfl
@[simp] theorem setSpl_deviceReplies (s : State) (w : Word) : (s.setSpl w).deviceReplies = s.deviceReplies := rfl
@[simp] theorem setSpl_cfg (s : State) (w : Word) : (s.setSpl w).cfg = s.cfg := rfl

@[simp] theorem setSpr_pc (s : State) (w : Word) : (s.setSpr w).pc = s.pc := rfl
@[simp] theorem setSpr_pcAbove (s : State) (w : Word) : (s.setSpr w).pcAbove = s.pcAbove := rfl
@[simp] theorem setSpr_l (s : State) (w : Word) : (s.setSpr w).l = s.l := rfl
@[simp] theorem setSpr_r (s : State) (w : Word) : (s.setSpr w).r = s.r := rfl
@[simp] theorem setSpr_spl (s : State) (w : Word) : (s.setSpr w).spl = s.spl := rfl
@[simp] theorem setSpr_spr (s : State) (w : Word) : (s.setSpr w).spr = w := rfl
@[simp] theorem setSpr_status (s : State) (w : Word) : (s.setSpr w).status = s.status := rfl
@[simp] theorem setSpr_mem (s : State) (w : Word) : (s.setSpr w).mem = s.mem := rfl
@[simp] theorem setSpr_deviceHistory (s : State) (w : Word) : (s.setSpr w).deviceHistory = s.deviceHistory := rfl
@[simp] theorem setSpr_deviceReplies (s : State) (w : Word) : (s.setSpr w).deviceReplies = s.deviceReplies := rfl
@[simp] theorem setSpr_cfg (s : State) (w : Word) : (s.setSpr w).cfg = s.cfg := rfl

@[simp] theorem setStatus_pc (s : State) (x : Status) : (s.setStatus x).pc = s.pc := rfl
@[simp] theorem setStatus_pcAbove (s : State) (x : Status) : (s.setStatus x).pcAbove = s.pcAbove := rfl
@[simp] theorem setStatus_l (s : State) (x : Status) : (s.setStatus x).l = s.l := rfl
@[simp] theorem setStatus_r (s : State) (x : Status) : (s.setStatus x).r = s.r := rfl
@[simp] theorem setStatus_spl (s : State) (x : Status) : (s.setStatus x).spl = s.spl := rfl
@[simp] theorem setStatus_spr (s : State) (x : Status) : (s.setStatus x).spr = s.spr := rfl
@[simp] theorem setStatus_status (s : State) (x : Status) : (s.setStatus x).status = x := rfl
@[simp] theorem setStatus_mem (s : State) (x : Status) : (s.setStatus x).mem = s.mem := rfl
@[simp] theorem setStatus_deviceHistory (s : State) (x : Status) : (s.setStatus x).deviceHistory = s.deviceHistory := rfl
@[simp] theorem setStatus_deviceReplies (s : State) (x : Status) : (s.setStatus x).deviceReplies = s.deviceReplies := rfl
@[simp] theorem setStatus_cfg (s : State) (x : Status) : (s.setStatus x).cfg = s.cfg := rfl

@[simp] theorem setMem_pc (s : State) (m : Memory) : (s.setMem m).pc = s.pc := rfl
@[simp] theorem setMem_pcAbove (s : State) (m : Memory) : (s.setMem m).pcAbove = s.pcAbove := rfl
@[simp] theorem setMem_l (s : State) (m : Memory) : (s.setMem m).l = s.l := rfl
@[simp] theorem setMem_r (s : State) (m : Memory) : (s.setMem m).r = s.r := rfl
@[simp] theorem setMem_spl (s : State) (m : Memory) : (s.setMem m).spl = s.spl := rfl
@[simp] theorem setMem_spr (s : State) (m : Memory) : (s.setMem m).spr = s.spr := rfl
@[simp] theorem setMem_status (s : State) (m : Memory) : (s.setMem m).status = s.status := rfl
@[simp] theorem setMem_mem (s : State) (m : Memory) : (s.setMem m).mem = m := rfl
@[simp] theorem setMem_deviceHistory (s : State) (m : Memory) : (s.setMem m).deviceHistory = s.deviceHistory := rfl
@[simp] theorem setMem_deviceReplies (s : State) (m : Memory) : (s.setMem m).deviceReplies = s.deviceReplies := rfl
@[simp] theorem setMem_cfg (s : State) (m : Memory) : (s.setMem m).cfg = s.cfg := rfl

@[simp] theorem setDevice_pc (s : State) (h : List DeviceEvent) (q : List DeviceReply) : (s.setDevice h q).pc = s.pc := rfl
@[simp] theorem setDevice_pcAbove (s : State) (h : List DeviceEvent) (q : List DeviceReply) : (s.setDevice h q).pcAbove = s.pcAbove := rfl
@[simp] theorem setDevice_l (s : State) (h : List DeviceEvent) (q : List DeviceReply) : (s.setDevice h q).l = s.l := rfl
@[simp] theorem setDevice_r (s : State) (h : List DeviceEvent) (q : List DeviceReply) : (s.setDevice h q).r = s.r := rfl
@[simp] theorem setDevice_spl (s : State) (h : List DeviceEvent) (q : List DeviceReply) : (s.setDevice h q).spl = s.spl := rfl
@[simp] theorem setDevice_spr (s : State) (h : List DeviceEvent) (q : List DeviceReply) : (s.setDevice h q).spr = s.spr := rfl
@[simp] theorem setDevice_status (s : State) (h : List DeviceEvent) (q : List DeviceReply) : (s.setDevice h q).status = s.status := rfl
@[simp] theorem setDevice_mem (s : State) (h : List DeviceEvent) (q : List DeviceReply) : (s.setDevice h q).mem = s.mem := rfl
@[simp] theorem setDevice_deviceHistory (s : State) (h : List DeviceEvent) (q : List DeviceReply) : (s.setDevice h q).deviceHistory = h := rfl
@[simp] theorem setDevice_deviceReplies (s : State) (h : List DeviceEvent) (q : List DeviceReply) : (s.setDevice h q).deviceReplies = q := rfl
@[simp] theorem setDevice_cfg (s : State) (h : List DeviceEvent) (q : List DeviceReply) : (s.setDevice h q).cfg = s.cfg := rfl

/-- `word(pc0 + 1)` is the word after PC's, whichever way PC is read (R160). -/
@[simp] theorem advance_pc (s : State) : s.advance.pc = s.pc + 1 := by
  show word (s.pcAddr + 1) = s.pc + 1
  unfold State.pcAddr
  split <;> simp [word, BitVec.ofInt_add]

@[simp] theorem advance_pcAbove (s : State) : s.advance.pcAbove = decide (0x80000000 ≤ s.pcAddr + 1) := rfl
@[simp] theorem advance_l (s : State) : s.advance.l = s.l := rfl
@[simp] theorem advance_r (s : State) : s.advance.r = s.r := rfl
@[simp] theorem advance_spl (s : State) : s.advance.spl = s.spl := rfl
@[simp] theorem advance_spr (s : State) : s.advance.spr = s.spr := rfl
@[simp] theorem advance_status (s : State) : s.advance.status = s.status := rfl
@[simp] theorem advance_mem (s : State) : s.advance.mem = s.mem := rfl
@[simp] theorem advance_deviceHistory (s : State) : s.advance.deviceHistory = s.deviceHistory := rfl
@[simp] theorem advance_deviceReplies (s : State) : s.advance.deviceReplies = s.deviceReplies := rfl
@[simp] theorem advance_cfg (s : State) : s.advance.cfg = s.cfg := rfl

@[simp] theorem takeFault_pc (s t : State) (ρ : Reason) (i : Info) : (takeFault s t ρ i).pc = s.pc := rfl
@[simp] theorem takeFault_pcAbove (s t : State) (ρ : Reason) (i : Info) : (takeFault s t ρ i).pcAbove = s.pcAbove := rfl
@[simp] theorem takeFault_l (s t : State) (ρ : Reason) (i : Info) : (takeFault s t ρ i).l = s.l := rfl
@[simp] theorem takeFault_r (s t : State) (ρ : Reason) (i : Info) : (takeFault s t ρ i).r = s.r := rfl
@[simp] theorem takeFault_spl (s t : State) (ρ : Reason) (i : Info) : (takeFault s t ρ i).spl = s.spl := rfl
@[simp] theorem takeFault_spr (s t : State) (ρ : Reason) (i : Info) : (takeFault s t ρ i).spr = s.spr := rfl
@[simp] theorem takeFault_status (s t : State) (ρ : Reason) (i : Info) : (takeFault s t ρ i).status = .faulted ρ s.pcAddr i := rfl
@[simp] theorem takeFault_mem (s t : State) (ρ : Reason) (i : Info) : (takeFault s t ρ i).mem = s.mem := rfl
@[simp] theorem takeFault_deviceHistory (s t : State) (ρ : Reason) (i : Info) : (takeFault s t ρ i).deviceHistory = t.deviceHistory := rfl
@[simp] theorem takeFault_deviceReplies (s t : State) (ρ : Reason) (i : Info) : (takeFault s t ρ i).deviceReplies = t.deviceReplies := rfl
@[simp] theorem takeFault_cfg (s t : State) (ρ : Reason) (i : Info) : (takeFault s t ρ i).cfg = s.cfg := rfl

@[simp] theorem halt_pc (s : State) : (halt s).pc = s.pc := rfl
@[simp] theorem halt_pcAbove (s : State) : (halt s).pcAbove = s.pcAbove := rfl
@[simp] theorem halt_l (s : State) : (halt s).l = s.l := rfl
@[simp] theorem halt_r (s : State) : (halt s).r = s.r := rfl
@[simp] theorem halt_spl (s : State) : (halt s).spl = s.spl := rfl
@[simp] theorem halt_spr (s : State) : (halt s).spr = s.spr := rfl
@[simp] theorem halt_status (s : State) : (halt s).status = .halted := rfl
@[simp] theorem halt_mem (s : State) : (halt s).mem = s.mem := rfl
@[simp] theorem halt_deviceHistory (s : State) : (halt s).deviceHistory = s.deviceHistory := rfl
@[simp] theorem halt_deviceReplies (s : State) : (halt s).deviceReplies = s.deviceReplies := rfl
@[simp] theorem halt_cfg (s : State) : (halt s).cfg = s.cfg := rfl

/-! ### The address PC names -/

theorem pcAddr_eq_sint32 {s : State} (h : s.pcAbove = false) : s.pcAddr = sint32 s.pc := by
  unfold State.pcAddr
  rw [h]
  rfl

theorem pcAddr_eq_uint32 {s : State} (h : s.pcAbove = true) : s.pcAddr = uint32 s.pc := by
  unfold State.pcAddr
  rw [h]
  rfl

@[simp] theorem setPc_pcAddr (s : State) (w : Word) : (s.setPc w).pcAddr = sint32 w := rfl

/-- A write of PC does not wrap, for every address a transfer or an increment of R7's sizes can name (R25). -/
theorem goTo_pcAddr {s : State} {a : Int} (h₁ : -2147483648 ≤ a) (h₂ : a < 4294967296) : (s.goTo a).pcAddr = a := by
  by_cases h : 2147483648 ≤ a
  · rw [pcAddr_eq_uint32 (by simpa using h)]
    show ((BitVec.ofInt 32 a).toNat : Int) = a
    rw [BitVec.toNat_ofInt]
    omega
  · rw [pcAddr_eq_sint32 (by simpa using h)]
    show (BitVec.ofInt 32 a).toInt = a
    rw [BitVec.toInt_ofInt]
    exact Int.bmod_eq_of_le (by omega) (by omega)

/-- The increment as the statements write it. -/
theorem advance_eq (s : State) : s.advance = { s with pc := s.pc + 1, pcAbove := s.advance.pcAbove } := by
  rw [← advance_pc]
  rfl

/-- The increment of PC does not wrap (R25). -/
theorem advance_pcAddr {s : State} (h₁ : -2147483649 ≤ s.pcAddr) (h₂ : s.pcAddr < 4294967295) :
    s.advance.pcAddr = s.pcAddr + 1 := goTo_pcAddr (by omega) (by omega)

@[simp] theorem setL_pcAddr (s : State) (w : Word) : (s.setL w).pcAddr = s.pcAddr := rfl
@[simp] theorem setR_pcAddr (s : State) (w : Word) : (s.setR w).pcAddr = s.pcAddr := rfl
@[simp] theorem setSpl_pcAddr (s : State) (w : Word) : (s.setSpl w).pcAddr = s.pcAddr := rfl
@[simp] theorem setSpr_pcAddr (s : State) (w : Word) : (s.setSpr w).pcAddr = s.pcAddr := rfl
@[simp] theorem setStatus_pcAddr (s : State) (x : Status) : (s.setStatus x).pcAddr = s.pcAddr := rfl
@[simp] theorem setMem_pcAddr (s : State) (m : Memory) : (s.setMem m).pcAddr = s.pcAddr := rfl
@[simp] theorem setDevice_pcAddr (s : State) (h : List DeviceEvent) (q : List DeviceReply) : (s.setDevice h q).pcAddr = s.pcAddr := rfl
@[simp] theorem takeFault_pcAddr (s t : State) (ρ : Reason) (i : Info) : (takeFault s t ρ i).pcAddr = s.pcAddr := rfl
@[simp] theorem halt_pcAddr (s : State) : (halt s).pcAddr = s.pcAddr := rfl

end Sys2Proof.Machine
end

