-- ==== Sys2Proof/Laws/Ops.lean ====
section
/-! SUPPORT. What each shared operation can do, said once: the memory port, the end of an instruction, the loads and
stores, call and return, the front half of a step. -/

namespace Sys2Proof.Machine

/-! ### Parts of an instruction -/

@[simp] theorem Res.bind_ok {α β : Type} (a : α) (s : State) (k : α → State → Res β) : (Res.ok a s).bind k = k a s := rfl

@[simp] theorem Res.bind_raised {α β : Type} (ρ : Reason) (i : Info) (s : State) (k : α → State → Res β) :
    (Res.raised ρ i s).bind k = .raised ρ i s := rfl

@[simp] theorem Res.bind_stuck {α β : Type} (f : Fault) (k : α → State → Res β) : (Res.stuck f).bind k = .stuck f := rfl

/-- A sequence completes only if both parts do. -/
theorem Res.bind_eq_ok {α β : Type} {x : Res α} {k : α → State → Res β} {b : β} {t : State} (h : x.bind k = .ok b t) :
    ∃ a u, x = .ok a u ∧ k a u = .ok b t := by
  cases x with
  | ok a u => exact ⟨a, u, rfl, h⟩
  | raised => cases h
  | stuck => cases h

/-- A sequence raises what its first part raises, or what its second part raises after the first completed. -/
theorem Res.bind_eq_raised {α β : Type} {x : Res α} {k : α → State → Res β} {ρ : Reason} {i : Info} {t : State}
    (h : x.bind k = .raised ρ i t) : x = .raised ρ i t ∨ ∃ a u, x = .ok a u ∧ k a u = .raised ρ i t := by
  cases x with
  | ok a u => exact .inr ⟨a, u, rfl, h⟩
  | raised => cases h; exact .inl rfl
  | stuck => cases h

/-- A sequence is stuck where one of its parts is. -/
theorem Res.bind_eq_stuck {α β : Type} {x : Res α} {k : α → State → Res β} {f : Fault}
    (h : x.bind k = .stuck f) : x = .stuck f ∨ ∃ a u, x = .ok a u ∧ k a u = .stuck f := by
  cases x with
  | ok a u => exact .inr ⟨a, u, rfl, h⟩
  | raised => cases h
  | stuck => cases h; exact .inl rfl

@[simp] theorem conclude_ok (s t : State) : conclude s (.ok () t) = .next t := rfl

@[simp] theorem conclude_raised (s t : State) (ρ : Reason) (i : Info) :
    conclude s (.raised ρ i t) = .next (takeFault s t ρ i) := rfl

@[simp] theorem conclude_stuck (s : State) (f : Fault) : conclude s (.stuck f) = .fault f := rfl

/-- An instruction that ends in a next state completed, or took the fault it raised. -/
theorem conclude_eq_next {s t : State} {x : Res Unit} (h : conclude s x = .next t) :
    x = .ok () t ∨ ∃ ρ i u, x = .raised ρ i u ∧ t = takeFault s u ρ i := by
  cases x with
  | ok a u => cases h; exact .inl rfl
  | raised ρ i u => cases h; exact .inr ⟨ρ, i, u, rfl, rfl⟩
  | stuck => cases h

/-- No instruction is refused. -/
theorem conclude_ne_refused (s : State) (x : Res Unit) (r : Refusal) : conclude s x ≠ .refused r := by
  cases x <;> simp [conclude]

/-- Taking a fault, as the statements write it. -/
theorem takeFault_eq (s t : State) (ρ : Reason) (i : Info) : takeFault s t ρ i = faultRecord s t ρ i := rfl

/-! ### The memory port -/

/-- The three kinds of address (R41, R42): an address that is neither outside nor a device's is plain. -/
theorem State.plainAddr_of_not {s : State} {a : Int} (h₁ : ¬ s.OutsideAddr a) (h₂ : ¬ a < s.cfg.codeBase) :
    s.PlainAddr a := by
  simp only [State.OutsideAddr, State.PlainAddr] at *
  omega

theorem State.deviceAddr_of_not {s : State} {a : Int} (h₁ : ¬ s.OutsideAddr a) (h₂ : a < s.cfg.codeBase) :
    s.DeviceAddr a := by
  simp only [State.OutsideAddr, State.DeviceAddr] at *
  omega

/-- A device read that is answered records the access and uses up one reply. -/
theorem deviceRead_eq_ok {a : Nat} {s t : State} {w : Word} (h : deviceRead a s = .ok w t) :
    s.Answers a w ∧ t = s.setDevice (s.deviceHistory ++ [.read a w]) s.deviceReplies.tail := by
  unfold deviceRead at h
  unfold State.Answers
  split at h <;> simp_all <;> grind

/-- A device read raises no fault of the engine. -/
theorem deviceRead_ne_raised (a : Nat) (s t : State) (ρ : Reason) (i : Info) : deviceRead a s ≠ .raised ρ i t := by
  unfold deviceRead
  split <;> simp

/-- A device read is stuck only on a reply of silence. -/
theorem deviceRead_eq_stuck {a : Nat} {s : State} {f : Fault} (h : deviceRead a s = .stuck f) :
    s.deviceReplies.head? = some .silent := by
  unfold deviceRead at h
  split at h <;> simp_all

/-- A device read that is answered (`State.Answers`) completes. -/
theorem deviceRead_of_answers {a : Nat} {s : State} {w : Word} (h : s.Answers a w) :
    deviceRead a s = .ok w (s.setDevice (s.deviceHistory ++ [.read a w]) s.deviceReplies.tail) := by
  unfold deviceRead
  unfold State.Answers at h
  split <;> simp_all

/-- Everything a completed read can be. -/
theorem memRead_eq_ok {a : Int} {s t : State} {w : Word} (h : memRead a s = .ok w t) : ReadGives s a w t := by
  unfold memRead at h
  split at h
  · cases h
  · split at h
    · obtain ⟨h₁, h₂⟩ := deviceRead_eq_ok h
      exact .inr ⟨State.deviceAddr_of_not ‹_› ‹_›, h₁, h₂⟩
    · split at h
      · cases h
        exact .inl ⟨⟨State.plainAddr_of_not ‹_› ‹_›, by assumption⟩, rfl⟩
      · cases h

/-- A read as the statements describe it is what the port does. -/
theorem memRead_of_gives {a : Int} {s t : State} {w : Word} (h : ReadGives s a w t) : memRead a s = .ok w t := by
  unfold memRead
  rcases h with ⟨⟨⟨h₁, h₂⟩, h₃⟩, rfl⟩ | ⟨⟨h₁, h₂, h₃⟩, h₄, rfl⟩
  · rw [if_neg (by simp only [State.OutsideAddr]; omega), if_neg (by omega), h₃]
  · rw [if_neg (by simp only [State.OutsideAddr]; omega), if_pos h₂, deviceRead_of_answers h₄]
    rfl

/-- Everything a read that raises a fault can be. -/
theorem memRead_eq_raised {a : Int} {s t : State} {ρ : Reason} {i : Info} (h : memRead a s = .raised ρ i t) :
    ReadFaults s a ρ ∧ i = .int a ∧ t = s := by
  unfold memRead at h
  split at h
  · cases h
    exact ⟨.inl ⟨‹_›, rfl⟩, rfl, rfl⟩
  · split at h
    · exact absurd h (deviceRead_ne_raised _ _ _ _ _)
    · split at h
      · cases h
      · cases h
        exact ⟨.inr ⟨⟨State.plainAddr_of_not ‹_› ‹_›, by assumption⟩, rfl⟩, rfl, rfl⟩

theorem memRead_of_faults {a : Int} {s : State} {ρ : Reason} (h : ReadFaults s a ρ) :
    memRead a s = .raised ρ (.int a) s := by
  unfold memRead
  rcases h with ⟨h₁, rfl⟩ | ⟨⟨⟨h₁, h₂⟩, h₃⟩, rfl⟩
  · rw [if_pos h₁]
  · rw [if_neg (by simp only [State.OutsideAddr]; omega), if_neg (by omega), h₃]

/-- A read is stuck only in device space, on a reply of silence. -/
theorem memRead_eq_stuck {a : Int} {s : State} {f : Fault} (h : memRead a s = .stuck f) : ReadSticks s a := by
  unfold memRead at h
  split at h
  · cases h
  · split at h
    · exact ⟨State.deviceAddr_of_not ‹_› ‹_›, deviceRead_eq_stuck h⟩
    · split at h <;> cases h

theorem memRead_of_sticks {a : Int} {s : State} (h : ReadSticks s a) : memRead a s = .stuck .deviceReadUnanswered := by
  obtain ⟨⟨h₁, h₂, h₃⟩, h₄⟩ := h
  unfold memRead deviceRead
  rw [if_neg (by simp only [State.OutsideAddr]; omega), if_pos h₂]
  split <;> simp_all

/-- Everything a completed write can be. -/
theorem memWrite_eq_ok {a : Int} {v : Word} {s t : State} (h : memWrite a v s = .ok () t) :
    (s.PlainAddr a ∧ t = s.setMem (s.mem.write a.toNat v)) ∨ (s.DeviceAddr a ∧ t = deviceWrite a.toNat v s) := by
  unfold memWrite at h
  split at h
  · cases h
  · split at h
    · cases h
      exact .inr ⟨State.deviceAddr_of_not ‹_› ‹_›, rfl⟩
    · cases h
      exact .inl ⟨State.plainAddr_of_not ‹_› ‹_›, rfl⟩

theorem memWrite_plain {a : Int} {v : Word} {s : State} (h : s.PlainAddr a) :
    memWrite a v s = .ok () (s.setMem (s.mem.write a.toNat v)) := by
  unfold memWrite
  rw [if_neg (by simp only [State.OutsideAddr]; omega), if_neg (by omega)]

theorem memWrite_device {a : Int} {v : Word} {s : State} (h : s.DeviceAddr a) :
    memWrite a v s = .ok () (deviceWrite a.toNat v s) := by
  obtain ⟨h₁, h₂, h₃⟩ := h
  unfold memWrite
  rw [if_neg (by simp only [State.OutsideAddr]; omega), if_pos h₂]

/-- Everything a write that raises a fault can be. -/
theorem memWrite_eq_raised {a : Int} {v : Word} {s t : State} {ρ : Reason} {i : Info}
    (h : memWrite a v s = .raised ρ i t) : s.OutsideAddr a ∧ ρ = .addressOutOfRange ∧ i = .int a ∧ t = s := by
  unfold memWrite at h
  split at h
  · cases h
    exact ⟨‹_›, rfl, rfl, rfl⟩
  · split at h <;> cases h

theorem memWrite_outside {a : Int} {v : Word} {s : State} (h : s.OutsideAddr a) :
    memWrite a v s = .raised .addressOutOfRange (.int a) s := by
  unfold memWrite
  rw [if_pos h]

/-- A write is never stuck. -/
theorem memWrite_ne_stuck (a : Int) (v : Word) (s : State) (f : Fault) : memWrite a v s ≠ .stuck f := by
  unfold memWrite
  split
  · simp
  · split <;> simp

/-- Every address is of one of the three kinds (R41, R42). -/
theorem State.addr_cases (s : State) (a : Int) : s.OutsideAddr a ∨ s.DeviceAddr a ∨ s.PlainAddr a := by
  simp only [State.OutsideAddr, State.DeviceAddr, State.PlainAddr]
  omega

/-! ### What a part leaves unchanged -/

/-- A read changes no register, no plain word, no status and no parameter; the device history grows by at most one. -/
theorem ReadGives.frame {s t : State} {a : Int} {w : Word} (h : ReadGives s a w t) :
    t.pc = s.pc ∧ t.pcAbove = s.pcAbove ∧ t.l = s.l ∧ t.r = s.r ∧ t.spl = s.spl ∧ t.spr = s.spr ∧ t.status = s.status ∧ t.mem = s.mem ∧
      t.cfg = s.cfg ∧ (t.deviceHistory = s.deviceHistory ∨
        (s.DeviceAddr a ∧ t.deviceHistory = s.deviceHistory ++ [.read a.toNat w])) := by
  rcases h with ⟨-, rfl⟩ | ⟨h, -, rfl⟩
  · simp
  · exact ⟨rfl, rfl, rfl, rfl, rfl, rfl, rfl, rfl, rfl, .inr ⟨h, rfl⟩⟩

/-- A write changes one plain word, or records one device write; nothing else. -/
theorem memWrite_frame {a : Int} {v : Word} {s t : State} (h : memWrite a v s = .ok () t) :
    t.pc = s.pc ∧ t.pcAbove = s.pcAbove ∧ t.l = s.l ∧ t.r = s.r ∧ t.spl = s.spl ∧ t.spr = s.spr ∧ t.status = s.status ∧ t.cfg = s.cfg ∧
      t.deviceReplies = s.deviceReplies ∧
      ((s.PlainAddr a ∧ t.mem = s.mem.write a.toNat v ∧ t.deviceHistory = s.deviceHistory) ∨
        (s.DeviceAddr a ∧ t.mem = s.mem ∧ t.deviceHistory = s.deviceHistory ++ [.write a.toNat v])) := by
  rcases memWrite_eq_ok h with ⟨ha, rfl⟩ | ⟨ha, rfl⟩
  · exact ⟨rfl, rfl, rfl, rfl, rfl, rfl, rfl, rfl, rfl, .inl ⟨ha, rfl, rfl⟩⟩
  · exact ⟨rfl, rfl, rfl, rfl, rfl, rfl, rfl, rfl, rfl, .inr ⟨ha, rfl, rfl⟩⟩

/-! ### The operator unit -/

/-- The faults of the operator unit (R125, R191), and under which operands. -/
theorem binop_eq_error {c : Config} {o : BinOp} {a b : Word} {ρ : Reason} (h : binop c o a b = .error ρ) :
    (ρ = .shiftCount ∧ (o = .shr ∨ o = .shl) ∧ c.shiftCount = .fault ∧ (sint32 b < 0 ∨ 31 < sint32 b)) ∨
      (ρ = .divideByZero ∧
        ((o = .div ∨ o = .mod) ∧ sint32 b = 0 ∨ o = .pow ∧ sint32 a = 0 ∧ sint32 b < 0)) := by
  cases o <;> simp only [binop, reduceCtorEq] at h
  case shr =>
    cases hc : c.shiftCount with
    | mask5 => simp [opShr, shiftAmount, hc] at h
    | fault =>
      simp [opShr, shiftAmount, hc] at h
      grind
  case shl =>
    cases hc : c.shiftCount with
    | mask5 => simp [opShl, shiftAmount, hc] at h
    | fault =>
      simp [opShl, shiftAmount, hc] at h
      grind
  case div =>
    simp [opDiv] at h
    grind
  case mod =>
    simp [opMod] at h
    grind
  case pow =>
    simp only [opPow] at h
    grind

/-! ### The front half of a step -/

/-- A completed fetch and decode: PC named a plain word that was written, the word decodes, and nothing changed. -/
theorem fetchDecode_eq_ok {s t : State} {i : Instr} (hb : belowCode s = false) (h : fetchDecode s = .ok i t) :
    t = s ∧ ∃ w, s.Holds s.pcAddr w ∧ decode s.cfg w = .ok i := by
  obtain ⟨w, u, h₁, h₂⟩ := Res.bind_eq_ok h
  have hb : ¬ s.pcAddr < s.cfg.codeBase := by simpa [belowCode] using hb
  rcases memRead_eq_ok h₁ with ⟨h₃, rfl⟩ | ⟨⟨-, h₃, -⟩, -⟩
  · unfold decodeWord at h₂
    split at h₂
    · cases h₂
      exact ⟨rfl, w, h₃, ‹_›⟩
    · cases h₂
  · exact absurd h₃ hb

/-- A fault of the fetch or the decode (R194), raised in the state the step began in. -/
theorem fetchDecode_eq_raised {s t : State} {ρ : Reason} {i : Info} (hb : belowCode s = false)
    (h : fetchDecode s = .raised ρ i t) :
    t = s ∧ ((ReadFaults s s.pcAddr ρ ∧ i = .int s.pcAddr) ∨
      ∃ w e, s.Holds s.pcAddr w ∧ decode s.cfg w = .error e ∧ ρ = decodeReason e ∧ i = .word w) := by
  have hb : ¬ s.pcAddr < s.cfg.codeBase := by simpa [belowCode] using hb
  rcases Res.bind_eq_raised h with h₁ | ⟨w, u, h₁, h₂⟩
  · obtain ⟨h₂, h₃, h₄⟩ := memRead_eq_raised h₁
    exact ⟨h₄, .inl ⟨h₂, h₃⟩⟩
  · rcases memRead_eq_ok h₁ with ⟨h₃, rfl⟩ | ⟨⟨-, h₃, -⟩, -⟩
    · unfold decodeWord at h₂
      split at h₂
      · cases h₂
      · cases h₂
        exact ⟨rfl, .inr ⟨w, _, h₃, ‹_›, rfl, rfl⟩⟩
    · exact absurd h₃ hb

/-- The fetch is never stuck: it reads no device (R160). -/
theorem fetchDecode_ne_stuck {s : State} (f : Fault) (hb : belowCode s = false) : fetchDecode s ≠ .stuck f := by
  intro h
  have hb : ¬ s.pcAddr < s.cfg.codeBase := by simpa [belowCode] using hb
  rcases Res.bind_eq_stuck h with h₁ | ⟨w, u, -, h₂⟩
  · exact hb (memRead_eq_stuck h₁).1.2.1
  · unfold decodeWord at h₂
    split at h₂ <;> cases h₂

/-- Everything a step that answers a next state can be (R160). -/
theorem step_cases {s t : State} (h : step s = .next t) :
    (s.status ≠ .running ∧ t = s) ∨
      (s.status = .running ∧ belowCode s = true ∧ t = halt s) ∨
      (s.status = .running ∧ belowCode s = false ∧
        ((∃ ρ i, fetchDecode s = .raised ρ i s ∧ t = takeFault s s ρ i) ∨
          ∃ w i, s.Holds s.pcAddr w ∧ decode s.cfg w = .ok i ∧ exec i s = .next t)) := by
  unfold step at h
  split at h
  · rename_i hs
    split at h
    · rename_i hb
      cases h
      exact .inr (.inl ⟨hs, hb, rfl⟩)
    · rename_i hb
      have hb : belowCode s = false := by simpa using hb
      refine .inr (.inr ⟨hs, hb, ?_⟩)
      cases hf : fetchDecode s with
      | ok i u =>
        obtain ⟨rfl, w, h₁, h₂⟩ := fetchDecode_eq_ok hb hf
        rw [hf] at h
        exact .inr ⟨w, i, h₁, h₂, h⟩
      | raised ρ i u =>
        obtain ⟨rfl, -⟩ := fetchDecode_eq_raised hb hf
        rw [hf] at h
        cases h
        exact .inl ⟨ρ, i, rfl, rfl⟩
      | stuck f => exact absurd hf (fetchDecode_ne_stuck f hb)
  · cases h
    exact .inl ⟨by simp_all, rfl⟩
  · cases h
    exact .inl ⟨by simp_all, rfl⟩

end Sys2Proof.Machine
end

