-- ==== Sys2Proof/Laws/Meanings.lean ====
section
/-! SUPPORT. What the shared parts of the meanings can do: loads, stores, the access through a pointer, the operator
instructions, call and return. Each lemma says once everything its part can do; later proofs cite it. -/

namespace Sys2Proof.Machine

/-! ### Loads and stores of L -/

/-- A completed load into L: the read completed, and L holds what it gave. -/
theorem loadL_eq_ok {a : Int} {s t : State} (h : loadL a s = .ok () t) :
    ∃ w u, ReadGives s a w u ∧ t = u.setL w := by
  obtain ⟨w, u, h₁, h₂⟩ := Res.bind_eq_ok h
  cases h₂
  exact ⟨w, u, memRead_eq_ok h₁, rfl⟩

theorem loadL_of_gives {a : Int} {s u : State} {w : Word} (h : ReadGives s a w u) :
    loadL a s = .ok () (u.setL w) := by
  unfold loadL
  rw [memRead_of_gives h]
  rfl

/-- A load into L raises what its read raises. -/
theorem loadL_eq_raised {a : Int} {s t : State} {ρ : Reason} {i : Info} (h : loadL a s = .raised ρ i t) :
    ReadFaults s a ρ ∧ i = .int a ∧ t = s := by
  rcases Res.bind_eq_raised h with h | ⟨w, u, -, h⟩
  · exact memRead_eq_raised h
  · cases h

theorem loadL_of_faults {a : Int} {s : State} {ρ : Reason} (h : ReadFaults s a ρ) :
    loadL a s = .raised ρ (.int a) s := by
  unfold loadL
  rw [memRead_of_faults h]
  rfl

/-- A load into L is stuck where its read is. -/
theorem loadL_eq_stuck {a : Int} {s : State} {f : Fault} (h : loadL a s = .stuck f) : ReadSticks s a := by
  rcases Res.bind_eq_stuck h with h | ⟨w, u, -, h⟩
  · exact memRead_eq_stuck h
  · cases h

theorem loadL_of_sticks {a : Int} {s : State} (h : ReadSticks s a) :
    loadL a s = .stuck .deviceReadUnanswered := by
  unfold loadL
  rw [memRead_of_sticks h]
  rfl

/-- A completed store of L: one plain word, or one recorded device write. -/
theorem storeL_eq_ok {a : Int} {s t : State} (h : storeL a s = .ok () t) :
    (s.PlainAddr a ∧ t = s.setMem (s.mem.write a.toNat s.l)) ∨
      (s.DeviceAddr a ∧ t = deviceWrite a.toNat s.l s) := memWrite_eq_ok h

/-- A store of L raises only `AddressOutOfRange`. -/
theorem storeL_eq_raised {a : Int} {s t : State} {ρ : Reason} {i : Info} (h : storeL a s = .raised ρ i t) :
    s.OutsideAddr a ∧ ρ = .addressOutOfRange ∧ i = .int a ∧ t = s := memWrite_eq_raised h

theorem storeL_ne_stuck (a : Int) (s : State) (f : Fault) : storeL a s ≠ .stuck f := memWrite_ne_stuck a s.l s f

/-! ### Loads and stores of R -/

/-- A completed load into R: the read completed, and R holds what it gave. -/
theorem loadR_eq_ok {a : Int} {s t : State} (h : loadR a s = .ok () t) :
    ∃ w u, ReadGives s a w u ∧ t = u.setR w := by
  obtain ⟨w, u, h₁, h₂⟩ := Res.bind_eq_ok h
  cases h₂
  exact ⟨w, u, memRead_eq_ok h₁, rfl⟩

theorem loadR_of_gives {a : Int} {s u : State} {w : Word} (h : ReadGives s a w u) :
    loadR a s = .ok () (u.setR w) := by
  unfold loadR
  rw [memRead_of_gives h]
  rfl

/-- A load into R raises what its read raises. -/
theorem loadR_eq_raised {a : Int} {s t : State} {ρ : Reason} {i : Info} (h : loadR a s = .raised ρ i t) :
    ReadFaults s a ρ ∧ i = .int a ∧ t = s := by
  rcases Res.bind_eq_raised h with h | ⟨w, u, -, h⟩
  · exact memRead_eq_raised h
  · cases h

theorem loadR_of_faults {a : Int} {s : State} {ρ : Reason} (h : ReadFaults s a ρ) :
    loadR a s = .raised ρ (.int a) s := by
  unfold loadR
  rw [memRead_of_faults h]
  rfl

/-- A load into R is stuck where its read is. -/
theorem loadR_eq_stuck {a : Int} {s : State} {f : Fault} (h : loadR a s = .stuck f) : ReadSticks s a := by
  rcases Res.bind_eq_stuck h with h | ⟨w, u, -, h⟩
  · exact memRead_eq_stuck h
  · cases h

theorem loadR_of_sticks {a : Int} {s : State} (h : ReadSticks s a) :
    loadR a s = .stuck .deviceReadUnanswered := by
  unfold loadR
  rw [memRead_of_sticks h]
  rfl

/-- A completed store of R: one plain word, or one recorded device write. -/
theorem storeR_eq_ok {a : Int} {s t : State} (h : storeR a s = .ok () t) :
    (s.PlainAddr a ∧ t = s.setMem (s.mem.write a.toNat s.r)) ∨
      (s.DeviceAddr a ∧ t = deviceWrite a.toNat s.r s) := memWrite_eq_ok h

/-- A store of R raises only `AddressOutOfRange`. -/
theorem storeR_eq_raised {a : Int} {s t : State} {ρ : Reason} {i : Info} (h : storeR a s = .raised ρ i t) :
    s.OutsideAddr a ∧ ρ = .addressOutOfRange ∧ i = .int a ∧ t = s := memWrite_eq_raised h

theorem storeR_ne_stuck (a : Int) (s : State) (f : Fault) : storeR a s ≠ .stuck f := memWrite_ne_stuck a s.r s f

/-! ### Through a pointer -/

/-- A completed access through a pointer: the pointer read, then the access at the address it names (R93). -/
theorem viaPointer_eq_ok {a : Int} {access : Int → State → Res Unit} {s t : State}
    (h : viaPointer a access s = .ok () t) : ∃ p u, ReadGives s a p u ∧ access (sint32 p) u = .ok () t := by
  obtain ⟨p, u, h₁, h₂⟩ := Res.bind_eq_ok h
  exact ⟨p, u, memRead_eq_ok h₁, h₂⟩

theorem viaPointer_of_gives {a : Int} {access : Int → State → Res Unit} {s u : State} {p : Word}
    (h : ReadGives s a p u) : viaPointer a access s = access (sint32 p) u := by
  unfold viaPointer
  rw [memRead_of_gives h]
  rfl

/-- It raises what the pointer read raises, or, after that read, what the access raises (R194). -/
theorem viaPointer_eq_raised {a : Int} {access : Int → State → Res Unit} {s t : State} {ρ : Reason} {i : Info}
    (h : viaPointer a access s = .raised ρ i t) :
    (ReadFaults s a ρ ∧ i = .int a ∧ t = s) ∨ ∃ p u, ReadGives s a p u ∧ access (sint32 p) u = .raised ρ i t := by
  rcases Res.bind_eq_raised h with h | ⟨p, u, h₁, h₂⟩
  · exact .inl (memRead_eq_raised h)
  · exact .inr ⟨p, u, memRead_eq_ok h₁, h₂⟩

theorem viaPointer_of_faults {a : Int} {access : Int → State → Res Unit} {s : State} {ρ : Reason}
    (h : ReadFaults s a ρ) : viaPointer a access s = .raised ρ (.int a) s := by
  unfold viaPointer
  rw [memRead_of_faults h]
  rfl

theorem viaPointer_eq_stuck {a : Int} {access : Int → State → Res Unit} {s : State} {f : Fault}
    (h : viaPointer a access s = .stuck f) :
    ReadSticks s a ∨ ∃ p u, ReadGives s a p u ∧ access (sint32 p) u = .stuck f := by
  rcases Res.bind_eq_stuck h with h | ⟨p, u, h₁, h₂⟩
  · exact .inl (memRead_eq_stuck h)
  · exact .inr ⟨p, u, memRead_eq_ok h₁, h₂⟩

theorem viaPointer_of_sticks {a : Int} {access : Int → State → Res Unit} {s : State} (h : ReadSticks s a) :
    viaPointer a access s = .stuck .deviceReadUnanswered := by
  unfold viaPointer
  rw [memRead_of_sticks h]
  rfl

/-! ### The operator instructions -/

/-- A completed binary operator writes its result to L and nothing else (R122). -/
theorem binaryToL_eq_ok {o : BinOp} {w : Word} {s t : State} (h : binaryToL o w s = .ok () t) :
    ∃ v, binop s.cfg o s.l s.r = .ok v ∧ t = s.setL v := by
  unfold binaryToL at h
  split at h
  · cases h
    exact ⟨_, ‹_›, rfl⟩
  · cases h

/-- A binary operator raises the operator unit's fault, with the instruction word as info (R191). -/
theorem binaryToL_eq_raised {o : BinOp} {w : Word} {s t : State} {ρ : Reason} {i : Info}
    (h : binaryToL o w s = .raised ρ i t) : binop s.cfg o s.l s.r = .error ρ ∧ i = .word w ∧ t = s := by
  unfold binaryToL at h
  split at h
  · cases h
  · cases h
    exact ⟨‹_›, rfl, rfl⟩

theorem binaryToL_ne_stuck (o : BinOp) (w : Word) (s : State) (f : Fault) : binaryToL o w s ≠ .stuck f := by
  unfold binaryToL
  split <;> simp

/-- A completed binary operator writes its result to R and nothing else (R123). -/
theorem binaryToR_eq_ok {o : BinOp} {w : Word} {s t : State} (h : binaryToR o w s = .ok () t) :
    ∃ v, binop s.cfg o s.l s.r = .ok v ∧ t = s.setR v := by
  unfold binaryToR at h
  split at h
  · cases h
    exact ⟨_, ‹_›, rfl⟩
  · cases h

/-- A binary operator raises the operator unit's fault, with the instruction word as info (R191). -/
theorem binaryToR_eq_raised {o : BinOp} {w : Word} {s t : State} {ρ : Reason} {i : Info}
    (h : binaryToR o w s = .raised ρ i t) : binop s.cfg o s.l s.r = .error ρ ∧ i = .word w ∧ t = s := by
  unfold binaryToR at h
  split at h
  · cases h
  · cases h
    exact ⟨‹_›, rfl, rfl⟩

theorem binaryToR_ne_stuck (o : BinOp) (w : Word) (s : State) (f : Fault) : binaryToR o w s ≠ .stuck f := by
  unfold binaryToR
  split <;> simp

/-! ### Call and return -/

/-- A completed frame entry: the two linkage writes, then SPL, SPR and PC (R165). -/
theorem enterFrame_eq_ok {S n next : Int} {s t : State} (h : enterFrame S n next s = .ok () t) :
    ∃ u v, memWrite (S - 1) s.pc s = .ok () u ∧ memWrite S u.spl u = .ok () v ∧
      t = ((v.setSpl (word S)).setSpr (word (S + n))).goTo next := by
  obtain ⟨_, u, h₁, h₂⟩ := Res.bind_eq_ok h
  obtain ⟨_, v, h₃, h₄⟩ := Res.bind_eq_ok h₂
  cases h₄
  exact ⟨u, v, h₁, h₃, rfl⟩

/-- A frame entry raises only `AddressOutOfRange`, from one of its two writes. -/
theorem enterFrame_eq_raised {S n next : Int} {s t : State} {ρ : Reason} {i : Info}
    (h : enterFrame S n next s = .raised ρ i t) :
    ρ = .addressOutOfRange ∧ (t = s ∧ s.OutsideAddr (S - 1) ∧ i = .int (S - 1) ∨
      memWrite (S - 1) s.pc s = .ok () t ∧ t.OutsideAddr S ∧ i = .int S) := by
  rcases Res.bind_eq_raised h with h | ⟨_, u, h₁, h₂⟩
  · obtain ⟨h₁, h₂, h₃, h₄⟩ := memWrite_eq_raised h
    exact ⟨h₂, .inl ⟨h₄, h₁, h₃⟩⟩
  · rcases Res.bind_eq_raised h₂ with h | ⟨_, v, -, h⟩
    · obtain ⟨h₃, h₄, h₅, rfl⟩ := memWrite_eq_raised h
      exact ⟨h₄, .inr ⟨h₁, h₃, h₅⟩⟩
    · cases h

theorem enterFrame_ne_stuck (S n next : Int) (s : State) (f : Fault) : enterFrame S n next s ≠ .stuck f := by
  intro h
  rcases Res.bind_eq_stuck h with h | ⟨_, u, -, h⟩
  · exact memWrite_ne_stuck _ _ _ _ h
  · rcases Res.bind_eq_stuck h with h | ⟨_, v, -, h⟩
    · exact memWrite_ne_stuck _ _ _ _ h
    · cases h

/-- A completed `CALL`: the frame-size read completed, the checks passed, the frame was entered (R165). -/
theorem callBody_eq_ok {off : Int} {s t : State} (h : callBody off s = .ok () t) :
    ∃ nw u, ReadGives s (s.cfg.codeBase + off - 1) nw u ∧ 0 ≤ sint32 nw ∧
      (u.cfg.stackBase : Int) ≤ sint32 u.spr - 1 ∧ sint32 u.spr + sint32 nw ≤ u.cfg.memSize ∧
      enterFrame (sint32 u.spr) (sint32 nw) (s.cfg.codeBase + off) u = .ok () t := by
  obtain ⟨nw, u, h₁, h₂⟩ := Res.bind_eq_ok h
  unfold callWithSize at h₂
  simp only at h₂
  split at h₂
  · cases h₂
  · split at h₂
    · cases h₂
    · exact ⟨nw, u, memRead_eq_ok h₁, by omega, by omega, by omega, h₂⟩

/-- Everything a `CALL` can raise, in the order of R165. -/
theorem callBody_eq_raised {off : Int} {s t : State} {ρ : Reason} {i : Info} (h : callBody off s = .raised ρ i t) :
    (ReadFaults s (s.cfg.codeBase + off - 1) ρ ∧ i = .int (s.cfg.codeBase + off - 1) ∧ t = s) ∨
      ∃ nw u, ReadGives s (s.cfg.codeBase + off - 1) nw u ∧
        ((ρ = .badFrameSize ∧ i = .word nw ∧ t = u ∧ sint32 nw < 0) ∨
          (ρ = .stackOverflow ∧ i = .int (sint32 u.spr + sint32 nw) ∧ t = u ∧ 0 ≤ sint32 nw ∧
            (sint32 u.spr - 1 < u.cfg.stackBase ∨ u.cfg.memSize < sint32 u.spr + sint32 nw)) ∨
          (0 ≤ sint32 nw ∧ (u.cfg.stackBase : Int) ≤ sint32 u.spr - 1 ∧ sint32 u.spr + sint32 nw ≤ u.cfg.memSize ∧
            enterFrame (sint32 u.spr) (sint32 nw) (s.cfg.codeBase + off) u = .raised ρ i t)) := by
  rcases Res.bind_eq_raised h with h | ⟨nw, u, h₁, h₂⟩
  · exact .inl (memRead_eq_raised h)
  · refine .inr ⟨nw, u, memRead_eq_ok h₁, ?_⟩
    unfold callWithSize at h₂
    simp only at h₂
    split at h₂
    · cases h₂
      exact .inl ⟨rfl, rfl, rfl, ‹_›⟩
    · split at h₂
      · cases h₂
        exact .inr (.inl ⟨rfl, rfl, rfl, by omega, ‹_›⟩)
      · exact .inr (.inr ⟨by omega, by omega, by omega, h₂⟩)

/-- A `CALL` is stuck only on its frame-size read. -/
theorem callBody_eq_stuck {off : Int} {s : State} {f : Fault} (h : callBody off s = .stuck f) :
    ReadSticks s (s.cfg.codeBase + off - 1) := by
  rcases Res.bind_eq_stuck h with h | ⟨nw, u, -, h⟩
  · exact memRead_eq_stuck h
  · unfold callWithSize at h
    simp only at h
    split at h
    · cases h
    · split at h
      · cases h
      · exact absurd h (enterFrame_ne_stuck _ _ _ _ _)

/-- A completed `RET`: the two reads, then SPR, SPL and PC (R166). -/
theorem retBody_eq_ok {s t : State} (h : retBody s = .ok () t) :
    ∃ saved u ret v, ReadGives s (sint32 s.spl) saved u ∧ ReadGives u (sint32 s.spl - 1) ret v ∧
      t = ((v.setSpr s.spl).setSpl saved).setPc ret := by
  obtain ⟨saved, u, h₁, h₂⟩ := Res.bind_eq_ok h
  obtain ⟨ret, v, h₃, h₄⟩ := Res.bind_eq_ok h₂
  exact ⟨saved, u, ret, v, memRead_eq_ok h₁, memRead_eq_ok h₃, (Res.ok.inj h₄).2.symm⟩

theorem retBody_of_gives {s u v : State} {saved ret : Word} (h₁ : ReadGives s (sint32 s.spl) saved u)
    (h₂ : ReadGives u (sint32 s.spl - 1) ret v) :
    retBody s = .ok () (((v.setSpr s.spl).setSpl saved).setPc ret) := by
  unfold retBody
  rw [memRead_of_gives h₁, Res.bind_ok, memRead_of_gives h₂, Res.bind_ok]

/-- Everything a `RET` can raise: the saved-SPL read first (R166). -/
theorem retBody_eq_raised {s t : State} {ρ : Reason} {i : Info} (h : retBody s = .raised ρ i t) :
    (ReadFaults s (sint32 s.spl) ρ ∧ i = .int (sint32 s.spl) ∧ t = s) ∨
      ∃ saved, ReadGives s (sint32 s.spl) saved t ∧ ReadFaults t (sint32 s.spl - 1) ρ ∧ i = .int (sint32 s.spl - 1) := by
  rcases Res.bind_eq_raised h with h | ⟨saved, u, h₁, h₂⟩
  · exact .inl (memRead_eq_raised h)
  · rcases Res.bind_eq_raised h₂ with h | ⟨ret, v, -, h⟩
    · obtain ⟨h₃, h₄, h₅⟩ := memRead_eq_raised h
      exact .inr ⟨saved, h₅ ▸ memRead_eq_ok h₁, h₅ ▸ h₃, h₄⟩
    · cases h

/-- A `RET` is stuck only on one of its two reads. -/
theorem retBody_eq_stuck {s : State} {f : Fault} (h : retBody s = .stuck f) :
    ReadSticks s (sint32 s.spl) ∨
      ∃ saved u, ReadGives s (sint32 s.spl) saved u ∧ ReadSticks u (sint32 s.spl - 1) := by
  rcases Res.bind_eq_stuck h with h | ⟨saved, u, h₁, h₂⟩
  · exact .inl (memRead_eq_stuck h)
  · rcases Res.bind_eq_stuck h₂ with h | ⟨ret, v, -, h⟩
    · exact .inr ⟨saved, u, memRead_eq_ok h₁, memRead_eq_stuck h⟩
    · cases h

end Sys2Proof.Machine
end

