-- ==== Sys2Proof/Laws/PerInstr.lean ====
section
/-! SUPPORT. Facts about every instruction as syntax, one lemma for each constructor. -/

namespace Sys2Proof.Laws.OpcodeField

/-- The opcode field of an instruction's word is the code of its opcode (R61, R65). -/
def Statement (i : Instr) : Prop := ∀ c : Config, opcodeField (encode c i) = c.opmap.code i.op

theorem nop (x : BitVec 24) : Statement (.nop x) := fun c => opcodeField_encodeN c ..
theorem ldsL (x : Int) : Statement (.ldsL x) := fun c => opcodeField_encodeO c ..
theorem ldsR (x : Int) : Statement (.ldsR x) := fun c => opcodeField_encodeO c ..
theorem stsL (x : Int) : Statement (.stsL x) := fun c => opcodeField_encodeO c ..
theorem stsR (x : Int) : Statement (.stsR x) := fun c => opcodeField_encodeO c ..
theorem ldsiL (x : Int) : Statement (.ldsiL x) := fun c => opcodeField_encodeO c ..
theorem ldsiR (x : Int) : Statement (.ldsiR x) := fun c => opcodeField_encodeO c ..
theorem stsiL (x : Int) : Statement (.stsiL x) := fun c => opcodeField_encodeO c ..
theorem stsiR (x : Int) : Statement (.stsiR x) := fun c => opcodeField_encodeO c ..
theorem ldfL (x : Int) : Statement (.ldfL x) := fun c => opcodeField_encodeO c ..
theorem ldfR (x : Int) : Statement (.ldfR x) := fun c => opcodeField_encodeO c ..
theorem stfL (x : Int) : Statement (.stfL x) := fun c => opcodeField_encodeO c ..
theorem stfR (x : Int) : Statement (.stfR x) := fun c => opcodeField_encodeO c ..
theorem ldfiL (x : Int) : Statement (.ldfiL x) := fun c => opcodeField_encodeO c ..
theorem ldfiR (x : Int) : Statement (.ldfiR x) := fun c => opcodeField_encodeO c ..
theorem stfiL (x : Int) : Statement (.stfiL x) := fun c => opcodeField_encodeO c ..
theorem stfiR (x : Int) : Statement (.stfiR x) := fun c => opcodeField_encodeO c ..
theorem uopLBnot (x : BitVec 16) : Statement (.uopLBnot x) := fun c => opcodeField_encodeP c ..
theorem uopLLnot (x : BitVec 16) : Statement (.uopLLnot x) := fun c => opcodeField_encodeP c ..
theorem uopRBnot (x : BitVec 16) : Statement (.uopRBnot x) := fun c => opcodeField_encodeP c ..
theorem uopRLnot (x : BitVec 16) : Statement (.uopRLnot x) := fun c => opcodeField_encodeP c ..
theorem bopLShr (x : BitVec 16) : Statement (.bopLShr x) := fun c => opcodeField_encodeP c ..
theorem bopLShl (x : BitVec 16) : Statement (.bopLShl x) := fun c => opcodeField_encodeP c ..
theorem bopLAnd (x : BitVec 16) : Statement (.bopLAnd x) := fun c => opcodeField_encodeP c ..
theorem bopLOr (x : BitVec 16) : Statement (.bopLOr x) := fun c => opcodeField_encodeP c ..
theorem bopLXor (x : BitVec 16) : Statement (.bopLXor x) := fun c => opcodeField_encodeP c ..
theorem bopLEq (x : BitVec 16) : Statement (.bopLEq x) := fun c => opcodeField_encodeP c ..
theorem bopLNe (x : BitVec 16) : Statement (.bopLNe x) := fun c => opcodeField_encodeP c ..
theorem bopLLe (x : BitVec 16) : Statement (.bopLLe x) := fun c => opcodeField_encodeP c ..
theorem bopLGe (x : BitVec 16) : Statement (.bopLGe x) := fun c => opcodeField_encodeP c ..
theorem bopLLt (x : BitVec 16) : Statement (.bopLLt x) := fun c => opcodeField_encodeP c ..
theorem bopLGt (x : BitVec 16) : Statement (.bopLGt x) := fun c => opcodeField_encodeP c ..
theorem bopLLand (x : BitVec 16) : Statement (.bopLLand x) := fun c => opcodeField_encodeP c ..
theorem bopLLor (x : BitVec 16) : Statement (.bopLLor x) := fun c => opcodeField_encodeP c ..
theorem bopLAdd (x : BitVec 16) : Statement (.bopLAdd x) := fun c => opcodeField_encodeP c ..
theorem bopLSub (x : BitVec 16) : Statement (.bopLSub x) := fun c => opcodeField_encodeP c ..
theorem bopLMul (x : BitVec 16) : Statement (.bopLMul x) := fun c => opcodeField_encodeP c ..
theorem bopLDiv (x : BitVec 16) : Statement (.bopLDiv x) := fun c => opcodeField_encodeP c ..
theorem bopLMod (x : BitVec 16) : Statement (.bopLMod x) := fun c => opcodeField_encodeP c ..
theorem bopLPow (x : BitVec 16) : Statement (.bopLPow x) := fun c => opcodeField_encodeP c ..
theorem bopRShr (x : BitVec 16) : Statement (.bopRShr x) := fun c => opcodeField_encodeP c ..
theorem bopRShl (x : BitVec 16) : Statement (.bopRShl x) := fun c => opcodeField_encodeP c ..
theorem bopRAnd (x : BitVec 16) : Statement (.bopRAnd x) := fun c => opcodeField_encodeP c ..
theorem bopROr (x : BitVec 16) : Statement (.bopROr x) := fun c => opcodeField_encodeP c ..
theorem bopRXor (x : BitVec 16) : Statement (.bopRXor x) := fun c => opcodeField_encodeP c ..
theorem bopREq (x : BitVec 16) : Statement (.bopREq x) := fun c => opcodeField_encodeP c ..
theorem bopRNe (x : BitVec 16) : Statement (.bopRNe x) := fun c => opcodeField_encodeP c ..
theorem bopRLe (x : BitVec 16) : Statement (.bopRLe x) := fun c => opcodeField_encodeP c ..
theorem bopRGe (x : BitVec 16) : Statement (.bopRGe x) := fun c => opcodeField_encodeP c ..
theorem bopRLt (x : BitVec 16) : Statement (.bopRLt x) := fun c => opcodeField_encodeP c ..
theorem bopRGt (x : BitVec 16) : Statement (.bopRGt x) := fun c => opcodeField_encodeP c ..
theorem bopRLand (x : BitVec 16) : Statement (.bopRLand x) := fun c => opcodeField_encodeP c ..
theorem bopRLor (x : BitVec 16) : Statement (.bopRLor x) := fun c => opcodeField_encodeP c ..
theorem bopRAdd (x : BitVec 16) : Statement (.bopRAdd x) := fun c => opcodeField_encodeP c ..
theorem bopRSub (x : BitVec 16) : Statement (.bopRSub x) := fun c => opcodeField_encodeP c ..
theorem bopRMul (x : BitVec 16) : Statement (.bopRMul x) := fun c => opcodeField_encodeP c ..
theorem bopRDiv (x : BitVec 16) : Statement (.bopRDiv x) := fun c => opcodeField_encodeP c ..
theorem bopRMod (x : BitVec 16) : Statement (.bopRMod x) := fun c => opcodeField_encodeP c ..
theorem bopRPow (x : BitVec 16) : Statement (.bopRPow x) := fun c => opcodeField_encodeP c ..
theorem swap (x : BitVec 24) : Statement (.swap x) := fun c => opcodeField_encodeN c ..
theorem brl (x : Int) : Statement (.brl x) := fun c => opcodeField_encodeO c ..
theorem brr (x : Int) : Statement (.brr x) := fun c => opcodeField_encodeO c ..
theorem jmp (x : Int) : Statement (.jmp x) := fun c => opcodeField_encodeO c ..
theorem call (x : Int) : Statement (.call x) := fun c => opcodeField_encodeO c ..
theorem ret (x : BitVec 24) : Statement (.ret x) := fun c => opcodeField_encodeN c ..

end Sys2Proof.Laws.OpcodeField
end

