-- ==== Sys2Proof/Tests/Slice0.lean ====
section
/-! SUPPORT. The model's own tests. Expected values are those of spec/95_test_vectors.md, or worked out by hand from the rule
named; words are written out from the tables of R65 and R66. For each obligation with hypotheses a `witness_` theorem shows
a state and operands that meet them. -/

namespace Sys2Proof.Tests

open Sys2Proof Sys2Proof.Machine

/-- A projection of the next state, `none` where the outcome is a stop. -/
def after {α : Type} (o : Host.Outcome State Fault Refusal) (f : State → α) : Option α :=
  match o with
  | .next s => some (f s)
  | .fault _ => none
  | .refused _ => none

/-- The outcome is the model's stop on a device read never answered. -/
def sticks (o : Host.Outcome State Fault Refusal) : Bool :=
  match o with
  | .next _ => false
  | .fault .deviceReadUnanswered => true
  | .refused _ => false

/-- The word decodes to the instruction under the default maps. -/
def decodesTo (w : Word) (i : Instr) : Bool :=
  match decode Config.default w with
  | .ok j => decide (j = i)
  | .error _ => false

/-- The word is rejected with this error under the default maps. -/
def rejectedAs (w : Word) (e : DecodeError) : Bool :=
  match decode Config.default w with
  | .ok _ => false
  | .error d => decide (d = e)

/-- The reset state with other values in L and R and other written words. -/
def st (l r : Word) (mem : Memory) : State := { State.reset with l := l, r := r, mem := mem }

/-- The reset state with replies laid down for device reads. -/
def withReplies (q : List DeviceReply) (mem : Memory) : State := { State.reset with deviceReplies := q, mem := mem }

/-- One step at the word `w`, placed where the state fetches. -/
def stepAt (s : State) (w : Nat) : Host.Outcome State Fault Refusal := step (s.withFetchWord 32 w)

/-- The binary operator gives this word under the default parameters. -/
def gives (o : BinOp) (v : Word × Word × Word) : Bool :=
  match binop Config.default o v.1 v.2.1 with
  | .ok x => decide (x = v.2.2)
  | .error _ => false

/-- The binary operator faults with this reason. -/
def faults (c : Config) (o : BinOp) (a b : Word) (ρ : Reason) : Bool :=
  match binop c o a b with
  | .ok _ => false
  | .error x => decide (x = ρ)

/-- The default parameters with `SHIFT_COUNT = Fault`. -/
def cfgShiftFault : Config := { Config.default with shiftCount := .fault }

/-- The default parameters with `POW_MODE = Float64`. -/
def cfgFloat : Config := { Config.default with powMode := .float64 }

/-- The default parameters with a space that ends in the middle of the static range. -/
def cfgSmall : Config := { Config.default with memSize := 0x00900000 }

/-- The default parameters with the largest space R7 admits. -/
def cfgLarge : Config := { Config.default with memSize := 0x80000000 }

/-- The largest space with a code base so high that a transfer can name an address of 2^31. -/
def cfgHigh : Config :=
  { Config.default with codeBase := 0x7FF00000, stackBase := 0x7FF80000, memSize := 0x80000000 }

/-! ### Well-formedness (R73) and the constraints of R7 -/

theorem test_offset_above_range_refused :
    (Instr.ldsL 8388608).wellFormed = false := by decide

theorem test_offset_below_range_refused :
    (Instr.call (-8388609)).wellFormed = false := by decide

theorem test_offset_ends_admitted :
    (Instr.jmp 8388607).wellFormed = true ∧ (Instr.brl (-8388608)).wellFormed = true := by decide

/-- "codes injective" and in range, sizes in order: the defaults of R7. -/
theorem test_default_config_valid :
    Config.default.Valid := by decide

theorem test_config_refuses_zero_code_base :
    ¬ Config.SizesValid { Config.default with codeBase := 0 } := by decide

theorem test_config_refuses_code_base_above_stack :
    ¬ Config.SizesValid { Config.default with codeBase := 0x00810000 } := by decide

theorem test_config_refuses_stack_above_memory :
    ¬ Config.SizesValid { Config.default with stackBase := 0x01000000 } := by decide

theorem test_config_refuses_memory_too_large :
    ¬ Config.SizesValid { Config.default with memSize := 2 ^ 31 + 1 } := by decide

theorem test_config_refuses_zero_spr_offset :
    ¬ Config.SizesValid { Config.default with sprInitOffset := 0 } := by decide

theorem test_config_refuses_spr_above_memory :
    ¬ Config.SizesValid { Config.default with sprInitOffset := 0x007F0001 } := by decide

theorem test_config_refuses_shared_opcode :
    ¬ Config.OpmapValid { Config.default with opmap := { OpMap.default with ret := 0x43 } } := by decide

theorem test_config_refuses_opcode_out_of_range :
    ¬ Config.OpmapValid { Config.default with opmap := { OpMap.default with ret := 0x45 } } := by decide

theorem test_config_refuses_shared_operator :
    ¬ Config.OprmapValid { Config.default with oprmap := { OprMap.default with powCode := 0x00 } } := by decide

theorem test_config_refuses_operator_out_of_range :
    ¬ Config.OprmapValid { Config.default with oprmap := { OprMap.default with powCode := 0x36 } } := by decide

/-! ### Decoding: one word for every constructor, written out from R65 and R66 -/

theorem test_decode_static :
    ([(0x10000005, .ldsL 5),
      (0x11FFFFFF, .ldsR (-1)),
      (0x12000010, .stsL 16),
      (0x13FFFFFF, .stsR (-1)),
      (0x14000007, .ldsiL 7),
      (0x157FFFFF, .ldsiR 8388607),
      (0x16800000, .stsiL (-8388608)),
      (0x17000007, .stsiR 7)] : List (Word × Instr)).all fun p => decodesTo p.1 p.2 := by decide

theorem test_decode_frame :
    ([(0x20000001, .ldfL 1),
      (0x21FFFFFF, .ldfR (-1)),
      (0x22000004, .stfL 4),
      (0x23000001, .stfR 1),
      (0x24000001, .ldfiL 1),
      (0x25000003, .ldfiR 3),
      (0x26FFFFFE, .stfiL (-2)),
      (0x27000001, .stfiR 1)] : List (Word × Instr)).all fun p => decodesTo p.1 p.2 := by decide

theorem test_decode_unary :
    ([(0x30000000, .uopLBnot 0),
      (0x30010000, .uopLLnot 0),
      (0x31000000, .uopRBnot 0),
      (0x3101FFFF, .uopRLnot 0xFFFF)] : List (Word × Instr)).all fun p => decodesTo p.1 p.2 := by decide

theorem test_decode_binary_l :
    ([(0x32100000, .bopLShr 0x0000),
      (0x3211FFFF, .bopLShl 0xFFFF),
      (0x32120202, .bopLAnd 0x0202),
      (0x32130303, .bopLOr 0x0303),
      (0x32140404, .bopLXor 0x0404),
      (0x32200505, .bopLEq 0x0505),
      (0x32210606, .bopLNe 0x0606),
      (0x32220707, .bopLLe 0x0707),
      (0x32230808, .bopLGe 0x0808),
      (0x32240909, .bopLLt 0x0909),
      (0x32250A0A, .bopLGt 0x0A0A),
      (0x32260B0B, .bopLLand 0x0B0B),
      (0x32270C0C, .bopLLor 0x0C0C),
      (0x32300D0D, .bopLAdd 0x0D0D),
      (0x32310E0E, .bopLSub 0x0E0E),
      (0x32320F0F, .bopLMul 0x0F0F),
      (0x32331010, .bopLDiv 0x1010),
      (0x32341111, .bopLMod 0x1111),
      (0x32351212, .bopLPow 0x1212)] : List (Word × Instr)).all fun p => decodesTo p.1 p.2 := by decide

theorem test_decode_binary_r :
    ([(0x33100000, .bopRShr 0x0000),
      (0x3311FFFF, .bopRShl 0xFFFF),
      (0x33120202, .bopRAnd 0x0202),
      (0x33130303, .bopROr 0x0303),
      (0x33140404, .bopRXor 0x0404),
      (0x33200505, .bopREq 0x0505),
      (0x33210606, .bopRNe 0x0606),
      (0x33220707, .bopRLe 0x0707),
      (0x33230808, .bopRGe 0x0808),
      (0x33240909, .bopRLt 0x0909),
      (0x33250A0A, .bopRGt 0x0A0A),
      (0x33260B0B, .bopRLand 0x0B0B),
      (0x33270C0C, .bopRLor 0x0C0C),
      (0x33300D0D, .bopRAdd 0x0D0D),
      (0x33310E0E, .bopRSub 0x0E0E),
      (0x33320F0F, .bopRMul 0x0F0F),
      (0x33331010, .bopRDiv 0x1010),
      (0x33341111, .bopRMod 0x1111),
      (0x33351212, .bopRPow 0x1212)] : List (Word × Instr)).all fun p => decodesTo p.1 p.2 := by decide

theorem test_decode_control_and_plain :
    ([(0x00000005, .nop 5),
      (0x34ABCDEF, .swap 0xABCDEF),
      (0x4000001A, .brl 26),
      (0x4100000B, .brr 11),
      (0x42FFFFFF, .jmp (-1)),
      (0x4300000B, .call 11),
      (0x44FFFFFF, .ret 0xFFFFFF)] : List (Word × Instr)).all fun p => decodesTo p.1 p.2 := by decide

theorem test_decode_rejects :
    rejectedAs 0x05000000 .illegalOpcode ∧ rejectedAs 0x35000000 .illegalOpcode ∧
      rejectedAs 0x45000000 .illegalOpcode ∧ rejectedAs 0xFF000000 .illegalOpcode ∧
      rejectedAs 0x32000000 .illegalOperator ∧ rejectedAs 0x30100000 .illegalOperator ∧
      rejectedAs 0x3236FFFF .illegalOperator := by decide

/-- "Encoding direction" of 95_test_vectors.md section 2. -/
theorem test_encode_vectors :
    encode Config.default (.stfL 5) = 0x22000005 ∧ encode Config.default (.ldfL (-1)) = 0x20FFFFFF ∧
      encode Config.default (.uopRLnot 0) = 0x31010000 ∧ encode Config.default (.bopLPow 0) = 0x32350000 ∧
      encode Config.default (.ldsL 0x800000) = 0x10800000 := by decide

theorem test_decode_table_word :
    decodeTableWord 32 0x12000010 = some (.stsL 16) ∧ decodeTableWord 32 0x05000000 = none := by decide

/-! ### Operators: the vectors of 95_test_vectors.md section 4 -/

theorem test_bnot_vectors :
    unop .bnot 0x00000000 = 0xFFFFFFFF ∧ unop .bnot 0x7FFFFFFF = 0x80000000 ∧ unop .bnot 0xFFFFFFF7 = 0x00000008 := by decide

theorem test_lnot_vectors :
    unop .lnot 0x00000000 = 0x00000001 ∧ unop .lnot 0x80000000 = 0x00000000 ∧ unop .lnot 0x0000002A = 0x00000000 := by decide

theorem test_shr_vectors :
    ([(0xFFFFFFF7, 0x00000001, 0xFFFFFFFB),
      (0x80000000, 0x0000001F, 0xFFFFFFFF),
      (0x7FFFFFFF, 0x0000001F, 0x00000000),
      (0x12345678, 0x00000020, 0x12345678),
      (0x80000000, 0xFFFFFFFF, 0xFFFFFFFF),
      (0x00000040, 0x00000004, 0x00000004)] : List (Word × Word × Word)).all (gives .shr) := by decide

theorem test_shl_vectors :
    ([(0x00000001, 0x0000001F, 0x80000000),
      (0x40000000, 0x00000001, 0x80000000),
      (0x00000003, 0x00000021, 0x00000006),
      (0x00000005, 0x00000002, 0x00000014),
      (0xFFFFFFFF, 0xFFFFFFFF, 0x80000000)] : List (Word × Word × Word)).all (gives .shl) := by decide

theorem test_and_vectors :
    ([(0xF0F0F0F0, 0x0FF00FF0, 0x00F000F0)] : List (Word × Word × Word)).all (gives .and) := by decide

theorem test_or_vectors :
    ([(0xF0F0F0F0, 0x0FF00FF0, 0xFFF0FFF0)] : List (Word × Word × Word)).all (gives .or) := by decide

theorem test_xor_vectors :
    ([(0xF0F0F0F0, 0x0FF00FF0, 0xFF00FF00),
      (0x00001234, 0x00001234, 0x00000000)] : List (Word × Word × Word)).all (gives .xor) := by decide

theorem test_eq_vectors :
    ([(0x00000005, 0x00000005, 0x00000001),
      (0x00000005, 0x00000006, 0x00000000),
      (0xFFFFFFFF, 0xFFFFFFFF, 0x00000001)] : List (Word × Word × Word)).all (gives .eq) := by decide

theorem test_ne_vectors :
    ([(0x00000005, 0x00000006, 0x00000001),
      (0x00000000, 0x00000000, 0x00000000)] : List (Word × Word × Word)).all (gives .ne) := by decide

theorem test_le_vectors :
    ([(0xFFFFFFFF, 0x00000001, 0x00000001),
      (0x00000003, 0x00000003, 0x00000001),
      (0x00000001, 0xFFFFFFFF, 0x00000000)] : List (Word × Word × Word)).all (gives .le) := by decide

theorem test_ge_vectors :
    ([(0x80000000, 0x7FFFFFFF, 0x00000000),
      (0x00000004, 0x00000003, 0x00000001)] : List (Word × Word × Word)).all (gives .ge) := by decide

theorem test_lt_vectors :
    ([(0xFFFFFFFF, 0x00000000, 0x00000001),
      (0x00000001, 0x00000002, 0x00000001),
      (0x00000005, 0x00000002, 0x00000000)] : List (Word × Word × Word)).all (gives .lt) := by decide

theorem test_gt_vectors :
    ([(0x00000002, 0x00000002, 0x00000000),
      (0x00000000, 0x80000000, 0x00000001),
      (0x00000003, 0x00000002, 0x00000001)] : List (Word × Word × Word)).all (gives .gt) := by decide

theorem test_land_vectors :
    ([(0x00000002, 0x00000004, 0x00000001),
      (0x00000000, 0x00000007, 0x00000000),
      (0x80000000, 0xFFFFFFFF, 0x00000001)] : List (Word × Word × Word)).all (gives .land) := by decide

theorem test_lor_vectors :
    ([(0x00000000, 0x00000000, 0x00000000),
      (0x00000000, 0x80000000, 0x00000001)] : List (Word × Word × Word)).all (gives .lor) := by decide

theorem test_add_vectors :
    ([(0x7FFFFFFF, 0x00000001, 0x80000000),
      (0xFFFFFFFF, 0x00000001, 0x00000000),
      (0x80000000, 0x80000000, 0x00000000)] : List (Word × Word × Word)).all (gives .add) := by decide

theorem test_sub_vectors :
    ([(0x00000007, 0x0000000A, 0xFFFFFFFD),
      (0x80000000, 0x00000001, 0x7FFFFFFF),
      (0x00000000, 0x80000000, 0x80000000)] : List (Word × Word × Word)).all (gives .sub) := by decide

theorem test_mul_vectors :
    ([(0xFFFFFFFD, 0x00000003, 0xFFFFFFF7),
      (0x00010000, 0x00010000, 0x00000000),
      (0x7FFFFFFF, 0x00000002, 0xFFFFFFFE),
      (0x80000000, 0xFFFFFFFF, 0x80000000),
      (0x12345678, 0x9ABCDEF0, 0x242D2080)] : List (Word × Word × Word)).all (gives .mul) := by decide

theorem test_div_vectors :
    ([(0x00000007, 0x00000002, 0x00000003),
      (0xFFFFFFF9, 0x00000002, 0xFFFFFFFD),
      (0x00000007, 0xFFFFFFFE, 0xFFFFFFFD),
      (0xFFFFFFF9, 0xFFFFFFFE, 0x00000003),
      (0x80000000, 0xFFFFFFFF, 0x80000000),
      (0x00000000, 0x00000005, 0x00000000)] : List (Word × Word × Word)).all (gives .div) := by decide

theorem test_mod_vectors :
    ([(0x00000007, 0x00000002, 0x00000001),
      (0xFFFFFFF9, 0x00000002, 0xFFFFFFFF),
      (0x00000007, 0xFFFFFFFE, 0x00000001),
      (0xFFFFFFF9, 0xFFFFFFFE, 0xFFFFFFFF),
      (0x80000000, 0xFFFFFFFF, 0x00000000)] : List (Word × Word × Word)).all (gives .mod) := by decide

theorem test_pow_vectors :
    ([(0x00000002, 0x0000000A, 0x00000400),
      (0x00000002, 0x0000001F, 0x80000000),
      (0x00000002, 0x00000020, 0x00000000),
      (0x00000003, 0x00000000, 0x00000001),
      (0x00000000, 0x00000000, 0x00000001),
      (0x00000007, 0x00000000, 0x00000001),
      (0xFFFFFFFE, 0x00000003, 0xFFFFFFF8),
      (0x00000003, 0x00000015, 0x6F7C52B3),
      (0x00000002, 0xFFFFFFFF, 0x00000000),
      (0xFFFFFFFF, 0xFFFFFFFD, 0xFFFFFFFF),
      (0xFFFFFFFF, 0xFFFFFFFE, 0x00000001),
      (0x00000001, 0xFFFFFFFB, 0x00000001)] : List (Word × Word × Word)).all (gives .pow) := by decide

theorem test_operator_faults :
    faults Config.default .div 0x00000005 0x00000000 .divideByZero ∧
      faults Config.default .mod 0x00000005 0x00000000 .divideByZero ∧
      faults Config.default .pow 0x00000000 0xFFFFFFFF .divideByZero := by decide

/-- R128 and R129 under `SHIFT_COUNT = Fault`. -/
theorem test_shift_count_fault :
    faults cfgShiftFault .shr 1 32 .shiftCount ∧ faults cfgShiftFault .shl 1 0xFFFFFFFF .shiftCount ∧
      binop cfgShiftFault .shl 1 31 = .ok 0x80000000 := ⟨by decide, by decide, rfl⟩

/-- R146: 3^33 = 5559060566555523 is below 2^53, so it is wrapped exactly. -/
theorem test_pow_float64_agrees :
    binop cfgFloat .pow 3 33 = .ok 0xA65ABB83 := rfl

/-! ### One step for each instruction: 95_test_vectors.md sections 3 to 5 -/

theorem test_nop :
    after (stepAt (st 1 2 []) 0x00000000) (fun s => (s.pc, s.l, s.r, s.status)) =
      some (0x00800001, 1, 2, .running) := by decide

theorem test_ldsL :
    after (stepAt (st 0 9 [(0x00800005, 0x2A)]) 0x10000005) (fun s => (s.pc, s.l, s.r)) =
      some (0x00800001, 0x2A, 9) := by decide

theorem test_ldsR_device :
    after (stepAt (withReplies [.word 0x1234] []) 0x11FFFFFF) (fun s => (s.l, s.r, s.deviceHistory)) =
      some (0, 0x1234, [.read 0x007FFFFF 0x1234]) := by decide

theorem test_stsL :
    after (stepAt (st 0xFFFFFFF7 0 []) 0x12000010) (fun s => (s.pc, s.mem)) =
      some (0x00800001, [(0x00800000, 0x12000010), (0x00800010, 0xFFFFFFF7)]) := by decide

theorem test_stsR_device :
    after (stepAt (st 0 0x2A []) 0x13FFFFFF) (fun s => (s.mem, s.deviceHistory)) =
      some ([(0x00800000, 0x13FFFFFF)], [.write 0x007FFFFF 0x2A]) := by decide

theorem test_ldsiL :
    after (stepAt (st 0 1 [(0x00800007, 0x00810004), (0x00810004, 9)]) 0x14000007) (fun s => (s.l, s.r)) =
      some (9, 1) := by decide

theorem test_ldsiR :
    after (stepAt (st 1 0 [(0x00800007, 0x00810004), (0x00810004, 9)]) 0x15000007) (fun s => (s.l, s.r)) =
      some (1, 9) := by decide

theorem test_stsiL :
    after (stepAt (st 5 6 [(0x00800007, 0x00810004)]) 0x16000007) (fun s => s.mem.read 0x00810004) =
      some (some 5) := by decide

theorem test_stsiR :
    after (stepAt (st 5 0xFFFFFFFF [(0x00800007, 0x00810004)]) 0x17000007) (fun s => s.mem.read 0x00810004) =
      some (some 0xFFFFFFFF) := by decide

theorem test_ldfL :
    after (stepAt ({ st 0 0 [(0x00810002, 5)] with spl := 0x00810001 }) 0x20000001) (fun s => (s.l, s.r)) =
      some (5, 0) := by decide

theorem test_ldfR :
    after (stepAt ({ st 0 0 [(0x00810000, 0x00800001)] with spl := 0x00810001 }) 0x21FFFFFF) (fun s => (s.l, s.r)) =
      some (0, 0x00800001) := by decide

theorem test_stfL :
    after (stepAt ({ st 5 6 [] with spl := 0x00810001 }) 0x22000004) (fun s => s.mem.read 0x00810005) =
      some (some 5) := by decide

theorem test_stfR :
    after (stepAt (st 0 0x0080000D []) 0x23000001) (fun s => s.mem.read 0x00810001) =
      some (some 0x0080000D) := by decide

theorem test_ldfiL :
    after (stepAt (st 0 1 [(0x0080000D, 42), (0x00810001, 0x0080000D)]) 0x24000001) (fun s => (s.l, s.r)) =
      some (42, 1) := by decide

theorem test_ldfiR :
    after (stepAt (st 1 0 [(0x0080000D, 42), (0x00810001, 0x0080000D)]) 0x25000001) (fun s => (s.l, s.r)) =
      some (1, 42) := by decide

theorem test_stfiL :
    after (stepAt (st 7 8 [(0x00810001, 0x0080000D)]) 0x26000001) (fun s => s.mem.read 0x0080000D) =
      some (some 7) := by decide

theorem test_stfiR_out_of_range :
    after (stepAt (st 7 8 [(0x00810001, 0xFFFFFFFF)]) 0x27000001) (fun s => (s.pc, s.status, s.mem.read 0x00810001)) =
      some (0x00800000, .faulted .addressOutOfRange 0x00800000 (.int (-1)), some 0xFFFFFFFF) := by decide

theorem test_stfiR :
    after (stepAt (st 7 8 [(0x00810001, 0x0080000D)]) 0x27000001) (fun s => s.mem.read 0x0080000D) =
      some (some 8) := by decide

theorem test_uopLBnot :
    after (stepAt (st 0x7FFFFFFF 9 []) 0x30000000) (fun s => (s.pc, s.l, s.r)) =
      some (0x00800001, 0x80000000, 9) := by decide

theorem test_uopLLnot :
    after (stepAt (st 0x7FFFFFFF 9 []) 0x30010000) (fun s => (s.pc, s.l, s.r)) =
      some (0x00800001, 0, 9) := by decide

theorem test_uopRBnot :
    after (stepAt (st 0x7FFFFFFF 9 []) 0x31000000) (fun s => (s.pc, s.l, s.r)) =
      some (0x00800001, 0x7FFFFFFF, 0x80000000) := by decide

theorem test_uopRLnot :
    after (stepAt (st 0x7FFFFFFF 9 []) 0x31010000) (fun s => (s.pc, s.l, s.r)) =
      some (0x00800001, 0x7FFFFFFF, 0) := by decide

theorem test_bopLShr :
    after (stepAt (st 0xFFFFFFF7 0x00000001 []) 0x32100000) (fun s => (s.pc, s.l, s.r)) =
      some (0x00800001, 0xFFFFFFFB, 0x00000001) := by decide

theorem test_bopRShr :
    after (stepAt (st 0x7FFFFFFF 0x0000001F []) 0x33100000) (fun s => (s.pc, s.l, s.r)) =
      some (0x00800001, 0x7FFFFFFF, 0x00000000) := by decide

theorem test_bopLShl :
    after (stepAt (st 0x00000001 0x0000001F []) 0x32110000) (fun s => (s.pc, s.l, s.r)) =
      some (0x00800001, 0x80000000, 0x0000001F) := by decide

theorem test_bopRShl :
    after (stepAt (st 0x00000005 0x00000002 []) 0x33110000) (fun s => (s.pc, s.l, s.r)) =
      some (0x00800001, 0x00000005, 0x00000014) := by decide

theorem test_bopLAnd :
    after (stepAt (st 0xF0F0F0F0 0x0FF00FF0 []) 0x32120000) (fun s => (s.pc, s.l, s.r)) =
      some (0x00800001, 0x00F000F0, 0x0FF00FF0) := by decide

theorem test_bopRAnd :
    after (stepAt (st 0xF0F0F0F0 0x0FF00FF0 []) 0x33120000) (fun s => (s.pc, s.l, s.r)) =
      some (0x00800001, 0xF0F0F0F0, 0x00F000F0) := by decide

theorem test_bopLOr :
    after (stepAt (st 0xF0F0F0F0 0x0FF00FF0 []) 0x32130000) (fun s => (s.pc, s.l, s.r)) =
      some (0x00800001, 0xFFF0FFF0, 0x0FF00FF0) := by decide

theorem test_bopROr :
    after (stepAt (st 0xF0F0F0F0 0x0FF00FF0 []) 0x33130000) (fun s => (s.pc, s.l, s.r)) =
      some (0x00800001, 0xF0F0F0F0, 0xFFF0FFF0) := by decide

theorem test_bopLXor :
    after (stepAt (st 0xF0F0F0F0 0x0FF00FF0 []) 0x32140000) (fun s => (s.pc, s.l, s.r)) =
      some (0x00800001, 0xFF00FF00, 0x0FF00FF0) := by decide

theorem test_bopRXor :
    after (stepAt (st 0xF0F0F0F0 0x0FF00FF0 []) 0x33140000) (fun s => (s.pc, s.l, s.r)) =
      some (0x00800001, 0xF0F0F0F0, 0xFF00FF00) := by decide

theorem test_bopLEq :
    after (stepAt (st 0x00000005 0x00000006 []) 0x32200000) (fun s => (s.pc, s.l, s.r)) =
      some (0x00800001, 0x00000000, 0x00000006) := by decide

theorem test_bopREq :
    after (stepAt (st 0x00000005 0x00000006 []) 0x33200000) (fun s => (s.pc, s.l, s.r)) =
      some (0x00800001, 0x00000005, 0x00000000) := by decide

theorem test_bopLNe :
    after (stepAt (st 0x00000005 0x00000006 []) 0x32210000) (fun s => (s.pc, s.l, s.r)) =
      some (0x00800001, 0x00000001, 0x00000006) := by decide

theorem test_bopRNe :
    after (stepAt (st 0x00000005 0x00000006 []) 0x33210000) (fun s => (s.pc, s.l, s.r)) =
      some (0x00800001, 0x00000005, 0x00000001) := by decide

theorem test_bopLLe :
    after (stepAt (st 0x00000001 0xFFFFFFFF []) 0x32220000) (fun s => (s.pc, s.l, s.r)) =
      some (0x00800001, 0x00000000, 0xFFFFFFFF) := by decide

theorem test_bopRLe :
    after (stepAt (st 0x00000001 0xFFFFFFFF []) 0x33220000) (fun s => (s.pc, s.l, s.r)) =
      some (0x00800001, 0x00000001, 0x00000000) := by decide

theorem test_bopLGe :
    after (stepAt (st 0x80000000 0x7FFFFFFF []) 0x32230000) (fun s => (s.pc, s.l, s.r)) =
      some (0x00800001, 0x00000000, 0x7FFFFFFF) := by decide

theorem test_bopRGe :
    after (stepAt (st 0x00000004 0x00000003 []) 0x33230000) (fun s => (s.pc, s.l, s.r)) =
      some (0x00800001, 0x00000004, 0x00000001) := by decide

theorem test_bopLLt :
    after (stepAt (st 0xFFFFFFFF 0x00000000 []) 0x32240000) (fun s => (s.pc, s.l, s.r)) =
      some (0x00800001, 0x00000001, 0x00000000) := by decide

theorem test_bopRLt :
    after (stepAt (st 0x00000005 0x00000002 []) 0x33240000) (fun s => (s.pc, s.l, s.r)) =
      some (0x00800001, 0x00000005, 0x00000000) := by decide

theorem test_bopLGt :
    after (stepAt (st 0x00000000 0x80000000 []) 0x32250000) (fun s => (s.pc, s.l, s.r)) =
      some (0x00800001, 0x00000001, 0x80000000) := by decide

theorem test_bopRGt :
    after (stepAt (st 0x00000003 0x00000002 []) 0x33250000) (fun s => (s.pc, s.l, s.r)) =
      some (0x00800001, 0x00000003, 0x00000001) := by decide

theorem test_bopLLand :
    after (stepAt (st 0x00000002 0x00000004 []) 0x32260000) (fun s => (s.pc, s.l, s.r)) =
      some (0x00800001, 0x00000001, 0x00000004) := by decide

theorem test_bopRLand :
    after (stepAt (st 0x80000000 0xFFFFFFFF []) 0x33260000) (fun s => (s.pc, s.l, s.r)) =
      some (0x00800001, 0x80000000, 0x00000001) := by decide

theorem test_bopLLor :
    after (stepAt (st 0x00000000 0x80000000 []) 0x32270000) (fun s => (s.pc, s.l, s.r)) =
      some (0x00800001, 0x00000001, 0x80000000) := by decide

theorem test_bopRLor :
    after (stepAt (st 0x00000000 0x80000000 []) 0x33270000) (fun s => (s.pc, s.l, s.r)) =
      some (0x00800001, 0x00000000, 0x00000001) := by decide

theorem test_bopLAdd :
    after (stepAt (st 0x7FFFFFFF 0x00000001 []) 0x32300000) (fun s => (s.pc, s.l, s.r)) =
      some (0x00800001, 0x80000000, 0x00000001) := by decide

theorem test_bopRAdd :
    after (stepAt (st 0xFFFFFFFF 0x00000001 []) 0x33300000) (fun s => (s.pc, s.l, s.r)) =
      some (0x00800001, 0xFFFFFFFF, 0x00000000) := by decide

theorem test_bopLSub :
    after (stepAt (st 0x00000007 0x0000000A []) 0x32310000) (fun s => (s.pc, s.l, s.r)) =
      some (0x00800001, 0xFFFFFFFD, 0x0000000A) := by decide

theorem test_bopRSub :
    after (stepAt (st 0x80000000 0x00000001 []) 0x33310000) (fun s => (s.pc, s.l, s.r)) =
      some (0x00800001, 0x80000000, 0x7FFFFFFF) := by decide

theorem test_bopLMul :
    after (stepAt (st 0xFFFFFFFD 0x00000003 []) 0x32320000) (fun s => (s.pc, s.l, s.r)) =
      some (0x00800001, 0xFFFFFFF7, 0x00000003) := by decide

theorem test_bopRMul :
    after (stepAt (st 0x12345678 0x9ABCDEF0 []) 0x33320000) (fun s => (s.pc, s.l, s.r)) =
      some (0x00800001, 0x12345678, 0x242D2080) := by decide

theorem test_bopLDiv :
    after (stepAt (st 0x00000007 0x00000002 []) 0x32330000) (fun s => (s.pc, s.l, s.r)) =
      some (0x00800001, 0x00000003, 0x00000002) := by decide

theorem test_bopRDiv :
    after (stepAt (st 0xFFFFFFF9 0xFFFFFFFE []) 0x33330000) (fun s => (s.pc, s.l, s.r)) =
      some (0x00800001, 0xFFFFFFF9, 0x00000003) := by decide

theorem test_bopLMod :
    after (stepAt (st 0x00000007 0x00000002 []) 0x32340000) (fun s => (s.pc, s.l, s.r)) =
      some (0x00800001, 0x00000001, 0x00000002) := by decide

theorem test_bopRMod :
    after (stepAt (st 0x80000000 0xFFFFFFFF []) 0x33340000) (fun s => (s.pc, s.l, s.r)) =
      some (0x00800001, 0x80000000, 0x00000000) := by decide

theorem test_bopLPow :
    after (stepAt (st 0x00000002 0x0000000A []) 0x32350000) (fun s => (s.pc, s.l, s.r)) =
      some (0x00800001, 0x00000400, 0x0000000A) := by decide

theorem test_bopRPow :
    after (stepAt (st 0xFFFFFFFF 0xFFFFFFFE []) 0x33350000) (fun s => (s.pc, s.l, s.r)) =
      some (0x00800001, 0xFFFFFFFF, 0x00000001) := by decide

theorem test_swap :
    after (stepAt (st 7 0 []) 0x34000000) (fun s => (s.pc, s.l, s.r)) =
      some (0x00800001, 0, 7) := by decide

theorem test_brl_taken :
    after (stepAt ({ st 1 0 [] with pc := 0x0080000E }) 0x4000001A) (fun s => s.pc) =
      some 0x0080001A := by decide

theorem test_brl_not_taken :
    after (stepAt ({ st 0 1 [] with pc := 0x0080000E }) 0x4000001A) (fun s => s.pc) =
      some 0x0080000F := by decide

theorem test_brr_taken :
    after (stepAt (st 0 42 []) 0x4100000B) (fun s => s.pc) =
      some 0x0080000B := by decide

theorem test_brr_not_taken :
    after (stepAt (st 42 0 []) 0x4100000B) (fun s => s.pc) =
      some 0x00800001 := by decide

theorem test_jmp :
    after (stepAt ({ st 0 0 [] with pc := 0x0080000E }) 0x42000000) (fun s => s.pc) =
      some 0x00800000 := by decide

theorem test_jmp_to_halt :
    after (stepAt (st 0 0 []) 0x42FFFFFF) (fun s => (s.pc, s.status)) =
      some (0x007FFFFF, .running) := by decide

theorem test_call :
    after (stepAt (st 0 0 [(0x00800002, 3)]) 0x43000003) (fun s => (s.pc, s.spl, s.spr, s.mem.read 0x00810000, s.mem.read 0x00810001)) =
      some (0x00800003, 0x00810001, 0x00810004, some 0x00800001, some 0x00810000) := by decide

theorem test_ret :
    after (stepAt ({ st 0 0 [(0x00810000, 0x00800001), (0x00810001, 0x00810000)] with spl := 0x00810001, spr := 0x00810004 }) 0x44000000) (fun s => (s.pc, s.spl, s.spr)) =
      some (0x00800001, 0x00810000, 0x00810001) := by decide

/-! ### Faults, halt and start -/

theorem test_ldsL_unwritten :
    after (stepAt (st 0 0 []) 0x10000001) (fun s => s.status) =
      some (.faulted .uninitializedRead 0x00800000 (.int 0x00800001)) := by decide

theorem test_ret_at_reset :
    after (stepAt (st 0 0 []) 0x44000000) (fun s => s.status) =
      some (.faulted .uninitializedRead 0x00800000 (.int 0x00810000)) := by decide

theorem test_call_bad_frame_size :
    after (stepAt (st 0 0 [(0x00800002, 0xFFFFFFFF)]) 0x43000003) (fun s => (s.status, s.spl, s.spr)) =
      some (.faulted .badFrameSize 0x00800000 (.word 0xFFFFFFFF), 0x00810000, 0x00810001) := by decide

theorem test_call_stack_overflow :
    after (stepAt (st 0 0 [(0x00800002, 0x00FFFFFF)]) 0x43000003) (fun s => (s.status, s.mem.read 0x00810000)) =
      some (.faulted .stackOverflow 0x00800000 (.int 0x01810000), none) := by decide

theorem test_call_below_code_base :
    after (stepAt (withReplies [.word 0] []) 0x43FFFFFF) (fun s => (s.pc, s.spl, s.spr, s.deviceHistory)) =
      some (0x007FFFFF, 0x00810001, 0x00810001, [.read 0x007FFFFE 0]) := by decide

theorem test_div_by_zero :
    after (stepAt ({ st 5 0 [] with pc := 0x00800002 }) 0x32330000) (fun s => (s.status, s.pc, s.l)) =
      some (.faulted .divideByZero 0x00800002 (.word 0x32330000), 0x00800002, 5) := by decide

theorem test_mod_by_zero :
    after (stepAt ({ st 5 0 [] with pc := 0x00800002 }) 0x33340000) (fun s => (s.status, s.pc, s.r)) =
      some (.faulted .divideByZero 0x00800002 (.word 0x33340000), 0x00800002, 0) := by decide

theorem test_shift_count_fault_record :
    after (stepAt ({ st 1 32 [] with cfg := cfgShiftFault }) 0x3210ABCD) (fun s => s.status) =
      some (.faulted .shiftCount 0x00800000 (.word 0x3210ABCD)) := by decide

theorem test_illegal_opcode :
    after (stepAt (st 0 0 []) 0x05000000) (fun s => (s.status, s.pc)) =
      some (.faulted .illegalOpcode 0x00800000 (.word 0x05000000), 0x00800000) := by decide

theorem test_illegal_operator :
    after (stepAt (st 0 0 []) 0x32000000) (fun s => s.status) =
      some (.faulted .illegalOperator 0x00800000 (.word 0x32000000)) := by decide

theorem test_fetch_at_top :
    after (step { st 0 0 [] with pc := 0x00FFFFFF }) (fun s => s.status) =
      some (.faulted .uninitializedRead 0x00FFFFFF (.int 0x00FFFFFF)) := by decide

/-- R25: "a PC at or above `MEM_SIZE` faults at the next fetch". -/
theorem test_pc_past_the_top_faults :
    after (step { State.reset with pc := 0x80000000, pcAbove := true, cfg := cfgLarge }) (fun s => (s.status, s.pc)) =
      some (.faulted .addressOutOfRange 0x80000000 (.int 0x80000000), 0x80000000) := by decide

theorem test_halt_below_code_base :
    after (step { st 1 0 [] with pc := 0x007FFFFB }) (fun s => (s.status, s.pc, s.l)) =
      some (.halted, 0x007FFFFB, 1) := by decide

theorem test_unanswered_read_sticks :
    sticks (stepAt (withReplies [.silent] []) 0x11FFFFFF) = true := by decide

/-- R20 under the defaults of R7. -/
theorem test_reset_values :
    (State.reset.pc, State.reset.l, State.reset.r, State.reset.spl, State.reset.spr, State.reset.status) =
      (0x00800000, 0, 0, 0x00810000, 0x00810001, .running) := by decide

theorem test_start_loads_image :
    after (State.start Config.default [] [0x10000001, 7]) (fun s => (s.pc, s.mem)) =
      some (0x00800000, [(0x00800000, 0x10000001), (0x00800001, 7)]) := by decide

/-! ### The assembler: program P2 of 95_test_vectors.md section 6 -/

/-- EX7: `BRL body` encodes offset 3. -/
theorem test_assemble_loop :
    assemble Config.default
      [.tag "top", .symbolic .ldsL "n", .symbolic .brl "body", .symbolic .jmp "end",
       .tag "body", .symbolic .ldsL "sum", .symbolic .ldsR "n", .instr (.bopLAdd 0), .symbolic .stsL "sum",
       .symbolic .ldsL "n", .symbolic .ldsR "one", .instr (.bopLSub 0), .symbolic .stsL "n", .symbolic .jmp "top",
       .tag "end", .symbolic .ldsL "sum", .halt,
       .tag "n", .data 5, .tag "sum", .data 0, .tag "one", .data 1] =
      some [0x1000000E, 0x40000003, 0x4200000C, 0x1000000F, 0x1100000E, 0x32300000, 0x1200000F, 0x1000000E,
        0x11000010, 0x32310000, 0x1200000E, 0x42000000, 0x1000000F, 0x42FFFFFF, 5, 0, 1] := rfl

/-- R75 -/
theorem test_assemble_undefined_tag :
    assemble Config.default [.symbolic .jmp "nowhere"] = none := rfl

/-! ### Witnesses: states and operands that meet the hypotheses of the obligations -/

theorem witness_DecodeEncodeRoundTrip :
    Config.default.Valid ∧ WellFormed (.ldsL (-8388608)) ∧ WellFormed (.call 8388607) ∧ WellFormed (.bopRPow 0xFFFF) := by decide

theorem witness_EncodeDecodeRoundTrip :
    decode Config.default 0x10FFFFFF = .ok (.ldsL (-1)) ∧ decode Config.default 0x3230FFFF = .ok (.bopLAdd 0xFFFF) := ⟨rfl, rfl⟩

theorem witness_DecodeErrorsExactly :
    Config.default.OpmapValid ∧ decode Config.default 0x05000000 = .error .illegalOpcode ∧
      decode Config.default 0x32000000 = .error .illegalOperator := ⟨by decide, rfl, rfl⟩

theorem witness_AssemblerWritesTheseWords :
    Instr.ofOffset .ldsL (-1) = some (.ldsL (-1)) := rfl

/-- An offset just above the range. -/
theorem witness_MaskedOffsetsDecodeSignExtended :
    Config.default.OpmapValid ∧ Instr.ofOffset .ldsL 0x800000 = some (.ldsL 0x800000) := ⟨by decide, rfl⟩

theorem witness_MaskedOffsetsDecodeSignExtended_in_range :
    Config.default.OpmapValid ∧ Instr.ofOffset .jmp (-2 ^ 23) = some (.jmp (-2 ^ 23)) ∧
      (-2 ^ 23 : Int) ≤ -2 ^ 23 ∧ (-2 ^ 23 : Int) < 2 ^ 23 := ⟨by decide, rfl, by decide, by decide⟩

theorem witness_ShiftOperators_mask5 :
    (st 0x80000000 0xFFFFFFFF []).cfg.shiftCount = .mask5 := rfl

theorem witness_ShiftOperators_in_range :
    let s : State := { st 1 31 [] with cfg := cfgShiftFault }
    s.cfg.shiftCount = .fault ∧ 0 ≤ sint32 s.r ∧ sint32 s.r ≤ 31 := by decide

theorem witness_ShiftOperators_out_of_range :
    let s : State := { st 1 32 [] with cfg := cfgShiftFault }
    s.cfg.shiftCount = .fault ∧ (sint32 s.r < 0 ∨ 31 < sint32 s.r) ∧ decode s.cfg 0x3210ABCD = .ok (.bopLShr 0xABCD) ∧
      decode s.cfg 0x3310ABCD = .ok (.bopRShr 0xABCD) ∧ decode s.cfg 0x3211ABCD = .ok (.bopLShl 0xABCD) ∧
      decode s.cfg 0x3311ABCD = .ok (.bopRShl 0xABCD) := ⟨rfl, by decide, rfl, rfl, rfl, rfl⟩

theorem witness_ShiftOperators_negative :
    let s : State := { st 1 0xFFFFFFFF [] with cfg := cfgShiftFault }
    s.cfg.shiftCount = .fault ∧ (sint32 s.r < 0 ∨ 31 < sint32 s.r) := by decide

theorem witness_DivModOperators :
    (st 0x80000000 0xFFFFFFFF []).r ≠ 0 := by decide

theorem witness_DivModOperators_zero :
    (st 5 0 []).r = 0 ∧ decode (st 5 0 []).cfg 0x32330001 = .ok (.bopLDiv 1) ∧ decode (st 5 0 []).cfg 0x33330001 = .ok (.bopRDiv 1) ∧
      decode (st 5 0 []).cfg 0x32340001 = .ok (.bopLMod 1) ∧ decode (st 5 0 []).cfg 0x33340001 = .ok (.bopRMod 1) := ⟨rfl, rfl, rfl, rfl, rfl⟩

theorem witness_PowExactWrap :
    let s := st 0xFFFFFFFE 3 []
    s.cfg.powMode = .exactWrap ∧ powExact (sint32 s.l) (sint32 s.r) = some (-8) := by decide

theorem witness_PowExactWrap_negative_exponent :
    let s := st 0xFFFFFFFF 0xFFFFFFFD []
    s.cfg.powMode = .exactWrap ∧ powExact (sint32 s.l) (sint32 s.r) = some (-1) := by decide

theorem witness_PowExactWrap_fault :
    let s := st 0 0xFFFFFFFF []
    s.cfg.powMode = .exactWrap ∧ powExact (sint32 s.l) (sint32 s.r) = none ∧
      decode s.cfg 0x32350000 = .ok (.bopLPow 0) ∧ decode s.cfg 0x33350000 = .ok (.bopRPow 0) := ⟨rfl, rfl, rfl, rfl⟩

theorem witness_PowFloat64_exact :
    let s : State := { st 2 53 [] with cfg := cfgFloat }
    s.cfg.powMode = .float64 ∧ powExact (sint32 s.l) (sint32 s.r) = some (2 ^ 53) ∧ ((2 : Int) ^ 53).natAbs ≤ 2 ^ 53 := by decide

theorem witness_PowFloat64_open :
    let s : State := { st 2 54 [] with cfg := cfgFloat }
    s.cfg.powMode = .float64 ∧ powExact (sint32 s.l) (sint32 s.r) = some (2 ^ 54) := by decide

theorem witness_PowFloat64_fault :
    let s : State := { st 0 0xFFFFFFFF [] with cfg := cfgFloat }
    s.cfg.powMode = .float64 ∧ powExact (sint32 s.l) (sint32 s.r) = none ∧ decode s.cfg 0x32350000 = .ok (.bopLPow 0) ∧
      decode s.cfg 0x33350000 = .ok (.bopRPow 0) := ⟨rfl, rfl, rfl, rfl⟩

theorem witness_SwapExchanges :
    let s := st 7 7 []
    s.l = s.r ∧ exec (.swap 0) s = .next { s with pc := 0x00800001 } ∧
      exec (.swap 1) { s with pc := 0x00800001 } = .next { s with pc := 0x00800002 } := ⟨rfl, rfl, rfl⟩

theorem witness_BranchesAndJump :
    (st 1 0 []).l ≠ 0 ∧ (st 1 0 []).r = 0 ∧ (st 0 1 []).l = 0 ∧ (st 0 1 []).r ≠ 0 := by decide

/-- The last plain word, by the largest offset. -/
theorem witness_DirectLoads_static :
    let s := st 0 0 [(0x00FFFFFF, 0x2A)]
    ReadGives s (s.cfg.codeBase + 8388607) 0x2A s := .inl ⟨by decide, rfl⟩

/-- Address 0, by the smallest offset. -/
theorem witness_DirectLoads_static_device :
    let s := withReplies [.word 0x1234] []
    ReadGives s (s.cfg.codeBase + (-8388608)) 0x1234 { State.reset with deviceHistory := [.read 0 0x1234] } := .inr ⟨by decide, .inl rfl, rfl⟩

/-- The last device word, with no reply laid down. -/
theorem witness_DirectLoads_static_oracle :
    ReadGives State.reset (State.reset.cfg.codeBase + (-1)) (Config.deviceAnswer [] 0x007FFFFF)
      { State.reset with deviceHistory := [.read 0x007FFFFF (Config.deviceAnswer [] 0x007FFFFF)] } := .inr ⟨by decide, .inr ⟨rfl, rfl⟩, rfl⟩

/-- The first plain word. -/
theorem witness_DirectLoads_frame :
    let s := st 0 0 [(0x00800000, 0x2A)]
    ReadGives s (sint32 s.spl + (-0x10000)) 0x2A s := .inl ⟨by decide, rfl⟩

theorem witness_DirectLoads_frame_device :
    let s := withReplies [.word 3] []
    ReadGives s (sint32 s.spl + (-0x10001)) 3 { State.reset with deviceHistory := [.read 0x007FFFFF 3] } := .inr ⟨by decide, .inl rfl, rfl⟩

theorem witness_IndirectLoads_static :
    let s := st 0 0 [(0x00800007, 0x00810004), (0x00810004, 9)]
    ReadGives s (s.cfg.codeBase + 7) 0x00810004 s ∧ ReadGives s (sint32 0x00810004) 9 s := ⟨.inl ⟨by decide, rfl⟩, .inl ⟨by decide, rfl⟩⟩

theorem witness_IndirectLoads_frame :
    let s := st 0 0 [(0x0080000D, 42), (0x00810001, 0x0080000D)]
    ReadGives s (sint32 s.spl + 1) 0x0080000D s ∧ ReadGives s (sint32 0x0080000D) 42 s := ⟨.inl ⟨by decide, rfl⟩, .inl ⟨by decide, rfl⟩⟩

theorem witness_IndirectLoads_two_device_reads :
    let s := withReplies [.word 1, .word 2] []
    let t : State := { State.reset with deviceHistory := [.read 0 1], deviceReplies := [.word 2] }
    ReadGives s (s.cfg.codeBase + (-8388608)) 1 t ∧
      ReadGives t (sint32 1) 2 { State.reset with deviceHistory := [.read 0 1, .read 1 2] } := ⟨.inr ⟨by decide, .inl rfl, rfl⟩, .inr ⟨by decide, .inl rfl, rfl⟩⟩

theorem witness_DirectStores_static :
    let s := st 1 2 []
    ¬ s.OutsideAddr (s.cfg.codeBase + 8388607) ∧ s.PlainAddr (s.cfg.codeBase + 8388607) ∧
      ¬ s.OutsideAddr (s.cfg.codeBase + (-8388608)) ∧ s.DeviceAddr (s.cfg.codeBase + (-8388608)) := by decide

theorem witness_DirectStores_frame :
    let s := st 1 2 []
    ¬ s.OutsideAddr (sint32 s.spl + (-0x10000)) ∧ s.PlainAddr (sint32 s.spl + (-0x10000)) ∧
      ¬ s.OutsideAddr (sint32 s.spl + (-0x10001)) ∧ s.DeviceAddr (sint32 s.spl + (-0x10001)) := by decide

theorem witness_IndirectStores_static :
    let s := st 1 2 [(0x00800007, 0x00FFFFFF)]
    ¬ s.OutsideAddr (sint32 0x00FFFFFF) ∧ ReadGives s (s.cfg.codeBase + 7) 0x00FFFFFF s := ⟨by decide, .inl ⟨by decide, rfl⟩⟩

/-- A pointer to device address 0. -/
theorem witness_IndirectStores_frame :
    let s := st 1 2 [(0x00810001, 0)]
    ¬ s.OutsideAddr (sint32 0) ∧ ReadGives s (sint32 s.spl + 1) 0 s := ⟨by decide, .inl ⟨by decide, rfl⟩⟩

theorem witness_FirstAccessFaults_static :
    let s : State := { State.reset with cfg := cfgSmall }
    ReadFaults s (s.cfg.codeBase + 0x100000) .addressOutOfRange ∧ s.OutsideAddr (s.cfg.codeBase + 0x100000) ∧
      ReadFaults s (s.cfg.codeBase + 0xFFFFF) .uninitializedRead := ⟨.inl ⟨by decide, rfl⟩, by decide, .inr ⟨by decide, rfl⟩⟩

theorem witness_FirstAccessFaults_frame :
    let s : State := { State.reset with spl := 0 }
    ReadFaults s (sint32 s.spl + (-1)) .addressOutOfRange ∧ s.OutsideAddr (sint32 s.spl + (-1)) ∧
      ReadFaults State.reset (sint32 State.reset.spl + 0) .uninitializedRead := ⟨.inl ⟨by decide, rfl⟩, by decide, .inr ⟨by decide, rfl⟩⟩

/-- "no wrap": the first address above the space. -/
theorem witness_SecondAccessFaults_static :
    let s := st 0 0 [(0x00800007, 0x01000000)]
    ReadGives s (s.cfg.codeBase + 7) 0x01000000 s ∧ ReadFaults s (sint32 0x01000000) .addressOutOfRange ∧
      s.OutsideAddr (sint32 0x01000000) := ⟨.inl ⟨by decide, rfl⟩, .inl ⟨by decide, rfl⟩, by decide⟩

theorem witness_SecondAccessFaults_frame :
    let s := st 0 0 [(0x00810001, 0xFFFFFFFF)]
    ReadGives s (sint32 s.spl + 1) 0xFFFFFFFF s ∧ ReadFaults s (sint32 0xFFFFFFFF) .addressOutOfRange ∧
      s.OutsideAddr (sint32 0xFFFFFFFF) := ⟨.inl ⟨by decide, rfl⟩, .inl ⟨by decide, rfl⟩, by decide⟩

theorem witness_SecondAccessFaults_unwritten :
    let s := st 0 0 [(0x00800007, 0x00810004)]
    ReadGives s (s.cfg.codeBase + 7) 0x00810004 s ∧ ReadFaults s (sint32 0x00810004) .uninitializedRead := ⟨.inl ⟨by decide, rfl⟩, .inr ⟨by decide, rfl⟩⟩

theorem witness_UnansweredReadsStick_first :
    let s := withReplies [.silent] []
    ReadSticks s (s.cfg.codeBase + (-1)) ∧ ReadSticks s (sint32 s.spl + (-0x10001)) ∧ ReadSticks s (s.cfg.codeBase + 0 - 1) := ⟨⟨by decide, rfl⟩, ⟨by decide, rfl⟩, ⟨by decide, rfl⟩⟩

theorem witness_UnansweredReadsStick_ret :
    let s : State := { withReplies [.silent] [] with spl := 0 }
    ReadSticks s (sint32 s.spl) := ⟨by decide, rfl⟩

theorem witness_UnansweredReadsStick_second :
    let s := withReplies [.silent] [(0x00800007, 5), (0x00810001, 5)]
    ReadSticks s (sint32 5) ∧ ReadGives s (s.cfg.codeBase + 7) 5 s ∧ ReadGives s (sint32 s.spl + 1) 5 s := ⟨⟨by decide, rfl⟩, .inl ⟨by decide, rfl⟩, .inl ⟨by decide, rfl⟩⟩

theorem witness_UnansweredReadsStick_ret_second :
    let s : State := { withReplies [.silent] [(0x00800000, 5)] with spl := 0x00800000 }
    ReadGives s (sint32 s.spl) 5 s ∧ ReadSticks s (sint32 s.spl - 1) := ⟨.inl ⟨by decide, rfl⟩, by decide, rfl⟩

/-- The return slot is `STACK_BASE` and the frame ends at `MEM_SIZE`, both to the word. -/
theorem witness_CallEntersFrame :
    let s := st 0 0 [(0x00800002, 0x007EFFFF)]
    s.cfg.SizesValid ∧ ReadGives s (s.cfg.codeBase + 3 - 1) 0x007EFFFF s ∧ 0 ≤ sint32 0x007EFFFF ∧
      s.cfg.stackBase ≤ sint32 s.spr - 1 ∧ sint32 s.spr + sint32 0x007EFFFF ≤ s.cfg.memSize ∧ sint32 s.spr < s.cfg.memSize := ⟨by decide, .inl ⟨by decide, rfl⟩, by decide, by decide, by decide, by decide⟩

theorem witness_CallFaultsInOrder_read :
    State.reset.cfg.SizesValid ∧ ReadFaults State.reset (State.reset.cfg.codeBase + 3 - 1) .uninitializedRead := ⟨by decide, .inr ⟨by decide, rfl⟩⟩

theorem witness_CallFaultsInOrder_bad_size :
    let s := st 0 0 [(0x00800002, 0xFFFFFFFF)]
    s.cfg.SizesValid ∧ ReadGives s (s.cfg.codeBase + 3 - 1) 0xFFFFFFFF s ∧ sint32 0xFFFFFFFF < 0 := ⟨by decide, .inl ⟨by decide, rfl⟩, by decide⟩

/-- One word too many. -/
theorem witness_CallFaultsInOrder_overflow :
    let s := st 0 0 [(0x00800002, 0x007F0000)]
    s.cfg.SizesValid ∧ ReadGives s (s.cfg.codeBase + 3 - 1) 0x007F0000 s ∧ 0 ≤ sint32 0x007F0000 ∧
      (sint32 s.spr - 1 < s.cfg.stackBase ∨ s.cfg.memSize < sint32 s.spr + sint32 0x007F0000) := ⟨by decide, .inl ⟨by decide, rfl⟩, by decide, by decide⟩

theorem witness_CallFaultsInOrder_underflow :
    let s : State := { st 0 0 [(0x00800002, 0)] with spr := 0x00810000 }
    s.cfg.SizesValid ∧ ReadGives s (s.cfg.codeBase + 3 - 1) 0 s ∧ 0 ≤ sint32 0 ∧
      (sint32 s.spr - 1 < s.cfg.stackBase ∨ s.cfg.memSize < sint32 s.spr + sint32 0) := ⟨by decide, .inl ⟨by decide, rfl⟩, by decide, by decide⟩

theorem witness_CallFaultsInOrder_second_write :
    let s : State := { st 0 0 [(0x00800002, 0)] with spr := 0x01000000 }
    s.cfg.SizesValid ∧ ReadGives s (s.cfg.codeBase + 3 - 1) 0 s ∧ sint32 0 = 0 ∧ sint32 s.spr = s.cfg.memSize := ⟨by decide, .inl ⟨by decide, rfl⟩, by decide, by decide⟩

theorem witness_ReturnRestoresCaller :
    let s : State := { st 0 0 [(0x00810000, 0x00800001), (0x00810001, 0x00810000)] with spl := 0x00810001 }
    ReadGives s (sint32 s.spl) 0x00810000 s ∧ ReadGives s (sint32 s.spl - 1) 0x00800001 s := ⟨.inl ⟨by decide, rfl⟩, .inl ⟨by decide, rfl⟩⟩

theorem witness_ReturnRestoresCaller_first_fault :
    ReadFaults State.reset (sint32 State.reset.spl) .uninitializedRead := .inr ⟨by decide, rfl⟩

theorem witness_ReturnRestoresCaller_second_fault :
    let s := st 0 0 [(0x00810000, 0x00810000)]
    ReadGives s (sint32 s.spl) 0x00810000 s ∧ ReadFaults s (sint32 s.spl - 1) .uninitializedRead := ⟨.inl ⟨by decide, rfl⟩, .inr ⟨by decide, rfl⟩⟩

/-- The state after the call is itself a callee state. -/
theorem witness_CallThenReturnRestores :
    let s := st 0 0 [(0x00800002, 3)]
    let t : State := { st 0 0 [(0x00800002, 3), (0x00810000, 0x00800001), (0x00810001, 0x00810000)] with pc := 0x00800003, spl := 0x00810001, spr := 0x00810004 }
    s.cfg.SizesValid ∧ s.status = .running ∧ exec (.call 3) s = .next t ∧ t.status = .running ∧ t.cfg = s.cfg ∧
      t.spl = s.spr ∧ t.mem.read (sint32 s.spr).toNat = some s.spl ∧ t.mem.read (sint32 s.spr - 1).toNat = some (s.pc + 1) := ⟨by decide, rfl, rfl, rfl, rfl, rfl, by decide, by decide⟩

theorem witness_StepRunsDecodedInstruction :
    let s := st 0 0 [(0x00800000, 0x10000005)]
    s.status = .running ∧ s.Holds (sint32 s.pc) 0x10000005 ∧ decode s.cfg 0x10000005 = .ok (.ldsL 5) := ⟨rfl, by decide, rfl⟩

theorem witness_StepHaltsBelowCodeBase :
    let s : State := { State.reset with pc := 0x007FFFFF }
    s.status = .running ∧ s.pcAbove = false ∧ sint32 s.pc < s.cfg.codeBase := by decide

theorem witness_StepHaltsBelowCodeBase_after_halt :
    let t : State := { State.reset with pc := 0x007FFFFF }
    State.reset.cfg.SizesValid ∧ State.reset.status = .running ∧ exec Instr.halt State.reset = .next t ∧ t.status = .running ∧
      t.pcAddr < t.cfg.codeBase := ⟨by decide, rfl, rfl, rfl, by decide⟩

theorem witness_FetchAndDecodeFaults_outside :
    let s : State := { State.reset with pc := 0x01000000 }
    s.status = .running ∧ s.cfg.memSize ≤ sint32 s.pc ∧ s.cfg.codeBase ≤ sint32 s.pc := by decide

theorem witness_FetchAndDecodeFaults_unwritten :
    State.reset.status = .running ∧ State.reset.Unwritten (sint32 State.reset.pc) := by decide

theorem witness_FetchAndDecodeFaults_opcode :
    let s := st 0 0 [(0x00800000, 0x05000000)]
    s.status = .running ∧ s.Holds (sint32 s.pc) 0x05000000 ∧ decode s.cfg 0x05000000 = .error .illegalOpcode := ⟨rfl, by decide, rfl⟩

theorem witness_FetchAndDecodeFaults_operator :
    let s := st 0 0 [(0x00800000, 0x32000000)]
    s.status = .running ∧ s.Holds (sint32 s.pc) 0x32000000 ∧ decode s.cfg 0x32000000 = .error .illegalOperator := ⟨rfl, by decide, rfl⟩

theorem witness_StoppedEngineNeverChanges :
    ({ State.reset with status := .halted } : State).status ≠ .running := by decide

theorem witness_FaultsArePrecise :
    let s := st 5 0 [(0x00800000, 0x32330000)]
    let t : State := { s with status := .faulted .divideByZero 0x00800000 (.word 0x32330000) }
    s.status = .running ∧ step s = .next t ∧ t.status = .faulted .divideByZero 0x00800000 (.word 0x32330000) := ⟨rfl, rfl, rfl⟩

/-- `BOP.L DIV` makes no read. -/
theorem witness_FaultsArePrecise_no_read :
    let s := st 5 0 [(0x00800000, 0x32330000)]
    s.cfg.SizesValid ∧ ∀ i a v u, s.Runs i → s.leadingRead i = some a → ¬ ReadGives s a v u := by
  refine ⟨by decide, fun i a v u h ha => ?_⟩
  obtain ⟨w, ⟨-, hw⟩, hi⟩ := h
  have hw : (0x32330000 : Word) = w := Option.some.inj hw
  subst hw
  cases hi
  cases ha

/-- A pointer read from a device, and a pointer out of range. -/
theorem witness_FaultsArePrecise_read_made :
    let s := withReplies [.word 0xFFFFFFFF] [(0x00800000, 0x14FFFFFF)]
    let u : State := { s with deviceHistory := [.read 0x007FFFFF 0xFFFFFFFF], deviceReplies := [] }
    s.cfg.SizesValid ∧ s.status = .running ∧ s.Runs (.ldsiL (-1)) ∧ s.leadingRead (.ldsiL (-1)) = some 0x007FFFFF ∧
      ReadGives s 0x007FFFFF 0xFFFFFFFF u ∧
      step s = .next { u with status := .faulted .addressOutOfRange 0x00800000 (.int (-1)) } := ⟨by decide, rfl, ⟨0x14FFFFFF, by decide, rfl⟩, rfl, .inr ⟨by decide, .inl rfl, rfl⟩, rfl⟩

theorem witness_FaultsHaveOnlyTheirCauses_illegalOpcode :
    let s : State := st 0 0 [(0x00800000, 0x05000000)]
    s.status = .running ∧ step s = .next { s with status := .faulted .illegalOpcode 0x00800000 (.word 0x05000000) } := ⟨rfl, rfl⟩

theorem witness_FaultsHaveOnlyTheirCauses_illegalOperator :
    let s : State := st 0 0 [(0x00800000, 0x30100000)]
    s.status = .running ∧ step s = .next { s with status := .faulted .illegalOperator 0x00800000 (.word 0x30100000) } := ⟨rfl, rfl⟩

theorem witness_FaultsHaveOnlyTheirCauses_addressOutOfRange :
    let s : State := st 0 0 [(0x00800000, 0x14000001), (0x00800001, 0xFFFFFFFF)]
    s.status = .running ∧ step s = .next { s with status := .faulted .addressOutOfRange 0x00800000 (.int (-1)) } := ⟨rfl, rfl⟩

theorem witness_FaultsHaveOnlyTheirCauses_uninitializedRead :
    let s : State := State.reset
    s.status = .running ∧ step s = .next { s with status := .faulted .uninitializedRead 0x00800000 (.int 0x00800000) } := ⟨rfl, rfl⟩

theorem witness_FaultsHaveOnlyTheirCauses_divideByZero :
    let s : State := st 0 0xFFFFFFFF [(0x00800000, 0x33350000)]
    s.status = .running ∧ step s = .next { s with status := .faulted .divideByZero 0x00800000 (.word 0x33350000) } := ⟨rfl, rfl⟩

theorem witness_FaultsHaveOnlyTheirCauses_stackOverflow :
    let s : State := st 0 0 [(0x00800000, 0x43000003), (0x00800002, 0x007F0000)]
    s.status = .running ∧ step s = .next { s with status := .faulted .stackOverflow 0x00800000 (.int 0x01000001) } := ⟨rfl, rfl⟩

theorem witness_FaultsHaveOnlyTheirCauses_badFrameSize :
    let s : State := st 0 0 [(0x00800000, 0x43000003), (0x00800002, 0x80000000)]
    s.status = .running ∧ step s = .next { s with status := .faulted .badFrameSize 0x00800000 (.word 0x80000000) } := ⟨rfl, rfl⟩

theorem witness_FaultsHaveOnlyTheirCauses_shiftCount :
    let s : State := { st 1 0xFFFFFFFF [(0x00800000, 0x33110000)] with cfg := cfgShiftFault }
    s.status = .running ∧ step s = .next { s with status := .faulted .shiftCount 0x00800000 (.word 0x33110000) } := ⟨rfl, rfl⟩

theorem witness_NoStepRefused :
    let s := withReplies [.silent] [(0x00800000, 0x10FFFFFF)]
    step s = .fault .deviceReadUnanswered ∧ exec (.ldsL (-1)) s = .fault .deviceReadUnanswered := ⟨rfl, rfl⟩

theorem witness_FetchWordIsRunNext :
    State.reset.cfg.SizesValid ∧ decode State.reset.cfg (BitVec.ofNat 32 0x10000005) = .ok (.ldsL 5) := ⟨by decide, rfl⟩

theorem witness_StoredInstructionIsFetchedNext :
    let s := st 0x42FFFFFF 0 []
    s.cfg.SizesValid ∧ s.status = .running ∧ s.PlainAddr (sint32 s.pc) ∧ s.cfg.codeBase + 1 = sint32 s.pc + 1 ∧
      sint32 s.pc + 1 < s.cfg.memSize ∧ decode s.cfg s.l = .ok (.jmp (-1)) := ⟨by decide, rfl, by decide, by decide, by decide, rfl⟩

theorem witness_PcNeverWraps :
    let s := st 1 0 [(0x00800002, 3)]
    s.cfg.SizesValid ∧ s.PlainAddr s.pcAddr ∧ s.status = .running ∧ (WellFormed (.brl 8388607) ∧ WellFormed (.call 3)) ∧
      (after (exec (.brl 8388607) s) (fun t => (t.status, t.pcAddr)) = some (.running, 0x00FFFFFF)) ∧
      (after (exec (.brr 5) s) (fun t => (t.status, t.pcAddr)) = some (.running, 0x00800001)) ∧
      after (exec (.call 3) s) (fun t => (t.status, t.pcAddr)) = some (.running, 0x00800003) := by decide

/-- The last word of the largest space, and PC just past it. -/
theorem witness_PcNeverWraps_top :
    let s : State := { State.reset with pc := 0x7FFFFFFF, cfg := cfgLarge }
    let t : State := { s with pc := 0x80000000, pcAbove := true }
    s.cfg.SizesValid ∧ s.PlainAddr s.pcAddr ∧ exec (.nop 0) s = .next t ∧ t.cfg.SizesValid ∧ t.status = .running ∧
      t.cfg.memSize ≤ t.pcAddr := ⟨by decide, by decide, rfl, by decide, rfl, by decide⟩

/-- A target of 2^31. -/
theorem witness_PcNeverWraps_transfer :
    let s : State := { State.reset with pc := 0x7FF00000, cfg := cfgHigh }
    s.cfg.SizesValid ∧ s.PlainAddr s.pcAddr ∧ WellFormed (.jmp 0x100000) ∧ s.status = .running ∧
      after (exec (.jmp 0x100000) s) (fun t => (t.status, t.pc, t.pcAbove)) = some (.running, 0x80000000, true) := by decide

theorem witness_PcWritesAreThese :
    State.reset.pcAbove = false ∧ ({ State.reset with pcAbove := true } : State).pcAbove = true := by decide

theorem witness_PcIsPlainlyReadBelowTheTop :
    let s := st 5 6 [(0x00800000, 0x34000000)]
    let t : State := { st 6 5 [(0x00800000, 0x34000000)] with pc := 0x00800001 }
    s.cfg.SizesValid ∧ s.cfg.memSize < 2 ^ 31 ∧ s.cfg.codeBase + 2 ^ 23 ≤ 2 ^ 31 ∧ s.pcAbove = false ∧ step s = .next t := ⟨by decide, by decide, by decide, rfl, rfl⟩

theorem witness_StepKeepsInvariant :
    let s := st 5 6 [(0x00800000, 0x34000000)]
    s.Inv ∧ step s = .next { st 6 5 [(0x00800000, 0x34000000)] with pc := 0x00800001 } := ⟨⟨by decide, by simp [State.PcAgrees, st, State.reset, State.resetFor], by decide, by decide, by decide, trivial⟩, rfl⟩

theorem witness_StartMeetsInvariant :
    Config.default.SizesValid ∧ State.start Config.default [] [0x34000000] = .next (st 0 0 [(0x00800000, 0x34000000)]) := ⟨by decide, rfl⟩

theorem witness_RunStartsInResetState :
    ([0x34000000, 7] : List Word).length ≤ Config.default.stackBase - Config.default.codeBase := by decide

theorem witness_RunStartsWithNoDeviceAccess :
    State.start Config.default [.word 1] [0x34000000] = .next (withReplies [.word 1] [(0x00800000, 0x34000000)]) := rfl

/-- An image one word too long. -/
theorem witness_LongImageIsRefused :
    let c : Config := { Config.default with stackBase := 0x00800001 }
    c.SizesValid ∧ c.stackBase - c.codeBase < ([0x34000000, 7] : List Word).length := by decide

theorem witness_StepKeepsParameters :
    let s := st 5 6 [(0x00800000, 0x34000000)]
    let t : State := { st 6 5 [(0x00800000, 0x34000000)] with pc := 0x00800001 }
    step s = .next t ∧ exec (.swap 0) s = .next t := ⟨rfl, rfl⟩

theorem witness_DeviceHistoryOnlyGrows :
    let s := st 5 6 [(0x00800000, 0x12FFFFFF)]
    s.cfg.SizesValid ∧ step s = .next { s with pc := 0x00800001, deviceHistory := [.write 0x007FFFFF 5] } := ⟨by decide, rfl⟩

theorem witness_DeviceHistoryOnlyGrows_stopped :
    let s : State := { State.reset with status := .halted }
    s.cfg.SizesValid ∧ step s = .next s ∧ s.status ≠ .running := ⟨by decide, rfl, by decide⟩

theorem witness_OnlyCallAndReturnMoveTheStack :
    let s := st 5 6 [(0x00800000, 0x34000000)]
    let t : State := { st 6 5 [(0x00800000, 0x34000000)] with pc := 0x00800001 }
    (Instr.swap 0).op ≠ .call ∧ (Instr.swap 0).op ≠ .ret ∧ exec (.swap 0) s = .next t := ⟨by decide, by decide, rfl⟩

theorem witness_OnlyNamedInstructionsWriteWorkingRegisters :
    let s := st 5 6 []
    exec (.jmp 0) s = .next s ∧ Op.jmp ∉ [Op.ldsL, .ldsiL, .ldfL, .ldfiL, .uopL, .bopL, .swap] ∧
      Op.jmp ∉ [Op.ldsR, .ldsiR, .ldfR, .ldfiR, .uopR, .bopR, .swap] := ⟨rfl, by decide, by decide⟩

theorem witness_OnlyStoresAndCallWriteMemory :
    let s := st 5 6 []
    exec (.jmp 0) s = .next s ∧ Op.jmp ∈ [Op.nop, .uopL, .uopR, .bopL, .bopR, .swap, .brl, .brr, .jmp] ∧
      Op.jmp ∉ [Op.stsL, .stsR, .stsiL, .stsiR, .stfL, .stfR, .stfiL, .stfiR, .call] := ⟨rfl, by decide, by decide⟩

theorem witness_WrittenWordsStayWritten_store :
    let s := st 5 6 [(0x00800000, 0x12000010)]
    let t := st 5 6 [(0x00800000, 0x12000010), (0x00800010, 5)]
    step s = .next { t with pc := 0x00800001 } ∧ t.mem.read 0x00800010 ≠ s.mem.read 0x00800010 := ⟨rfl, by decide⟩

theorem witness_PcAdvancesOrTransfers :
    let s := st 5 6 [(0x00800000, 0x34000000)]
    let t : State := { st 6 5 [(0x00800000, 0x34000000)] with pc := 0x00800001 }
    exec (.swap 0) s = .next t := rfl

theorem witness_WrittenWordsStayWritten :
    let s := st 5 6 [(0x00800000, 0x34000000)]
    let t : State := { st 6 5 [(0x00800000, 0x34000000)] with pc := 0x00800001 }
    step s = .next t ∧ s.mem.read 0x00800000 ≠ none := ⟨rfl, by decide⟩

theorem witness_PlainWordReadsBackAsWritten :
    let s := st 0 0 [(0x00FFFFFF, 9)]
    s.PlainAddr 0x00800000 ∧ s.PlainAddr 0x00FFFFFF ∧ memRead 0x00FFFFFF s = .ok 9 s := ⟨by decide, by decide, rfl⟩

theorem witness_DeviceAccessesAreRecorded :
    let s := withReplies [.word 7] []
    s.DeviceAddr 0 ∧ s.DeviceAddr 0x007FFFFF ∧ s.Answers 0 7 := ⟨by decide, by decide, .inl rfl⟩

theorem witness_AssembledLengthCountsOnlyWords :
    assemble Config.default [.tag "a", .halt, .data 5] = some [0x42FFFFFF, 5] ∧
      AsmLine.data 4294967296 ∈ [AsmLine.data 4294967296] ∧ (2 : Int) ^ 32 ≤ 4294967296 := ⟨rfl, by decide, by decide⟩

end Sys2Proof.Tests
end

