-- ==== Sys2Proof/Proofs/Forms.lean ====
section
/-! The instructions by opcode (R65): the four operator opcodes have one case each, with the operator as data, where `Instr`
has 42 constructors; and what `exec` is for those four. -/

namespace Sys2Proof

/-- The instruction is one of the 27 opcodes' (R65), its fields given. Every instruction is (`Instr.form`), so that a proof
about all of them has 27 cases. -/
inductive Instr.Form : Instr → Prop where
  | nop (g : BitVec 24) : Form (.nop g)
  | swap (g : BitVec 24) : Form (.swap g)
  | ret (g : BitVec 24) : Form (.ret g)
  | ldsL (off : Int) : Form (.ldsL off)
  | ldsR (off : Int) : Form (.ldsR off)
  | stsL (off : Int) : Form (.stsL off)
  | stsR (off : Int) : Form (.stsR off)
  | ldsiL (off : Int) : Form (.ldsiL off)
  | ldsiR (off : Int) : Form (.ldsiR off)
  | stsiL (off : Int) : Form (.stsiL off)
  | stsiR (off : Int) : Form (.stsiR off)
  | ldfL (off : Int) : Form (.ldfL off)
  | ldfR (off : Int) : Form (.ldfR off)
  | stfL (off : Int) : Form (.stfL off)
  | stfR (off : Int) : Form (.stfR off)
  | ldfiL (off : Int) : Form (.ldfiL off)
  | ldfiR (off : Int) : Form (.ldfiR off)
  | stfiL (off : Int) : Form (.stfiL off)
  | stfiR (off : Int) : Form (.stfiR off)
  | brl (off : Int) : Form (.brl off)
  | brr (off : Int) : Form (.brr off)
  | jmp (off : Int) : Form (.jmp off)
  | call (off : Int) : Form (.call off)
  | uopL (u : UnOp) (g : BitVec 16) : Form (Instr.uopL u g)
  | uopR (u : UnOp) (g : BitVec 16) : Form (Instr.uopR u g)
  | bopL (b : BinOp) (g : BitVec 16) : Form (Instr.bopL b g)
  | bopR (b : BinOp) (g : BitVec 16) : Form (Instr.bopR b g)

/-- Every instruction has a form. -/
theorem Instr.form (i : Instr) : i.Form := by
  cases i with
  | nop | swap | ret | ldsL | ldsR | stsL | stsR | ldsiL | ldsiR | stsiL | stsiR | ldfL | ldfR | stfL | stfR | ldfiL
  | ldfiR | stfiL | stfiR | brl | brr | jmp | call => constructor
  | uopLBnot g => exact .uopL .bnot g
  | uopLLnot g => exact .uopL .lnot g
  | uopRBnot g => exact .uopR .bnot g
  | uopRLnot g => exact .uopR .lnot g
  | bopLShr g => exact .bopL .shr g
  | bopLShl g => exact .bopL .shl g
  | bopLAnd g => exact .bopL .and g
  | bopLOr g => exact .bopL .or g
  | bopLXor g => exact .bopL .xor g
  | bopLEq g => exact .bopL .eq g
  | bopLNe g => exact .bopL .ne g
  | bopLLe g => exact .bopL .le g
  | bopLGe g => exact .bopL .ge g
  | bopLLt g => exact .bopL .lt g
  | bopLGt g => exact .bopL .gt g
  | bopLLand g => exact .bopL .land g
  | bopLLor g => exact .bopL .lor g
  | bopLAdd g => exact .bopL .add g
  | bopLSub g => exact .bopL .sub g
  | bopLMul g => exact .bopL .mul g
  | bopLDiv g => exact .bopL .div g
  | bopLMod g => exact .bopL .mod g
  | bopLPow g => exact .bopL .pow g
  | bopRShr g => exact .bopR .shr g
  | bopRShl g => exact .bopR .shl g
  | bopRAnd g => exact .bopR .and g
  | bopROr g => exact .bopR .or g
  | bopRXor g => exact .bopR .xor g
  | bopREq g => exact .bopR .eq g
  | bopRNe g => exact .bopR .ne g
  | bopRLe g => exact .bopR .le g
  | bopRGe g => exact .bopR .ge g
  | bopRLt g => exact .bopR .lt g
  | bopRGt g => exact .bopR .gt g
  | bopRLand g => exact .bopR .land g
  | bopRLor g => exact .bopR .lor g
  | bopRAdd g => exact .bopR .add g
  | bopRSub g => exact .bopR .sub g
  | bopRMul g => exact .bopR .mul g
  | bopRDiv g => exact .bopR .div g
  | bopRMod g => exact .bopR .mod g
  | bopRPow g => exact .bopR .pow g

namespace Machine

/-! ### The operator instructions, the operator given as data -/

theorem exec_uopL (u : UnOp) (g : BitVec 16) (s : State) :
    exec (Instr.uopL u g) s = conclude s (unaryToL u s.advance) := by
  cases u <;> rfl

theorem exec_uopR (u : UnOp) (g : BitVec 16) (s : State) :
    exec (Instr.uopR u g) s = conclude s (unaryToR u s.advance) := by
  cases u <;> rfl

/-- The info of a fault is the instruction's own word (R191). -/
theorem exec_bopL (b : BinOp) (g : BitVec 16) (s : State) :
    exec (Instr.bopL b g) s = conclude s (binaryToL b (encode s.cfg (Instr.bopL b g)) s.advance) := by
  cases b <;> rfl

/-- The info of a fault is the instruction's own word (R191). -/
theorem exec_bopR (b : BinOp) (g : BitVec 16) (s : State) :
    exec (Instr.bopR b g) s = conclude s (binaryToR b (encode s.cfg (Instr.bopR b g)) s.advance) := by
  cases b <;> rfl

end Machine
end Sys2Proof
end

