-- ==== Sys2Proof/Proofs/Scope.lean ====
section
/-! The parameters of the engine (log 1): no part of an instruction writes them, so no instruction and no step does; and
what the three accesses of PC are (log 22). -/

namespace Sys2Proof.Machine

/-! ### Each part of an instruction that completes keeps the parameters -/

theorem ReadGives.cfg_eq {s t : State} {a : Int} {w : Word} (h : ReadGives s a w t) : t.cfg = s.cfg := by
  rcases h with ⟨-, rfl⟩ | ⟨-, -, rfl⟩ <;> rfl

theorem memWrite_cfg {a : Int} {v : Word} {s t : State} (h : memWrite a v s = .ok () t) : t.cfg = s.cfg := by
  rcases memWrite_eq_ok h with ⟨-, rfl⟩ | ⟨-, rfl⟩ <;> rfl

theorem loadL_cfg {a : Int} {s t : State} (h : loadL a s = .ok () t) : t.cfg = s.cfg := by
  obtain ⟨w, u, hr, rfl⟩ := loadL_eq_ok h
  exact hr.cfg_eq

theorem loadR_cfg {a : Int} {s t : State} (h : loadR a s = .ok () t) : t.cfg = s.cfg := by
  obtain ⟨w, u, hr, rfl⟩ := loadR_eq_ok h
  exact hr.cfg_eq

theorem storeL_cfg {a : Int} {s t : State} (h : storeL a s = .ok () t) : t.cfg = s.cfg := memWrite_cfg h

theorem storeR_cfg {a : Int} {s t : State} (h : storeR a s = .ok () t) : t.cfg = s.cfg := memWrite_cfg h

/-- The pointer read keeps the parameters, so the access through the pointer keeps them if its second access does. -/
theorem viaPointer_cfg {a : Int} {access : Int → State → Res Unit} {s t : State}
    (haccess : ∀ {b : Int} {u v : State}, access b u = .ok () v → v.cfg = u.cfg) (h : viaPointer a access s = .ok () t) :
    t.cfg = s.cfg := by
  obtain ⟨p, u, hr, ht⟩ := viaPointer_eq_ok h
  exact (haccess ht).trans hr.cfg_eq

theorem unaryToL_cfg {o : UnOp} {s t : State} (h : unaryToL o s = .ok () t) : t.cfg = s.cfg := by
  cases h
  rfl

theorem unaryToR_cfg {o : UnOp} {s t : State} (h : unaryToR o s = .ok () t) : t.cfg = s.cfg := by
  cases h
  rfl

theorem binaryToL_cfg {o : BinOp} {w : Word} {s t : State} (h : binaryToL o w s = .ok () t) : t.cfg = s.cfg := by
  obtain ⟨v, -, rfl⟩ := binaryToL_eq_ok h
  rfl

theorem binaryToR_cfg {o : BinOp} {w : Word} {s t : State} (h : binaryToR o w s = .ok () t) : t.cfg = s.cfg := by
  obtain ⟨v, -, rfl⟩ := binaryToR_eq_ok h
  rfl

theorem jumpTo_cfg {off : Int} {s t : State} (h : jumpTo off s = .ok () t) : t.cfg = s.cfg := by
  cases h
  rfl

/-- `BRL` and `BRR`: the transfer and the fall-through alike. -/
theorem branch_cfg {taken : Bool} {off : Int} {s t : State}
    (h : (if taken then jumpTo off s else .ok () s) = .ok () t) : t.cfg = s.cfg := by
  split at h
  · exact jumpTo_cfg h
  · cases h
    rfl

theorem enterFrame_cfg {S n next : Int} {s t : State} (h : enterFrame S n next s = .ok () t) : t.cfg = s.cfg := by
  obtain ⟨u, v, hu, hv, rfl⟩ := enterFrame_eq_ok h
  exact (memWrite_cfg hv).trans (memWrite_cfg hu)

theorem callBody_cfg {off : Int} {s t : State} (h : callBody off s = .ok () t) : t.cfg = s.cfg := by
  obtain ⟨nw, u, hr, -, -, -, hf⟩ := callBody_eq_ok h
  exact (enterFrame_cfg hf).trans hr.cfg_eq

theorem retBody_cfg {s t : State} (h : retBody s = .ok () t) : t.cfg = s.cfg := by
  obtain ⟨saved, u, ret, v, hu, hv, rfl⟩ := retBody_eq_ok h
  exact hv.cfg_eq.trans hu.cfg_eq

/-! ### Each instruction and each step keeps the parameters -/

/-- A fault taken puts back the parameters of the start (R193), so only the completed end of an instruction matters; its
body `x` begins after the increment of PC (R160). -/
theorem conclude_cfg {s t : State} {x : Res Unit} (hx : ∀ {u : State}, x = .ok () u → u.cfg = s.advance.cfg)
    (h : conclude s x = .next t) : t.cfg = s.cfg := by
  rcases conclude_eq_next h with hok | ⟨ρ, i, u, -, rfl⟩
  · exact (hx hok).trans (advance_cfg s)
  · rfl

theorem exec_cfg {i : Instr} {s t : State} (h : exec i s = .next t) : t.cfg = s.cfg := by
  cases i.form with
  | nop | swap => cases h; rfl
  | ldsL | ldfL => exact conclude_cfg loadL_cfg h
  | ldsR | ldfR => exact conclude_cfg loadR_cfg h
  | stsL | stfL => exact conclude_cfg storeL_cfg h
  | stsR | stfR => exact conclude_cfg storeR_cfg h
  | ldsiL | ldfiL => exact conclude_cfg (viaPointer_cfg loadL_cfg) h
  | ldsiR | ldfiR => exact conclude_cfg (viaPointer_cfg loadR_cfg) h
  | stsiL | stfiL => exact conclude_cfg (viaPointer_cfg storeL_cfg) h
  | stsiR | stfiR => exact conclude_cfg (viaPointer_cfg storeR_cfg) h
  | uopL u g => exact conclude_cfg unaryToL_cfg (exec_uopL u g s ▸ h)
  | uopR u g => exact conclude_cfg unaryToR_cfg (exec_uopR u g s ▸ h)
  | bopL b g => exact conclude_cfg binaryToL_cfg (exec_bopL b g s ▸ h)
  | bopR b g => exact conclude_cfg binaryToR_cfg (exec_bopR b g s ▸ h)
  | brl | brr => exact conclude_cfg branch_cfg h
  | jmp => exact conclude_cfg jumpTo_cfg h
  | call => exact conclude_cfg callBody_cfg h
  | ret => exact conclude_cfg retBody_cfg h

theorem step_cfg {s t : State} (h : step s = .next t) : t.cfg = s.cfg := by
  rcases step_cases h with ⟨-, rfl⟩ | ⟨-, -, rfl⟩ | ⟨-, -, ⟨ρ, i, -, rfl⟩ | ⟨w, i, -, -, hexec⟩⟩
  · rfl
  · exact halt_cfg s
  · exact takeFault_cfg s s ρ i
  · exact exec_cfg hexec

/-- Settles O49: by the cases of a step; the instruction that runs keeps the parameters since each of its parts does. -/
theorem stepKeepsParameters : Obligations.StepKeepsParameters :=
  ⟨fun _ _ => step_cfg, fun _ _ _ => exec_cfg⟩

/-! ### The accesses of PC -/

/-- A write of PC as the statements write it. -/
theorem goTo_eq (s : State) (a : Int) : s.goTo a = { s with pc := word a, pcAbove := decide (2 ^ 31 ≤ a) } := rfl

/-- Settles O40: the two readings of PC, the increment (its word is the next one whichever way PC is read), the transfer. -/
theorem pcWritesAreThese : Obligations.PcWritesAreThese := fun s =>
  ⟨pcAddr_eq_sint32, pcAddr_eq_uint32, advance_eq s, goTo_eq s⟩

end Sys2Proof.Machine
end

