-- ==== Sys2Proof/Proofs/Decoded.lean ====
section
/-! The opcode and the offset of an instruction whose operator is given as data, and the offset the decoder reads: 24 signed
bits of the word (R62, R67), so that a decoded instruction is well-formed (R73). -/

namespace Sys2Proof

@[simp] theorem Instr.op_uopL (u : UnOp) (g : BitVec 16) : (Instr.uopL u g).op = .uopL := by cases u <;> rfl
@[simp] theorem Instr.op_uopR (u : UnOp) (g : BitVec 16) : (Instr.uopR u g).op = .uopR := by cases u <;> rfl
@[simp] theorem Instr.op_bopL (b : BinOp) (g : BitVec 16) : (Instr.bopL b g).op = .bopL := by cases b <;> rfl
@[simp] theorem Instr.op_bopR (b : BinOp) (g : BitVec 16) : (Instr.bopR b g).op = .bopR := by cases b <;> rfl

@[simp] theorem Instr.offset?_uopL (u : UnOp) (g : BitVec 16) : (Instr.uopL u g).offset? = none := by cases u <;> rfl
@[simp] theorem Instr.offset?_uopR (u : UnOp) (g : BitVec 16) : (Instr.uopR u g).offset? = none := by cases u <;> rfl
@[simp] theorem Instr.offset?_bopL (b : BinOp) (g : BitVec 16) : (Instr.bopL b g).offset? = none := by cases b <;> rfl
@[simp] theorem Instr.offset?_bopR (b : BinOp) (g : BitVec 16) : (Instr.bopR b g).offset? = none := by cases b <;> rfl

/-- The offset of a decoded instruction is its word's offset field, sign-extended (R62, R67). -/
theorem decode_offset {c : Config} {w : Word} {i : Instr} {off : Int} (h : decode c w = .ok i)
    (hoff : i.offset? = some off) : off = sext24 (low24 w) := by
  unfold decode at h
  cases hop : c.opOf? (opcodeField w) with
  | none => simp [hop] at h
  | some o =>
    cases o with
    | uopL | uopR | bopL | bopR =>
      simp only [hop] at h
      split at h <;> cases h
      simp at hoff
    | nop | swap | ret =>
      simp only [hop] at h
      cases h
      cases hoff
    | _ =>
      simp only [hop] at h
      cases h
      exact (Option.some.inj hoff).symm

theorem offsetFits_sext24 (v : BitVec 24) : offsetFits (sext24 v) = true := by
  have hlow := v.le_toInt
  have hhigh := v.toInt_lt
  exact decide_eq_true ⟨by simpa [sext24] using hlow, by simp only [sext24]; omega⟩

/-- The decoder gives only instructions that have an encoding (log 20). -/
theorem decode_wellFormed {c : Config} {w : Word} {i : Instr} (h : decode c w = .ok i) : WellFormed i := by
  unfold WellFormed Instr.wellFormed
  cases hoff : i.offset? with
  | none => rfl
  | some off => exact decode_offset h hoff ▸ offsetFits_sext24 (low24 w)

theorem WellFormed.offset_bounds {i : Instr} {off : Int} (h : WellFormed i) (hoff : i.offset? = some off) :
    -8388608 ≤ off ∧ off ≤ 8388607 := by
  simpa [WellFormed, Instr.wellFormed, hoff, offsetFits] using h

end Sys2Proof
end

