-- ==== Sys2Proof/Proofs/Ends.lean ====
section
/-! Where an instruction that completes ends, said once for all of them (`State.Ends`, `exec_eq_next`), and what that says of
each part of the state: L and R (R21, R22), SPL and SPR (R26, R27), PC (R24, R160), the status, plain memory (R33). -/

namespace Sys2Proof.Machine

/-! ### The memory port, its effect as an update of the state -/

/-- A read changes only the device history and the replies to come. -/
theorem ReadGives.eq_setDevice {s t : State} {a : Int} {w : Word} (h : ReadGives s a w t) :
    ∃ e q, t = s.setDevice e q := by
  rcases h with ⟨-, rfl⟩ | ⟨-, -, rfl⟩
  · exact ⟨t.deviceHistory, t.deviceReplies, rfl⟩
  · exact ⟨_, _, rfl⟩

/-- A read does not look at PC: one made after the increment is the same read made before it. -/
theorem ReadGives.of_advance {s t : State} {a : Int} {w : Word} (h : ReadGives s.advance a w t) :
    ∃ e q, t = s.advance.setDevice e q ∧ ReadGives s a w (s.setDevice e q) := by
  rcases h with ⟨hw, rfl⟩ | ⟨ha, hw, rfl⟩
  · exact ⟨s.deviceHistory, s.deviceReplies, rfl, .inl ⟨hw, rfl⟩⟩
  · exact ⟨_, _, rfl, .inr ⟨ha, hw, rfl⟩⟩

/-- Memory `m'` is `m` but for words at addresses of `P`, which are written (R33). -/
def Memory.WrittenAt (P : Int → Prop) (m m' : Memory) : Prop :=
  ∀ b : Nat, m'.read b = m.read b ∨ P b ∧ ∃ v, m'.read b = some v

theorem Memory.WrittenAt.refl (P : Int → Prop) (m : Memory) : Memory.WrittenAt P m m := fun _ => .inl rfl

theorem Memory.WrittenAt.trans {P : Int → Prop} {m₁ m₂ m₃ : Memory} (h₁ : Memory.WrittenAt P m₁ m₂)
    (h₂ : Memory.WrittenAt P m₂ m₃) : Memory.WrittenAt P m₁ m₃ := fun b => by
  rcases h₂ b with h | h
  · rw [h]
    exact h₁ b
  · exact .inr h

/-- A write changes only memory, at its address, and the device history. -/
theorem memWrite_eq_update {P : Int → Prop} {a : Int} {v : Word} {s t : State} (ha : P a)
    (h : memWrite a v s = .ok () t) :
    ∃ m e, t = (s.setMem m).setDevice e s.deviceReplies ∧ Memory.WrittenAt P s.mem m := by
  rcases memWrite_eq_ok h with ⟨⟨hlow, -⟩, rfl⟩ | ⟨-, rfl⟩
  · refine ⟨s.mem.write a.toNat v, s.deviceHistory, rfl, fun b => ?_⟩
    by_cases hb : b = a.toNat
    · have hba : (b : Int) = a := by omega
      exact .inr ⟨hba ▸ ha, v, hb ▸ Memory.read_write_same ..⟩
    · exact .inl (Memory.read_write_other _ _ _ _ hb)
  · exact ⟨_, _, rfl, .refl P s.mem⟩

/-! ### Where an instruction that completes ends -/

/-- The state in which the instruction `i` begun in `s` ends when it completes, up to the words a read gives and the device
accesses made: one case for each effect on registers and memory. -/
inductive State.Ends (s : State) (i : Instr) : State → Prop where
  /-- `NOP` and a branch not taken: the increment only (R90, R162, R163). -/
  | fall (hop : i.op ∈ [.nop, .brl, .brr]) (hl : i.op = .brl → s.l = 0) (hr : i.op = .brr → s.r = 0) :
      s.Ends i s.advance
  /-- An operator or a load that writes L (R21). -/
  | writeL (w : Word) (e : List DeviceEvent) (q : List DeviceReply)
      (hop : i.op ∈ [.ldsL, .ldsiL, .ldfL, .ldfiL, .uopL, .bopL]) : s.Ends i ((s.advance.setDevice e q).setL w)
  /-- An operator or a load that writes R (R22). -/
  | writeR (w : Word) (e : List DeviceEvent) (q : List DeviceReply)
      (hop : i.op ∈ [.ldsR, .ldsiR, .ldfR, .ldfiR, .uopR, .bopR]) : s.Ends i ((s.advance.setDevice e q).setR w)
  /-- `SWAP` (R124). -/
  | swap (hop : i.op = .swap) : s.Ends i ((s.advance.setL s.r).setR s.l)
  /-- A store (R44). -/
  | store (m : Memory) (e : List DeviceEvent) (q : List DeviceReply)
      (hop : i.op ∈ [.stsL, .stsR, .stsiL, .stsiR, .stfL, .stfR, .stfiL, .stfiR])
      (hm : Memory.WrittenAt (s.WritesAt i) s.mem m) : s.Ends i ((s.advance.setMem m).setDevice e q)
  /-- A transfer of `BRL`, `BRR` or `JMP` (R161). -/
  | jump (off : Int) (hop : i.op ∈ [.brl, .brr, .jmp]) (hoff : i.offset? = some off) :
      s.Ends i (s.advance.goTo (s.cfg.codeBase + off))
  /-- `CALL` (R165). -/
  | call (off : Int) (spl spr : Word) (m : Memory) (e : List DeviceEvent) (q : List DeviceReply) (hop : i.op = .call)
      (hoff : i.offset? = some off) (hm : Memory.WrittenAt (s.WritesAt i) s.mem m) :
      s.Ends i (((((s.advance.setMem m).setDevice e q).setSpl spl).setSpr spr).goTo (s.cfg.codeBase + off))
  /-- `RET` (R166). -/
  | ret (saved pc : Word) (u v : State) (e : List DeviceEvent) (q : List DeviceReply) (hop : i.op = .ret)
      (hsaved : ReadGives s (sint32 s.spl) saved u) (hpc : ReadGives u (sint32 s.spl - 1) pc v) :
      s.Ends i ((((s.advance.setDevice e q).setSpr s.spl).setSpl saved).setPc pc)

/-- A load into L, after the device accesses of a pointer read or of none. -/
theorem loadL_ends {i : Instr} {s t : State} {a : Int} {e : List DeviceEvent} {q : List DeviceReply}
    (hop : i.op ∈ [.ldsL, .ldsiL, .ldfL, .ldfiL, .uopL, .bopL])
    (h : loadL a (s.advance.setDevice e q) = .ok () t) : s.Ends i t := by
  obtain ⟨w, u, hread, rfl⟩ := loadL_eq_ok h
  obtain ⟨e', q', rfl⟩ := hread.eq_setDevice
  exact .writeL w e' q' hop

theorem loadR_ends {i : Instr} {s t : State} {a : Int} {e : List DeviceEvent} {q : List DeviceReply}
    (hop : i.op ∈ [.ldsR, .ldsiR, .ldfR, .ldfiR, .uopR, .bopR])
    (h : loadR a (s.advance.setDevice e q) = .ok () t) : s.Ends i t := by
  obtain ⟨w, u, hread, rfl⟩ := loadR_eq_ok h
  obtain ⟨e', q', rfl⟩ := hread.eq_setDevice
  exact .writeR w e' q' hop

/-- The write of a store, after the device accesses of a pointer read or of none. -/
theorem store_ends {i : Instr} {s t : State} {a : Int} {v : Word} {e : List DeviceEvent} {q : List DeviceReply}
    (hop : i.op ∈ [.stsL, .stsR, .stsiL, .stsiR, .stfL, .stfR, .stfiL, .stfiR]) (ha : s.WritesAt i a)
    (h : memWrite a v (s.advance.setDevice e q) = .ok () t) : s.Ends i t := by
  obtain ⟨m, e', rfl, hm⟩ := memWrite_eq_update ha h
  exact .store m e' q hop hm

/-- An access with no pointer read before it: no device access has been made yet. -/
theorem direct_ends {i : Instr} {s t : State} {x : State → Res Unit}
    (hx : ∀ {e q}, x (s.advance.setDevice e q) = .ok () t → s.Ends i t) (h : x s.advance = .ok () t) : s.Ends i t :=
  hx (e := s.deviceHistory) (q := s.deviceReplies) h

/-- Through a pointer (R93): the pointer read is the leading read, then comes the access at the address it gave. -/
theorem viaPointer_ends {i : Instr} {s t : State} {b : Int} {access : Int → State → Res Unit}
    (haccess : ∀ {p e q}, ReadGives s b p (s.setDevice e q) → access (sint32 p) (s.advance.setDevice e q) = .ok () t →
      s.Ends i t)
    (h : viaPointer b access s.advance = .ok () t) : s.Ends i t := by
  obtain ⟨p, u, hread, ht⟩ := viaPointer_eq_ok h
  obtain ⟨e, q, rfl, hread'⟩ := hread.of_advance
  exact haccess hread' ht

/-- The address an indirect store writes is the one its leading read gave (R93). -/
theorem writesAt_pointer {i : Instr} {s u : State} {b : Int} {p : Word}
    (hop : i.op ∈ [.stsiL, .stsiR, .stfiL, .stfiR]) (hlead : s.leadingRead i = some b) (hread : ReadGives s b p u) :
    s.WritesAt i (sint32 p) := .inr (.inr ⟨b, p, u, hlead, hread, .inl ⟨hop, rfl⟩⟩)

/-- `BRL` and `BRR`, where `w` is the register tested. -/
theorem branch_ends {i : Instr} {s t : State} {w : Word} {off : Int} (hop : i.op = .brl ∨ i.op = .brr)
    (hoff : i.offset? = some off) (hl : i.op = .brl → s.l = w) (hr : i.op = .brr → s.r = w)
    (h : (if isNonzero w then jumpTo off s.advance else .ok () s.advance) = .ok () t) : s.Ends i t := by
  split at h
  · cases h
    exact .jump off (by rcases hop with ho | ho <;> simp [ho]) hoff
  · rename_i hw
    have hw : w = 0 := by simpa [isNonzero] using hw
    cases h
    exact .fall (by rcases hop with ho | ho <;> simp [ho]) (fun ho => (hl ho).trans hw) fun ho => (hr ho).trans hw

theorem call_ends {s t : State} {off : Int} (h : callBody off s.advance = .ok () t) : s.Ends (.call off) t := by
  obtain ⟨nw, u, hread, hsize, hslot, htop, hframe⟩ := callBody_eq_ok h
  obtain ⟨e, q, rfl, hread'⟩ := hread.of_advance
  have hwrites : ∀ a, a = sint32 s.spr - 1 ∨ a = sint32 s.spr → s.WritesAt (.call off) a := fun a ha =>
    .inr (.inr ⟨_, nw, _, rfl, hread', .inr ⟨rfl, hsize, hslot, htop, ha⟩⟩)
  obtain ⟨x, y, hret, hspl, rfl⟩ := enterFrame_eq_ok hframe
  obtain ⟨m, e₁, rfl, hm⟩ := memWrite_eq_update (hwrites _ (.inl rfl)) hret
  obtain ⟨m', e₂, rfl, hm'⟩ := memWrite_eq_update (hwrites _ (.inr rfl)) hspl
  exact .call off _ _ m' e₂ _ rfl rfl (hm.trans hm')

theorem ret_ends {s t : State} {g : BitVec 24} (h : retBody s.advance = .ok () t) : s.Ends (.ret g) t := by
  obtain ⟨saved, u, pc, v, hsaved, hpc, rfl⟩ := retBody_eq_ok h
  obtain ⟨e, q, rfl, hsaved'⟩ := hsaved.of_advance
  obtain ⟨e', q', rfl, hpc'⟩ := ReadGives.of_advance (s := s.setDevice e q) hpc
  exact .ret saved pc _ _ e' q' rfl hsaved' hpc'

/-- An instruction whose body `x` completes only as `State.Ends` says took a fault or ends so. -/
theorem conclude_ends {i : Instr} {s t : State} {x : Res Unit} (hx : ∀ {u : State}, x = .ok () u → s.Ends i u)
    (h : conclude s x = .next t) : (∃ ρ info u, t = takeFault s u ρ info) ∨ s.Ends i t := by
  rcases conclude_eq_next h with hok | ⟨ρ, info, u, -, rfl⟩
  · exact .inr (hx hok)
  · exact .inl ⟨ρ, info, u, rfl⟩

/-- Everything an instruction that answers a next state can be: a fault taken, or the end `State.Ends` gives it. -/
theorem exec_eq_next {i : Instr} {s t : State} (h : exec i s = .next t) :
    (∃ ρ info u, t = takeFault s u ρ info) ∨ s.Ends i t := by
  cases i.form with
  | nop =>
    cases h
    exact .inr (.fall (by simp [Instr.op]) nofun nofun)
  | swap =>
    cases h
    exact .inr (.swap rfl)
  | ldsL | ldfL => exact conclude_ends (direct_ends (loadL_ends (by simp [Instr.op]))) h
  | ldsR | ldfR => exact conclude_ends (direct_ends (loadR_ends (by simp [Instr.op]))) h
  | ldsiL | ldfiL => exact conclude_ends (viaPointer_ends fun _ => loadL_ends (by simp [Instr.op])) h
  | ldsiR | ldfiR => exact conclude_ends (viaPointer_ends fun _ => loadR_ends (by simp [Instr.op])) h
  | stsL off | stsR off =>
    exact conclude_ends (direct_ends (store_ends (by simp [Instr.op]) (.inl ⟨by simp [Instr.op], off, rfl, rfl⟩))) h
  | stfL off | stfR off =>
    exact conclude_ends
      (direct_ends (store_ends (by simp [Instr.op]) (.inr (.inl ⟨by simp [Instr.op], off, rfl, rfl⟩)))) h
  | stsiL | stsiR | stfiL | stfiR =>
    exact conclude_ends
      (viaPointer_ends fun hr => store_ends (by simp [Instr.op]) (writesAt_pointer (by simp [Instr.op]) rfl hr)) h
  | uopL u g =>
    refine conclude_ends (fun hu => ?_) (exec_uopL u g s ▸ h)
    cases hu
    exact .writeL _ s.deviceHistory s.deviceReplies (by simp)
  | uopR u g =>
    refine conclude_ends (fun hu => ?_) (exec_uopR u g s ▸ h)
    cases hu
    exact .writeR _ s.deviceHistory s.deviceReplies (by simp)
  | bopL b g =>
    refine conclude_ends (fun hb => ?_) (exec_bopL b g s ▸ h)
    obtain ⟨v, -, rfl⟩ := binaryToL_eq_ok hb
    exact .writeL v s.deviceHistory s.deviceReplies (by simp)
  | bopR b g =>
    refine conclude_ends (fun hb => ?_) (exec_bopR b g s ▸ h)
    obtain ⟨v, -, rfl⟩ := binaryToR_eq_ok hb
    exact .writeR v s.deviceHistory s.deviceReplies (by simp)
  | brl => exact conclude_ends (branch_ends (.inl rfl) rfl (fun _ => rfl) nofun) h
  | brr => exact conclude_ends (branch_ends (.inr rfl) rfl nofun (fun _ => rfl)) h
  | jmp off =>
    cases h
    exact .inr (.jump off (by simp [Instr.op]) rfl)
  | call => exact conclude_ends call_ends h
  | ret => exact conclude_ends ret_ends h

end Sys2Proof.Machine
end

