-- ==== Sys2Proof/Proofs/Frame.lean ====
section
/-! What each instruction and each step leaves unchanged, or changes, part by part: SPL and SPR (R26, R27), L and R (R21,
R22), PC (R24), plain memory (R33), a stopped engine (R31). Each is read off `State.Ends`. -/

namespace Sys2Proof.Machine

/-! ### SPL, SPR, L and R -/

theorem State.Ends.stack {s t : State} {i : Instr} (h : s.Ends i t) (hcall : i.op ≠ .call) (hret : i.op ≠ .ret) :
    t.spl = s.spl ∧ t.spr = s.spr := by
  cases h with
  | fall | writeL | writeR | swap | store | jump => exact ⟨rfl, rfl⟩
  | call _ _ _ _ _ _ hop => exact absurd hop hcall
  | ret _ _ _ _ _ _ hop => exact absurd hop hret

/-- Settles O51: a fault puts the registers back, and of the ends only those of `CALL` and `RET` write SPL and SPR. -/
theorem onlyCallAndReturnMoveTheStack : Obligations.OnlyCallAndReturnMoveTheStack := by
  intro i s t hcall hret h
  rcases exec_eq_next h with ⟨ρ, info, u, rfl⟩ | hends
  · exact ⟨rfl, rfl⟩
  · exact hends.stack hcall hret

theorem State.Ends.l_eq {s t : State} {i : Instr} (h : s.Ends i t)
    (hi : i.op ∉ [.ldsL, .ldsiL, .ldfL, .ldfiL, .uopL, .bopL, .swap]) : t.l = s.l := by
  cases h with
  | fall | writeR | store | jump | call | ret => rfl
  | writeL _ _ _ hop => exact absurd (List.mem_append_left (as := [_, _, _, _, _, _]) [Op.swap] hop) hi
  | swap hop => simp [hop] at hi

theorem State.Ends.r_eq {s t : State} {i : Instr} (h : s.Ends i t)
    (hi : i.op ∉ [.ldsR, .ldsiR, .ldfR, .ldfiR, .uopR, .bopR, .swap]) : t.r = s.r := by
  cases h with
  | fall | writeL | store | jump | call | ret => rfl
  | writeR _ _ _ hop => exact absurd (List.mem_append_left (as := [_, _, _, _, _, _]) [Op.swap] hop) hi
  | swap hop => simp [hop] at hi

/-- Settles O52: a fault puts L and R back, and of the ends only a write of L and `SWAP` change L, and so for R. -/
theorem onlyNamedInstructionsWriteWorkingRegisters : Obligations.OnlyNamedInstructionsWriteWorkingRegisters := by
  intro i s t h
  rcases exec_eq_next h with ⟨ρ, info, u, rfl⟩ | hends
  · exact ⟨fun _ => rfl, fun _ => rfl⟩
  · exact ⟨hends.l_eq, hends.r_eq⟩

/-! ### PC -/

/-- The two states have the same PC, its 32 bits and the mark of log 22. -/
def State.SamePc (s t : State) : Prop := s.pc = t.pc ∧ s.pcAbove = t.pcAbove

theorem State.SamePc.pcAddr_eq {s t : State} (h : s.SamePc t) : s.pcAddr = t.pcAddr := by
  unfold State.pcAddr
  rw [h.1, h.2]

/-- What a completed instruction does to PC: the increment, with the reason where it is a branch; the transfer; or the word
`RET` reads (R24, R160 to R166). -/
theorem State.Ends.pc_cases {s t : State} {i : Instr} (h : s.Ends i t) :
    (t.SamePc s.advance ∧ i.op ∉ [.jmp, .call, .ret] ∧ (i.op = .brl → s.l = 0) ∧ (i.op = .brr → s.r = 0)) ∨
      (∃ off, i.offset? = some off ∧ i.op ∈ [.brl, .brr, .jmp, .call] ∧ t.SamePc (s.goTo (s.cfg.codeBase + off))) ∨
      (i.op = .ret ∧ ∃ saved u v, ReadGives s (sint32 s.spl) saved u ∧ ReadGives u (sint32 s.spl - 1) t.pc v ∧
        t.pcAbove = false) := by
  have hnext {l : List Op} (hop : i.op ∈ l) (hl : ∀ o ∈ l, o ∉ [.jmp, .call, .ret, .brl, .brr]) :
      i.op ∉ [.jmp, .call, .ret] ∧ (i.op = .brl → s.l = 0) ∧ (i.op = .brr → s.r = 0) := by
    have := hl i.op hop
    simp_all
  cases h with
  | fall hop hl hr => exact .inl ⟨⟨rfl, rfl⟩, by grind, hl, hr⟩
  | writeL _ _ _ hop => exact .inl ⟨⟨rfl, rfl⟩, hnext hop (by decide)⟩
  | writeR _ _ _ hop => exact .inl ⟨⟨rfl, rfl⟩, hnext hop (by decide)⟩
  | swap hop => exact .inl ⟨⟨rfl, rfl⟩, hnext (List.mem_singleton.2 hop) (by decide)⟩
  | store _ _ _ hop => exact .inl ⟨⟨rfl, rfl⟩, hnext hop (by decide)⟩
  | jump off hop hoff => exact .inr (.inl ⟨off, hoff, by grind, rfl, rfl⟩)
  | call off _ _ _ _ _ hop hoff => exact .inr (.inl ⟨off, hoff, by grind, rfl, rfl⟩)
  | ret saved pc u v _ _ hop hsaved hpc => exact .inr (.inr ⟨hop, saved, u, v, hsaved, hpc, rfl⟩)

theorem State.Ends.status_eq {s t : State} {i : Instr} (h : s.Ends i t) : t.status = s.status := by
  cases h <;> rfl

/-- Settles O54: a fault taken, or the three things an end does to PC. -/
theorem pcAdvancesOrTransfers : Obligations.PcAdvancesOrTransfers := by
  intro i s t h
  rcases exec_eq_next h with ⟨ρ, info, u, rfl⟩ | hends
  · exact .inl ⟨ρ, info, rfl, rfl, rfl⟩
  · refine .inr ⟨hends.status_eq, ?_⟩
    rcases hends.pc_cases with ⟨⟨hpc, habove⟩, hop, -⟩ | ⟨off, hoff, hop, hpc, habove⟩ | hret
    · exact .inl ⟨hpc.trans (advance_pc s), habove, hop⟩
    · exact .inr (.inl ⟨off, hoff, hop, hpc, habove⟩)
    · exact .inr (.inr hret)

/-! ### Plain memory -/

theorem State.Ends.writtenAt {s t : State} {i : Instr} (h : s.Ends i t) :
    Memory.WrittenAt (s.WritesAt i) s.mem t.mem := by
  cases h with
  | fall | writeL | writeR | swap | jump | ret => exact .refl _ s.mem
  | store _ _ _ _ hm => exact hm
  | call _ _ _ _ _ _ _ _ hm => exact hm

/-- A step writes plain memory only where the instruction it runs does. -/
theorem step_writtenAt {s t : State} (h : step s = .next t) :
    Memory.WrittenAt (fun a => ∃ i, s.Runs i ∧ s.WritesAt i a) s.mem t.mem := by
  rcases step_cases h with ⟨-, rfl⟩ | ⟨-, -, rfl⟩ | ⟨-, -, ⟨ρ, info, -, rfl⟩ | ⟨w, i, hw, hdec, hexec⟩⟩
  · exact .refl _ _
  · exact .refl _ _
  · exact .refl _ _
  · rcases exec_eq_next hexec with ⟨ρ, info, u, rfl⟩ | hends
    · exact .refl _ _
    · exact fun b => (hends.writtenAt b).imp_right fun ⟨ha, hv⟩ => ⟨⟨i, ⟨w, hw, hdec⟩, ha⟩, hv⟩

/-- Settles O55: at each address a step leaves the word, or it is one the instruction writes and now holds a word. -/
theorem writtenWordsStayWritten : Obligations.WrittenWordsStayWritten := by
  intro s t a h
  rcases step_writtenAt h a with hsame | ⟨hrun, v, hv⟩
  · exact ⟨fun hw => hsame ▸ hw, fun hne => absurd hsame hne⟩
  · exact ⟨fun _ => by simp [hv], fun _ => hrun⟩

/-! ### A stopped engine -/

theorem step_of_stopped {s : State} (h : s.status ≠ .running) : step s = .next s := by
  unfold step
  split
  · exact absurd ‹_› h
  · rfl
  · rfl

/-- The first step of a run, where it answers a next state; the run goes on from there. -/
theorem run_succ_of_step {M : Host.Core} {k : Nat} {s t : M.State} (h : M.step s = .next t) :
    M.run (k + 1) s = M.run k t := by
  rw [Host.Core.run, h]

/-- Settles O34, by induction on the number of steps: a step of a stopped engine answers the same state. -/
theorem stoppedEngineNeverChanges : Obligations.StoppedEngineNeverChanges := by
  intro k s h
  induction k with
  | zero => rfl
  | succ k ih => exact (run_succ_of_step (M := core) (step_of_stopped h)).trans ih

end Sys2Proof.Machine
end

