-- ==== Sys2Proof/Proofs/Invariant.lean ====
section
/-! The invariant of a run (R33, R42, R45, R53, R167): what memory and the device history keep, said of each part of an
instruction whether it completes or faults; PC, which never wraps (R25, log 22); the invariant at each step and at the
start. -/

namespace Sys2Proof.Machine

/-! ### The state a run starts in -/

/-- The state `run(words)` starts in, where the image is not too long (R220). -/
theorem start_of_fits {c : Config} {words : List Word} (replies : List DeviceReply)
    (h : words.length ≤ c.stackBase - c.codeBase) :
    State.start c replies words =
      .next (((State.resetFor c).setMem (Memory.image c.codeBase words)).setDevice [] replies) := by
  simp [State.start, imageFits, h]

theorem start_eq_next {c : Config} {replies : List DeviceReply} {words : List Word} {s : State}
    (h : State.start c replies words = .next s) :
    words.length ≤ c.stackBase - c.codeBase ∧
      s = ((State.resetFor c).setMem (Memory.image c.codeBase words)).setDevice [] replies := by
  unfold State.start at h
  split at h
  · cases h
    exact ⟨by simpa [imageFits] using ‹imageFits c words = true›, rfl⟩
  · cases h

/-- Settles O46: the start state has the reset registers, and its memory is the image, read word by word. -/
theorem runStartsInResetState : Obligations.RunStartsInResetState := by
  refine ⟨fun c replies words h => ⟨_, start_of_fits replies h, rfl, rfl, rfl, rfl, rfl, rfl, fun i => ?_, fun a ha => ?_⟩,
    rfl, rfl, rfl, rfl, rfl, rfl, fun _ => rfl⟩
  · simp [Memory.read_image]
  · simp [Memory.read_image, show ¬ c.codeBase ≤ a by omega]

/-! ### Memory and the device history -/

/-- The part of the invariant about what is stored, with the parameters `c` of the run: memory canonical and within plain
addresses (R33, R42), device accesses within device space (R45, R53). -/
def State.Stored (c : Config) (s : State) : Prop :=
  s.cfg = c ∧ s.mem.wf ∧ (∀ p ∈ s.mem, c.codeBase ≤ p.1 ∧ p.1 < c.memSize) ∧
    ∀ e ∈ s.deviceHistory, eventAddress e < c.codeBase

theorem State.inv_iff (s : State) : s.Inv ↔ s.cfg.SizesValid ∧ s.PcAgrees ∧ s.Stored s.cfg ∧ s.StatusAgrees := by
  simp only [State.Inv, State.Stored, true_and, and_assoc]

/-- One more access of device space is recorded. -/
theorem State.Stored.record {c : Config} {s : State} {e : DeviceEvent} (h : s.Stored c) (he : eventAddress e < c.codeBase)
    (q : List DeviceReply) : (s.setDevice (s.deviceHistory ++ [e]) q).Stored c := by
  obtain ⟨hcfg, hwf, hplain, hdevice⟩ := h
  refine ⟨hcfg, hwf, hplain, fun x hx => ?_⟩
  rcases List.mem_append.1 hx with hx | hx
  · exact hdevice x hx
  · exact List.mem_singleton.1 hx ▸ he

/-- One plain word is written. -/
theorem State.Stored.write {c : Config} {s : State} {a : Nat} (h : s.Stored c) (ha : c.codeBase ≤ a ∧ a < c.memSize)
    (v : Word) : (s.setMem (s.mem.write a v)).Stored c := by
  obtain ⟨hcfg, hwf, hplain, hdevice⟩ := h
  refine ⟨hcfg, Memory.write_wf _ _ _ hwf, fun p hp => ?_, hdevice⟩
  rcases Memory.mem_write _ _ _ _ hp with rfl | hp
  · exact ha
  · exact hplain p hp

/-- Taking a fault keeps the memory of the start and the device accesses made since (R193). -/
theorem State.Stored.takeFault {c : Config} {s u : State} (hs : s.Stored c) (hu : u.Stored c) (ρ : Reason) (info : Info) :
    (takeFault s u ρ info).Stored c := by
  obtain ⟨hcfg, hwf, hplain, -⟩ := hs
  obtain ⟨-, -, -, hdevice⟩ := hu
  exact ⟨hcfg, hwf, hplain, hdevice⟩

/-- Whatever the part of an instruction comes to, the state it leaves has `P`. -/
def Res.All {α : Type} (P : State → Prop) : Res α → Prop
  | .ok _ s => P s
  | .raised _ _ s => P s
  | .stuck _ => True

theorem Res.All.bind {α β : Type} {P : State → Prop} {x : Res α} {k : α → State → Res β} (hx : x.All P)
    (hk : ∀ a s, P s → (k a s).All P) : (x.bind k).All P := by
  cases x with
  | ok a s => exact hk a s hx
  | raised ρ i s => exact hx
  | stuck => trivial

section
variable {c : Config} {s : State}

theorem memRead_stored {a : Int} (hs : s.Stored c) : (memRead a s).All (State.Stored c) := by
  cases hx : memRead a s with
  | ok w t =>
    rcases memRead_eq_ok hx with ⟨-, rfl⟩ | ⟨⟨h₀, ha, -⟩, -, rfl⟩
    · exact hs
    · refine hs.record ?_ s.deviceReplies.tail
      have hcfg : s.cfg = c := hs.1
      rw [hcfg] at ha
      simp only [eventAddress]
      omega
  | raised ρ i t =>
    obtain ⟨-, -, rfl⟩ := memRead_eq_raised hx
    exact hs
  | stuck => trivial

theorem memWrite_stored {a : Int} {v : Word} (hs : s.Stored c) : (memWrite a v s).All (State.Stored c) := by
  have hcfg : s.cfg = c := hs.1
  cases hx : memWrite a v s with
  | ok _ t =>
    rcases memWrite_eq_ok hx with ⟨⟨hlow, htop⟩, rfl⟩ | ⟨⟨h₀, hbase, -⟩, rfl⟩
    · rw [hcfg] at hlow htop
      exact hs.write (by omega) v
    · rw [hcfg] at hbase
      refine hs.record ?_ s.deviceReplies
      simp only [eventAddress]
      omega
  | raised ρ i t =>
    obtain ⟨-, -, -, rfl⟩ := memWrite_eq_raised hx
    exact hs
  | stuck => trivial

theorem loadL_stored {a : Int} (hs : s.Stored c) : (loadL a s).All (State.Stored c) :=
  (memRead_stored hs).bind fun _ _ hu => hu

theorem loadR_stored {a : Int} (hs : s.Stored c) : (loadR a s).All (State.Stored c) :=
  (memRead_stored hs).bind fun _ _ hu => hu

theorem storeL_stored {a : Int} (hs : s.Stored c) : (storeL a s).All (State.Stored c) := memWrite_stored hs

theorem storeR_stored {a : Int} (hs : s.Stored c) : (storeR a s).All (State.Stored c) := memWrite_stored hs

theorem viaPointer_stored {a : Int} {access : Int → State → Res Unit}
    (haccess : ∀ {b : Int} {u : State}, u.Stored c → (access b u).All (State.Stored c)) (hs : s.Stored c) :
    (viaPointer a access s).All (State.Stored c) :=
  (memRead_stored hs).bind fun _ _ hu => haccess hu

theorem binaryToL_stored {o : BinOp} {w : Word} (hs : s.Stored c) : (binaryToL o w s).All (State.Stored c) := by
  unfold binaryToL
  split <;> exact hs

theorem binaryToR_stored {o : BinOp} {w : Word} (hs : s.Stored c) : (binaryToR o w s).All (State.Stored c) := by
  unfold binaryToR
  split <;> exact hs

/-- `BRL` and `BRR`: the transfer and the fall-through alike. -/
theorem branch_stored {taken : Bool} {off : Int} (hs : s.Stored c) :
    (if taken then jumpTo off s else .ok () s).All (State.Stored c) := by
  split <;> exact hs

theorem enterFrame_stored {S n next : Int} (hs : s.Stored c) : (enterFrame S n next s).All (State.Stored c) :=
  (memWrite_stored hs).bind fun _ _ ht => (memWrite_stored ht).bind fun _ _ hu => hu

theorem callBody_stored {off : Int} (hs : s.Stored c) : (callBody off s).All (State.Stored c) := by
  refine (memRead_stored hs).bind fun nw u hu => ?_
  unfold callWithSize
  simp only
  split
  · exact hu
  · split
    · exact hu
    · exact enterFrame_stored hu

theorem retBody_stored (hs : s.Stored c) : (retBody s).All (State.Stored c) :=
  (memRead_stored hs).bind fun _ _ hu => (memRead_stored hu).bind fun _ _ hv => hv

theorem conclude_stored {t : State} {x : Res Unit} (hs : s.Stored c) (hx : x.All (State.Stored c))
    (h : conclude s x = .next t) : t.Stored c := by
  rcases conclude_eq_next h with rfl | ⟨ρ, info, u, rfl, rfl⟩
  · exact hx
  · exact hs.takeFault hx ρ info

/-- Every instruction keeps memory and the device history as the invariant has them, completed or faulted. -/
theorem exec_stored {i : Instr} {t : State} (hs : s.Stored c) (h : exec i s = .next t) : t.Stored c := by
  have hadv : s.advance.Stored c := hs
  cases i.form with
  | nop | swap =>
    cases h
    exact hs
  | ldsL | ldfL => exact conclude_stored hs (loadL_stored hadv) h
  | ldsR | ldfR => exact conclude_stored hs (loadR_stored hadv) h
  | stsL | stfL => exact conclude_stored hs (storeL_stored hadv) h
  | stsR | stfR => exact conclude_stored hs (storeR_stored hadv) h
  | ldsiL | ldfiL => exact conclude_stored hs (viaPointer_stored loadL_stored hadv) h
  | ldsiR | ldfiR => exact conclude_stored hs (viaPointer_stored loadR_stored hadv) h
  | stsiL | stfiL => exact conclude_stored hs (viaPointer_stored storeL_stored hadv) h
  | stsiR | stfiR => exact conclude_stored hs (viaPointer_stored storeR_stored hadv) h
  | uopL u g => exact conclude_stored (x := unaryToL u s.advance) hs hadv (exec_uopL u g s ▸ h)
  | uopR u g => exact conclude_stored (x := unaryToR u s.advance) hs hadv (exec_uopR u g s ▸ h)
  | bopL b g => exact conclude_stored hs (binaryToL_stored hadv) (exec_bopL b g s ▸ h)
  | bopR b g => exact conclude_stored hs (binaryToR_stored hadv) (exec_bopR b g s ▸ h)
  | brl => exact conclude_stored hs (branch_stored hadv) h
  | brr => exact conclude_stored hs (branch_stored hadv) h
  | jmp off => exact conclude_stored (x := jumpTo off s.advance) hs hadv h
  | call => exact conclude_stored hs (callBody_stored hadv) h
  | ret => exact conclude_stored hs (retBody_stored hadv) h

end

/-! ### PC never wraps -/

/-- A PC set to an address below 2^32 is that address where it counts as above 2^31 - 1 (R25). -/
theorem goTo_pcAgrees {s : State} {a : Int} (h : a < 4294967296) : (s.goTo a).PcAgrees := by
  intro habove
  have hlow : 2147483648 ≤ a := by simpa using habove
  have haddr := goTo_pcAddr (s := s) (by omega) h
  rw [pcAddr_eq_uint32 habove] at haddr
  omega

theorem State.PcAgrees.of_samePc {s t : State} (h : s.SamePc t) (ht : t.PcAgrees) : s.PcAgrees := by
  unfold State.PcAgrees
  rw [h.1, h.2]
  exact ht

section
variable {s t : State} {i : Instr}

/-- An instruction at a plain address leaves PC unwrapped: the increment goes to `MEM_SIZE` at most, and a transfer less than
2^24 above `CODE_BASE` (R73). -/
theorem State.Ends.pcAgrees (hends : s.Ends i t) (hsizes : s.cfg.SizesValid) (haddr : s.PlainAddr s.pcAddr)
    (hi : WellFormed i) : t.PcAgrees := by
  obtain ⟨-, hcode, hstack, hmem, -⟩ := hsizes
  obtain ⟨-, htop⟩ := haddr
  rcases hends.pc_cases with ⟨hpc, -⟩ | ⟨off, hoff, -, hpc⟩ | ⟨-, _, _, _, -, -, habove⟩
  · exact .of_samePc hpc (goTo_pcAgrees (by omega))
  · have hbounds := hi.offset_bounds hoff
    exact .of_samePc hpc (goTo_pcAgrees (by omega))
  · exact fun h => absurd h (by simp [habove])

/-- With the sizes of the spec's defaults no instruction sets PC to an address of 2^31 or more. -/
theorem State.Ends.pcAbove_eq_false (hends : s.Ends i t) (hmem : s.cfg.memSize < 2 ^ 31)
    (hcode : s.cfg.codeBase + 2 ^ 23 ≤ 2 ^ 31) (haddr : s.PlainAddr s.pcAddr) (hi : WellFormed i) :
    t.pcAbove = false := by
  obtain ⟨-, htop⟩ := haddr
  rcases hends.pc_cases with ⟨⟨-, habove⟩, -⟩ | ⟨off, hoff, -, -, habove⟩ | ⟨-, _, _, _, -, -, habove⟩
  · rw [habove, advance_pcAbove, decide_eq_false_iff_not]
    omega
  · have hbounds := hi.offset_bounds hoff
    rw [habove, goTo_pcAbove, decide_eq_false_iff_not]
    omega
  · exact habove

end

/-- Settles O42: only the increment and the transfers could set the mark, and their addresses are below 2^31. -/
theorem pcIsPlainlyReadBelowTheTop : Obligations.PcIsPlainlyReadBelowTheTop := by
  intro s t _ hmem hcode habove h
  suffices ht : t.pcAbove = false from ⟨ht, pcAddr_eq_sint32 ht⟩
  rcases step_cases h with ⟨-, rfl⟩ | ⟨-, -, rfl⟩ | ⟨-, -, ⟨ρ, info, -, rfl⟩ | ⟨w, i, ⟨haddr, -⟩, hdec, hexec⟩⟩
  · exact habove
  · exact habove
  · exact habove
  · rcases exec_eq_next hexec with ⟨ρ, info, u, rfl⟩ | hends
    · exact habove
    · exact hends.pcAbove_eq_false hmem hcode haddr (decode_wellFormed hdec)

/-- A fault of the fetch or the decode is taken in the state the step began in (R160). -/
theorem step_of_fetch_raised {s u : State} {ρ : Reason} {info : Info} (hrun : s.status = .running)
    (hbelow : belowCode s = false) (hfetch : fetchDecode s = .raised ρ info u) :
    step s = .next (takeFault s u ρ info) := by
  simp [step, hrun, hbelow, hfetch, runFetched]

/-- A running engine with PC at `MEM_SIZE` or above faults at the fetch (R160, R161). -/
theorem step_of_memSize_le_pcAddr {s : State} (hsizes : s.cfg.SizesValid) (hrun : s.status = .running)
    (h : s.cfg.memSize ≤ s.pcAddr) : step s = .next (faultRecord s s .addressOutOfRange (.int s.pcAddr)) := by
  obtain ⟨-, hcode, hstack, -⟩ := hsizes
  have hbelow : belowCode s = false := by
    rw [belowCode, decide_eq_false_iff_not]
    omega
  refine step_of_fetch_raised hrun hbelow ?_
  rw [fetchDecode, memRead_of_faults (.inl ⟨.inr h, rfl⟩), Res.bind_raised]

/-- The address PC names after an instruction without a fault, `RET` aside: the next one, or the transfer's target (R25). -/
theorem State.Ends.pcAddr_cases {s t : State} {i : Instr} (hends : s.Ends i t) (hsizes : s.cfg.SizesValid)
    (haddr : s.PlainAddr s.pcAddr) (hi : WellFormed i) (hret : i.op ≠ .ret) :
    (t.pcAddr = s.pcAddr + 1 ∧ i.op ∉ [.jmp, .call, .ret] ∧ (i.op = .brl → s.l = 0) ∧ (i.op = .brr → s.r = 0)) ∨
      ∃ off, i.offset? = some off ∧ t.pcAddr = s.cfg.codeBase + off := by
  obtain ⟨-, hcode, hstack, hmem, -⟩ := hsizes
  obtain ⟨hlow, htop⟩ := haddr
  rcases hends.pc_cases with ⟨hpc, hrest⟩ | ⟨off, hoff, -, hpc⟩ | ⟨hop, -⟩
  · exact .inl ⟨hpc.pcAddr_eq.trans (advance_pcAddr (by omega) (by omega)), hrest⟩
  · have hbounds := hi.offset_bounds hoff
    exact .inr ⟨off, hoff, hpc.pcAddr_eq.trans (goTo_pcAddr (by omega) (by omega))⟩
  · exact absurd hop hret

/-- Settles O41: the increment of `NOP`; the ends of the transfers, whose addresses the 32 bits and the mark of PC hold; and
the fetch at `MEM_SIZE` or above. -/
theorem pcNeverWraps : Obligations.PcNeverWraps := by
  refine ⟨fun s hsizes haddr => ⟨fun g => ⟨s.advance, rfl, advance_pc s, ?_⟩, fun i off t hmem hi hs h ht => ?_⟩,
    fun s => step_of_memSize_le_pcAddr⟩
  · obtain ⟨-, hcode, hstack, hmem, -⟩ := hsizes
    obtain ⟨hlow, htop⟩ := haddr
    exact advance_pcAddr (by omega) (by omega)
  · have hends : s.Ends i t := by
      rcases exec_eq_next h with ⟨ρ, info, u, rfl⟩ | hends
      · cases ht
      · exact hends
    have hform : i = .brl off ∨ i = .brr off ∨ i = .jmp off ∨ i = .call off := by simpa using hmem
    obtain ⟨hoff, hret⟩ : i.offset? = some off ∧ i.op ≠ .ret := by
      rcases hform with rfl | rfl | rfl | rfl <;> exact ⟨rfl, nofun⟩
    rcases hends.pcAddr_cases hsizes haddr hi hret with ⟨hnext, hnot, hl, hr⟩ | ⟨off', hoff', htarget⟩
    · refine .inr ⟨hnext, ?_⟩
      rcases hform with rfl | rfl | rfl | rfl
      · exact .inl ⟨rfl, hl rfl⟩
      · exact .inr ⟨rfl, hr rfl⟩
      · exact absurd (by simp [Instr.op]) hnot
      · exact absurd (by simp [Instr.op]) hnot
    · obtain rfl : off = off' := Option.some.inj (hoff.symm.trans hoff')
      exact .inl htarget

/-! ### The invariant -/

theorem statusAgrees_of_running {s : State} (h : s.status = .running) : s.StatusAgrees := by
  simp [State.StatusAgrees, h]

theorem statusAgrees_halt {s : State} (h : belowCode s = true) : (halt s).StatusAgrees :=
  of_decide_eq_true (p := s.pcAddr < s.cfg.codeBase) h

theorem statusAgrees_takeFault {s : State} (h : belowCode s = false) (u : State) (ρ : Reason) (info : Info) :
    (takeFault s u ρ info).StatusAgrees :=
  ⟨rfl, Int.not_lt.1 (of_decide_eq_false (p := s.pcAddr < s.cfg.codeBase) h)⟩

/-- Settles O43: by the cases of a step. Memory and the device history are kept by each part of the instruction; the sizes
are; PC by where it goes; the status changes only in the halt and in a fault taken. -/
theorem stepKeepsInvariant : Obligations.StepKeepsInvariant := by
  intro s t hinv h
  obtain ⟨hsizes, hpc, hstored, -⟩ := s.inv_iff.1 hinv
  rcases step_cases h with ⟨-, rfl⟩ | ⟨-, hbelow, rfl⟩ |
    ⟨hrun, hbelow, ⟨ρ, info, -, rfl⟩ | ⟨w, i, ⟨haddr, -⟩, hdec, hexec⟩⟩
  · exact hinv
  · exact (State.inv_iff _).2 ⟨hsizes, hpc, hstored, statusAgrees_halt hbelow⟩
  · exact (State.inv_iff _).2
      ⟨hsizes, hpc, hstored.takeFault hstored ρ info, statusAgrees_takeFault hbelow s ρ info⟩
  · have ht : t.Stored s.cfg := exec_stored hstored hexec
    have hcfg : t.cfg = s.cfg := exec_cfg hexec
    rw [State.inv_iff, hcfg]
    rcases exec_eq_next hexec with ⟨ρ, info, u, rfl⟩ | hends
    · exact ⟨hsizes, hpc, ht, statusAgrees_takeFault hbelow u ρ info⟩
    · exact ⟨hsizes, hends.pcAgrees hsizes haddr (decode_wellFormed hdec), ht,
        statusAgrees_of_running (hends.status_eq.trans hrun)⟩

/-- Settles O45: an image that fits lies between `CODE_BASE` and `STACK_BASE`, in canonical form. -/
theorem startMeetsInvariant : Obligations.StartMeetsInvariant := by
  intro c replies words s hsizes h
  obtain ⟨hfits, rfl⟩ := start_eq_next h
  refine (State.inv_iff _).2 ⟨hsizes, nofun, ⟨rfl, Memory.image_wf words c.codeBase, fun p hp => ?_, nofun⟩, trivial⟩
  obtain ⟨-, hcode, hstack, -⟩ := hsizes
  have hp := Memory.mem_image words c.codeBase p hp
  simp only [setDevice_cfg, setMem_cfg, State.resetFor]
  omega

/-- Settles O44: the reset state is the start of a run of the empty image under the defaults. -/
theorem resetMeetsInvariant : Obligations.ResetMeetsInvariant :=
  startMeetsInvariant Config.default [] [] State.reset (by norm_num [Config.SizesValid, Config.default])
    (start_of_fits [] (Nat.zero_le _))

end Sys2Proof.Machine
end

