-- ==== Sys2Proof/Proofs/MemoryPort.lean ====
section
/-! The memory port on its own (R43 to R45): a plain word read after a write, a device access as one event; and an
instruction whose first access faults (R193, R194). -/

namespace Sys2Proof.Machine

/-! ### One access -/

/-- A completed read of a plain address found the written word there. -/
theorem holds_of_memRead_plain {s t : State} {a : Int} {w : Word} (ha : s.PlainAddr a) (h : memRead a s = .ok w t) :
    s.Holds a w := by
  rcases memRead_eq_ok h with ⟨hw, -⟩ | ⟨⟨-, hbase, -⟩, -⟩
  · exact hw
  · obtain ⟨hlow, -⟩ := ha
    omega

/-- A plain word that is written holds its word. -/
theorem holds_setMem_write {s : State} {a : Int} {w : Word} (ha : s.PlainAddr a) :
    (s.setMem (s.mem.write a.toNat w)).Holds a w :=
  ⟨ha, Memory.read_write_same ..⟩

/-- Writing a plain word leaves what another plain address holds. -/
theorem State.Holds.setMem_write {s : State} {a b : Int} {w : Word} (h : s.Holds b w) (ha : s.PlainAddr a) (hne : b ≠ a)
    (v : Word) : (s.setMem (s.mem.write a.toNat v)).Holds b w := by
  obtain ⟨hb, hw⟩ := h
  refine ⟨hb, ?_⟩
  have hne' : b.toNat ≠ a.toNat := by
    obtain ⟨halow, -⟩ := ha
    obtain ⟨hblow, -⟩ := hb
    omega
  rw [setMem_mem, Memory.read_write_other _ _ _ _ hne', hw]

/-- Settles O56: the state after the write holds the word at its address and the old words elsewhere. -/
theorem plainWordReadsBackAsWritten : Obligations.PlainWordReadsBackAsWritten := by
  intro s a v ha
  refine ⟨_, memWrite_plain ha, memRead_of_gives (.inl ⟨holds_setMem_write ha, rfl⟩), fun b w hb hne hread => ?_⟩
  have hw : s.Holds b w := holds_of_memRead_plain hb hread
  exact memRead_of_gives (.inl ⟨hw.setMem_write ha hne v, rfl⟩)

/-- Settles O57: the port's read of a device address, answered, and its write there. -/
theorem deviceAccessesAreRecorded : Obligations.DeviceAccessesAreRecorded := fun _ _ _ ha =>
  ⟨fun _ hw => memRead_of_gives (.inr ⟨ha, hw, rfl⟩), memWrite_device ha⟩

/-! ### A first access that faults -/

/-- An instruction whose body raises a fault before any device access: the record, and nothing else (R193). -/
theorem conclude_of_raised_at_advance {s : State} {x : Res Unit} {ρ : Reason} {info : Info}
    (h : x = .raised ρ info s.advance) : conclude s x = .next (faultRecord s s ρ info) := by
  rw [h, conclude_raised]
  rfl

/-- The faults of a read do not depend on PC: a read after the increment faults as before it. -/
theorem ReadFaults.advance {s : State} {a : Int} {ρ : Reason} (h : ReadFaults s a ρ) : ReadFaults s.advance a ρ := h

section
variable {s : State} {a : Int} {ρ : Reason}

theorem conclude_loadL_of_faults (h : ReadFaults s a ρ) :
    conclude s (loadL a s.advance) = .next (faultRecord s s ρ (.int a)) :=
  conclude_of_raised_at_advance (loadL_of_faults h.advance)

theorem conclude_loadR_of_faults (h : ReadFaults s a ρ) :
    conclude s (loadR a s.advance) = .next (faultRecord s s ρ (.int a)) :=
  conclude_of_raised_at_advance (loadR_of_faults h.advance)

theorem conclude_viaPointer_of_faults (access : Int → State → Res Unit) (h : ReadFaults s a ρ) :
    conclude s (viaPointer a access s.advance) = .next (faultRecord s s ρ (.int a)) :=
  conclude_of_raised_at_advance (viaPointer_of_faults h.advance)

theorem conclude_memWrite_outside (v : Word) (h : s.OutsideAddr a) :
    conclude s (memWrite a v s.advance) = .next (faultRecord s s .addressOutOfRange (.int a)) :=
  conclude_of_raised_at_advance (memWrite_outside (s := s.advance) h)

end

/-- Settles O24: by the part each instruction begins with, at the static and at the frame address: a load, a pointer read,
a store. -/
theorem firstAccessFaults : Obligations.FirstAccessFaults := fun s _ =>
  ⟨fun _ h => ⟨conclude_loadL_of_faults h, conclude_loadR_of_faults h, conclude_viaPointer_of_faults loadL h,
      conclude_viaPointer_of_faults loadR h, conclude_viaPointer_of_faults storeL h,
      conclude_viaPointer_of_faults storeR h⟩,
    fun _ h => ⟨conclude_loadL_of_faults h, conclude_loadR_of_faults h, conclude_viaPointer_of_faults loadL h,
      conclude_viaPointer_of_faults loadR h, conclude_viaPointer_of_faults storeL h,
      conclude_viaPointer_of_faults storeR h⟩,
    fun h => ⟨conclude_memWrite_outside s.l h, conclude_memWrite_outside s.r h⟩,
    fun h => ⟨conclude_memWrite_outside s.l h, conclude_memWrite_outside s.r h⟩⟩

end Sys2Proof.Machine
end

