-- ==== Sys2Proof/Proofs/Fetch.lean ====
section
/-! The fetch reads plain memory through the same port as a load (R51), so a word stored or placed where PC points is the
one that runs. -/

namespace Sys2Proof.Machine

theorem belowCode_eq_false {s : State} (h : s.cfg.codeBase ≤ s.pcAddr) : belowCode s = false := by
  rw [belowCode, decide_eq_false_iff_not]
  omega

/-- The fetch of a written plain word that decodes changes nothing (R160). -/
theorem fetchDecode_of_holds {s : State} {w : Word} {i : Instr} (hw : s.Holds s.pcAddr w)
    (hdec : decode s.cfg w = .ok i) : fetchDecode s = .ok i s := by
  rw [fetchDecode, memRead_of_gives (.inl ⟨hw, rfl⟩), Res.bind_ok, decodeWord, hdec]

/-- A running engine at a written plain word that decodes runs the decoded instruction (R160). -/
theorem step_of_holds {s : State} {w : Word} {i : Instr} (hrun : s.status = .running) (hw : s.Holds s.pcAddr w)
    (hdec : decode s.cfg w = .ok i) : step s = exec i s := by
  have ⟨⟨hlow, _⟩, _⟩ := hw
  simp [step, hrun, belowCode_eq_false hlow, fetchDecode_of_holds hw hdec, runFetched]

/-! ### A word placed for the next fetch -/

/-- PC of a fetchable state names a plain word: its own, or `CODE_BASE` (R7). -/
theorem toFetchable_plainAddr {s : State} (hsizes : s.cfg.SizesValid) :
    (toFetchable s).PlainAddr (toFetchable s).pcAddr := by
  unfold toFetchable
  split
  · assumption
  · obtain ⟨-, hcode, hstack, hmem, -⟩ := hsizes
    rw [State.PlainAddr, goTo_pcAddr (by omega) (by omega), goTo_cfg]
    omega

@[simp] theorem toFetchable_mem (s : State) : (toFetchable s).mem = s.mem := by
  unfold toFetchable
  split <;> rfl

@[simp] theorem toFetchable_cfg (s : State) : (toFetchable s).cfg = s.cfg := by
  unfold toFetchable
  split <;> rfl

theorem placeFetchWord_holds {s : State} (hsizes : s.cfg.SizesValid) (w : Word) :
    (placeFetchWord s w).Holds (placeFetchWord s w).pcAddr w := by
  have haddr := toFetchable_plainAddr hsizes
  have hw := holds_setMem_write (s := (toFetchable s).setStatus .running) (w := w) haddr
  rwa [setStatus_mem, toFetchable_mem] at hw

/-- Settles O38: the placed word is held where PC points, and the state is running. -/
theorem fetchWordIsRunNext : Obligations.FetchWordIsRunNext := by
  intro s w i hsizes hdec
  have hword : s.withFetchWord 32 w = placeFetchWord s (BitVec.ofNat 32 w) :=
    congrArg (placeFetchWord s) (BitVec.eq_of_toNat_eq (by simp))
  have hcfg : (placeFetchWord s (BitVec.ofNat 32 w)).cfg = s.cfg := toFetchable_cfg s
  rw [hword]
  exact step_of_holds rfl (placeFetchWord_holds hsizes _) (hcfg ▸ hdec)

/-! ### A word stored for the next fetch -/

theorem exec_stsL_of_plainAddr {s : State} {off a : Int} (hoff : s.cfg.codeBase + off = a) (ha : s.PlainAddr a) :
    exec (.stsL off) s = .next (s.advance.setMem (s.mem.write a.toNat s.l)) := by
  subst hoff
  exact congrArg (conclude s) (memWrite_plain (s := s.advance) ha)

/-- Settles O39: after the increment PC points to the word just stored. -/
theorem storedInstructionIsFetchedNext : Obligations.StoredInstructionIsFetchedNext := by
  intro s off hsizes hrun haddr hoff htop
  obtain ⟨-, -, -, hmem, -⟩ := hsizes
  obtain ⟨hlow, -⟩ := haddr
  have hnext : s.advance.pcAddr = s.pcAddr + 1 := advance_pcAddr (by omega) (by omega)
  have hplain : s.advance.PlainAddr s.advance.pcAddr := by
    rw [State.PlainAddr, hnext, advance_cfg]
    omega
  have hheld := holds_setMem_write (w := s.l) hplain
  exact ⟨_, exec_stsL_of_plainAddr (hoff.trans hnext.symm) hplain, hheld,
    fun _ => step_of_holds (s := s.advance.setMem _) hrun hheld⟩

end Sys2Proof.Machine
end

