-- ==== Sys2Proof/Proofs/Accesses.lean ====
section
/-! The accesses an instruction makes after its fetch (R52): which instructions write plain memory, which touch no device,
and how many device accesses one step can make. -/

namespace Sys2Proof.Machine

/-! ### What a part leaves, through its sequence and its end -/

/-- A sequence of parts, where the second part's property is weaker than the first's. -/
theorem Res.All.seq {α β : Type} {P Q : State → Prop} {x : Res α} {k : α → State → Res β} (hx : x.All P)
    (hPQ : ∀ s, P s → Q s) (hk : ∀ a s, P s → (k a s).All Q) : (x.bind k).All Q := by
  cases x with
  | ok a s => exact hk a s hx
  | raised ρ i s => exact hPQ s hx
  | stuck => trivial

/-- An instruction keeps a property that its body has and that taking a fault keeps. -/
theorem Res.All.conclude {P : State → Prop} {s t : State} {x : Res Unit} (hx : x.All P)
    (hfault : ∀ u ρ info, P u → P (takeFault s u ρ info)) (h : conclude s x = .next t) : P t := by
  rcases conclude_eq_next h with rfl | ⟨ρ, info, u, rfl, rfl⟩
  · exact hx
  · exact hfault u ρ info hx

/-! ### Instructions that touch no device -/

/-- No device access was made and no reply used from `s` to `t`. -/
def State.SameDevice (s t : State) : Prop := t.deviceHistory = s.deviceHistory ∧ t.deviceReplies = s.deviceReplies

theorem State.SameDevice.takeFault {s u : State} (ρ : Reason) (info : Info) (h : s.SameDevice u) :
    s.SameDevice (takeFault s u ρ info) := h

theorem conclude_sameDevice {s t : State} {x : Res Unit} (hx : x.All s.SameDevice) (h : conclude s x = .next t) :
    s.SameDevice t :=
  hx.conclude (fun _ ρ info hu => hu.takeFault ρ info) h

theorem binaryToL_sameDevice {s u : State} (o : BinOp) (w : Word) (hu : s.SameDevice u) :
    (binaryToL o w u).All s.SameDevice := by
  unfold binaryToL
  split <;> exact hu

theorem binaryToR_sameDevice {s u : State} (o : BinOp) (w : Word) (hu : s.SameDevice u) :
    (binaryToR o w u).All s.SameDevice := by
  unfold binaryToR
  split <;> exact hu

/-- `BRL` and `BRR`: the transfer and the fall-through alike. -/
theorem branch_sameDevice {s u : State} {taken : Bool} {off : Int} (hu : s.SameDevice u) :
    (if taken then jumpTo off u else .ok () u).All s.SameDevice := by
  split <;> exact hu

/-- The instructions that R52 gives no access after the fetch. -/
theorem exec_sameDevice {i : Instr} {s t : State}
    (hop : i.op ∈ [.nop, .uopL, .uopR, .bopL, .bopR, .swap, .brl, .brr, .jmp]) (h : exec i s = .next t) :
    s.SameDevice t := by
  have hadv : s.SameDevice s.advance := ⟨rfl, rfl⟩
  cases i.form with
  | nop | swap | jmp => cases h; exact hadv
  | uopL u g => exact conclude_sameDevice (x := unaryToL u s.advance) hadv (exec_uopL u g s ▸ h)
  | uopR u g => exact conclude_sameDevice (x := unaryToR u s.advance) hadv (exec_uopR u g s ▸ h)
  | bopL b g => exact conclude_sameDevice (binaryToL_sameDevice b _ hadv) (exec_bopL b g s ▸ h)
  | bopR b g => exact conclude_sameDevice (binaryToR_sameDevice b _ hadv) (exec_bopR b g s ▸ h)
  | brl | brr => exact conclude_sameDevice (branch_sameDevice hadv) h
  | ldsL | ldsR | stsL | stsR | ldsiL | ldsiR | stsiL | stsiR | ldfL | ldfR | stfL | stfR | ldfiL | ldfiR | stfiL | stfiR
  | call | ret => simp [Instr.op] at hop

/-! ### Instructions that write no plain memory -/

theorem State.Ends.mem_eq {s t : State} {i : Instr} (h : s.Ends i t)
    (hi : i.op ∉ [.stsL, .stsR, .stsiL, .stsiR, .stfL, .stfR, .stfiL, .stfiR, .call]) : t.mem = s.mem := by
  cases h with
  | fall | writeL | writeR | swap | jump | ret => rfl
  | store _ _ _ hop => exact absurd (List.mem_append_left (as := [_, _, _, _, _, _, _, _]) [Op.call] hop) hi
  | call _ _ _ _ _ _ hop => simp [hop] at hi

/-- Settles O53: a fault puts memory back, and of the ends only those of a store and of `CALL` write it; the other clause
by the parts of the instructions it names. -/
theorem onlyStoresAndCallWriteMemory : Obligations.OnlyStoresAndCallWriteMemory := by
  intro i s t h
  refine ⟨fun hi => ?_, fun hop => exec_sameDevice hop h⟩
  rcases exec_eq_next h with ⟨ρ, info, u, rfl⟩ | hends
  · exact takeFault_mem s u ρ info
  · exact hends.mem_eq hi

/-! ### The number of device accesses -/

/-- The device history of `s` is `h` followed by at most `n` accesses in the device space of the parameters `c` (R45). -/
def State.Accessed (c : Config) (h : List DeviceEvent) (n : Nat) (s : State) : Prop :=
  s.cfg = c ∧ ∃ accesses, s.deviceHistory = h ++ accesses ∧ accesses.length ≤ n ∧
    ∀ e ∈ accesses, eventAddress e < c.codeBase

section
variable {c : Config} {h : List DeviceEvent} {n : Nat} {s : State}

theorem accessed_of_same (hcfg : s.cfg = c) (hs : s.deviceHistory = h) : s.Accessed c h n :=
  ⟨hcfg, [], by simpa using hs, Nat.zero_le n, nofun⟩

theorem State.Accessed.mono {m : Nat} (hs : s.Accessed c h n) (hmn : n ≤ m) : s.Accessed c h m := by
  obtain ⟨hcfg, accesses, heq, hlen, hspace⟩ := hs
  exact ⟨hcfg, accesses, heq, hlen.trans hmn, hspace⟩

theorem State.Accessed.succ (hs : s.Accessed c h n) : s.Accessed c h (n + 1) := hs.mono n.le_succ

/-- One more access of device space is recorded. -/
theorem State.Accessed.record {a : Int} {e : DeviceEvent} (hs : s.Accessed c h n) (ha : s.DeviceAddr a)
    (he : eventAddress e = a.toNat) (q : List DeviceReply) :
    (s.setDevice (s.deviceHistory ++ [e]) q).Accessed c h (n + 1) := by
  obtain ⟨rfl, accesses, heq, hlen, hspace⟩ := hs
  refine ⟨rfl, accesses ++ [e], by simp [heq], by simpa using hlen, fun x hx => ?_⟩
  rcases List.mem_append.1 hx with hx | hx
  · exact hspace x hx
  · obtain ⟨hlow, hbase, -⟩ := ha
    rw [List.mem_singleton.1 hx, he]
    omega

/-- A read is at most one device access. -/
theorem memRead_accessed {a : Int} (hs : s.Accessed c h n) : (memRead a s).All (State.Accessed c h (n + 1)) := by
  cases hx : memRead a s with
  | ok w t =>
    rcases memRead_eq_ok hx with ⟨-, rfl⟩ | ⟨ha, -, rfl⟩
    · exact hs.succ
    · exact hs.record ha rfl s.deviceReplies.tail
  | raised ρ i t =>
    obtain ⟨-, -, rfl⟩ := memRead_eq_raised hx
    exact hs.succ
  | stuck => trivial

/-- A write is at most one device access. -/
theorem memWrite_accessed {a : Int} {v : Word} (hs : s.Accessed c h n) :
    (memWrite a v s).All (State.Accessed c h (n + 1)) := by
  cases hx : memWrite a v s with
  | ok _ t =>
    rcases memWrite_eq_ok hx with ⟨-, rfl⟩ | ⟨ha, rfl⟩
    · exact hs.succ
    · exact hs.record ha rfl s.deviceReplies
  | raised ρ i t =>
    obtain ⟨-, -, -, rfl⟩ := memWrite_eq_raised hx
    exact hs.succ
  | stuck => trivial

/-- A write above device space is no device access. -/
theorem memWrite_accessed_of_le {a : Int} {v : Word} (hs : s.Accessed c h n) (ha : c.codeBase ≤ a) :
    (memWrite a v s).All (State.Accessed c h n) := by
  cases hx : memWrite a v s with
  | ok _ t =>
    rcases memWrite_eq_ok hx with ⟨-, rfl⟩ | ⟨⟨-, hbase, -⟩, -⟩
    · exact hs
    · obtain ⟨rfl, -⟩ := hs
      omega
  | raised ρ i t =>
    obtain ⟨-, -, -, rfl⟩ := memWrite_eq_raised hx
    exact hs
  | stuck => trivial

theorem loadL_accessed {a : Int} (hs : s.Accessed c h n) : (loadL a s).All (State.Accessed c h (n + 1)) :=
  (memRead_accessed hs).bind fun _ _ hu => hu

theorem loadR_accessed {a : Int} (hs : s.Accessed c h n) : (loadR a s).All (State.Accessed c h (n + 1)) :=
  (memRead_accessed hs).bind fun _ _ hu => hu

theorem storeL_accessed {a : Int} (hs : s.Accessed c h n) : (storeL a s).All (State.Accessed c h (n + 1)) :=
  memWrite_accessed hs

theorem storeR_accessed {a : Int} (hs : s.Accessed c h n) : (storeR a s).All (State.Accessed c h (n + 1)) :=
  memWrite_accessed hs

/-- Through a pointer (R93): the pointer read and one access more. -/
theorem viaPointer_accessed {a : Int} {access : Int → State → Res Unit}
    (haccess : ∀ {b : Int} {m : Nat} {u : State}, u.Accessed c h m → (access b u).All (State.Accessed c h (m + 1)))
    (hs : s.Accessed c h n) : (viaPointer a access s).All (State.Accessed c h (n + 2)) :=
  (memRead_accessed hs).seq (fun _ hu => hu.succ) fun _ _ hu => haccess hu

/-- The linkage words of a frame above device space are plain words (R165). -/
theorem enterFrame_accessed {S m next : Int} (hS : c.codeBase ≤ S - 1) (hs : s.Accessed c h n) :
    (enterFrame S m next s).All (State.Accessed c h n) :=
  (memWrite_accessed_of_le hs hS).bind fun _ _ ht => (memWrite_accessed_of_le ht (by omega)).bind fun _ _ hu => hu

/-- `CALL`: the frame-size read alone can be a device access, since its writes are at `STACK_BASE` or above (R165). -/
theorem callBody_accessed {off : Int} (hsizes : c.SizesValid) (hs : s.Accessed c h n) :
    (callBody off s).All (State.Accessed c h (n + 1)) := by
  refine (memRead_accessed hs).bind fun nw u hu => ?_
  have hcfg : u.cfg = c := hu.1
  obtain ⟨-, hcode, -⟩ := hsizes
  unfold callWithSize
  simp only [hcfg]
  split
  · exact hu
  · split
    · exact hu
    · exact enterFrame_accessed (by omega) hu

theorem retBody_accessed (hs : s.Accessed c h n) : (retBody s).All (State.Accessed c h (n + 2)) :=
  (memRead_accessed hs).seq (fun _ hu => hu.succ) fun _ _ hu => (memRead_accessed hu).bind fun _ _ hv => hv

end

/-- An instruction whose body makes at most two device accesses, completed or faulted. -/
theorem conclude_accessed {s t : State} {n : Nat} {x : Res Unit}
    (hx : x.All (State.Accessed s.cfg s.deviceHistory n)) (hn : n ≤ 2) (h : conclude s x = .next t) :
    t.Accessed s.cfg s.deviceHistory 2 :=
  (hx.conclude (fun _ _ _ ⟨_, hu⟩ => ⟨rfl, hu⟩) h).mono hn

theorem exec_accessed_of_no_access {i : Instr} {s t : State}
    (hop : i.op ∈ [.nop, .uopL, .uopR, .bopL, .bopR, .swap, .brl, .brr, .jmp]) (h : exec i s = .next t) :
    t.Accessed s.cfg s.deviceHistory 2 := by
  obtain ⟨hhistory, -⟩ := exec_sameDevice hop h
  exact accessed_of_same (exec_cfg h) hhistory

/-- Every instruction makes at most two device accesses after its fetch (R52). -/
theorem exec_accessed {i : Instr} {s t : State} (hsizes : s.cfg.SizesValid) (h : exec i s = .next t) :
    t.Accessed s.cfg s.deviceHistory 2 := by
  have hadv : s.advance.Accessed s.cfg s.deviceHistory 0 := accessed_of_same rfl rfl
  cases i.form with
  | nop | swap | jmp | brl | brr => exact exec_accessed_of_no_access (by simp [Instr.op]) h
  | uopL | uopR | bopL | bopR => exact exec_accessed_of_no_access (by simp) h
  | ldsL | ldfL => exact conclude_accessed (loadL_accessed hadv) (by decide) h
  | ldsR | ldfR => exact conclude_accessed (loadR_accessed hadv) (by decide) h
  | stsL | stfL => exact conclude_accessed (storeL_accessed hadv) (by decide) h
  | stsR | stfR => exact conclude_accessed (storeR_accessed hadv) (by decide) h
  | ldsiL | ldfiL => exact conclude_accessed (viaPointer_accessed loadL_accessed hadv) (by decide) h
  | ldsiR | ldfiR => exact conclude_accessed (viaPointer_accessed loadR_accessed hadv) (by decide) h
  | stsiL | stfiL => exact conclude_accessed (viaPointer_accessed storeL_accessed hadv) (by decide) h
  | stsiR | stfiR => exact conclude_accessed (viaPointer_accessed storeR_accessed hadv) (by decide) h
  | call => exact conclude_accessed (callBody_accessed hsizes hadv) (by decide) h
  | ret => exact conclude_accessed (retBody_accessed hadv) (by decide) h

/-- Settles O50: by the cases of a step; only the instruction it runs accesses a device, and only in a running engine. -/
theorem deviceHistoryOnlyGrows : Obligations.DeviceHistoryOnlyGrows := by
  intro s t hsizes h
  have hnone (heq : t.deviceHistory = s.deviceHistory) :
      ∃ accesses, t.deviceHistory = s.deviceHistory ++ accesses ∧ accesses.length ≤ 2 ∧
        (∀ e ∈ accesses, eventAddress e < s.cfg.codeBase) ∧ (s.status ≠ .running → accesses = []) :=
    ⟨[], by simpa using heq, Nat.zero_le 2, nofun, fun _ => rfl⟩
  rcases step_cases h with ⟨-, rfl⟩ | ⟨-, -, rfl⟩ | ⟨hrun, -, ⟨ρ, info, -, rfl⟩ | ⟨w, i, -, -, hexec⟩⟩
  · exact hnone rfl
  · exact hnone rfl
  · exact hnone rfl
  · obtain ⟨-, accesses, heq, hlen, hspace⟩ := exec_accessed hsizes hexec
    exact ⟨accesses, heq, hlen, hspace, fun hstop => absurd hrun hstop⟩

end Sys2Proof.Machine
end

