-- ==== Sys2Proof/Proofs/Codec.lean ====
section
/-! The decoder and the encoder (R61 to R73), each said once by the formats of R64: the word of an instruction whose opcode
or operator is given as data, and what the decoder answers to a word (`Decoded`, `decode_eq_iff`). The two round trips, the
decode errors and the masked offsets are read off these. -/

namespace Sys2Proof

/-! ### The word of an instruction, by format -/

/-- The opcode and the offset give a format O instruction back. -/
theorem Instr.ofOffset_op {i : Instr} {off : Int} (h : i.offset? = some off) : Instr.ofOffset i.op off = some i := by
  cases i.form with
  | nop | swap | ret => cases h
  | uopL | uopR | bopL | bopR => simp at h
  | _ => cases h; rfl

/-- Whether an opcode is of format O does not depend on the offset (R64). -/
theorem Instr.exists_ofOffset {o : Op} {off : Int} {i : Instr} (h : Instr.ofOffset o off = some i) (off' : Int) :
    ∃ j, Instr.ofOffset o off' = some j := by
  cases o with
  | nop | uopL | uopR | bopL | bopR | swap | ret => cases h
  | _ => exact ⟨_, rfl⟩

theorem encode_of_ofOffset {o : Op} {off : Int} {i : Instr} (c : Config) (h : Instr.ofOffset o off = some i) :
    encode c i = encodeO c o off := by
  cases o with
  | nop | uopL | uopR | bopL | bopR | swap | ret => cases h
  | _ => cases h; rfl

@[simp] theorem encode_uopL (c : Config) (u : UnOp) (g : BitVec 16) :
    encode c (Instr.uopL u g) = encodeP c .uopL (c.oprmap.unary u) g := by cases u <;> rfl

@[simp] theorem encode_uopR (c : Config) (u : UnOp) (g : BitVec 16) :
    encode c (Instr.uopR u g) = encodeP c .uopR (c.oprmap.unary u) g := by cases u <;> rfl

@[simp] theorem encode_bopL (c : Config) (b : BinOp) (g : BitVec 16) :
    encode c (Instr.bopL b g) = encodeP c .bopL (c.oprmap.binary b) g := by cases b <;> rfl

@[simp] theorem encode_bopR (c : Config) (b : BinOp) (g : BitVec 16) :
    encode c (Instr.bopR b g) = encodeP c .bopR (c.oprmap.binary b) g := by cases b <;> rfl

/-! ### A word put together from its own fields -/

theorem encodeN_fields {c : Config} {o : Op} {w : Word} (h : c.opmap.code o = opcodeField w) :
    encodeN c o (low24 w) = w := by
  unfold encodeN
  rw [h]
  exact BitVec.extractLsb'_append_extractLsb'

theorem encodeO_fields {c : Config} {o : Op} {w : Word} (h : c.opmap.code o = opcodeField w) :
    encodeO c o (sext24 (low24 w)) = w := by
  have hmask : BitVec.ofInt 24 (sext24 (low24 w)) = low24 w := BitVec.ofInt_toInt
  unfold encodeO
  rw [hmask]
  exact encodeN_fields h

theorem encodeP_fields {c : Config} {o : Op} {x : BitVec 8} {w : Word} (h : c.opmap.code o = opcodeField w)
    (hx : x = operatorField w) : encodeP c o x (low16 w) = w := by
  have hhigh : opcodeField w ++ operatorField w = w.extractLsb' 16 16 :=
    BitVec.extractLsb'_append_extractLsb'_eq_extractLsb' rfl
  unfold encodeP
  rw [h, hx, hhigh]
  exact BitVec.extractLsb'_append_extractLsb'

/-! ### What the decoder answers -/

/-- The decoder's answer to the word `w` (R67 to R69), one case for each format, with one for each way to be rejected. -/
inductive Decoded (c : Config) (w : Word) : Except DecodeError Instr → Prop where
  /-- No opcode has the code (R68). -/
  | noOpcode (hop : c.opOf? (opcodeField w) = none) : Decoded c w (.error .illegalOpcode)
  /-- Format O (R62). -/
  | offset {o : Op} {i : Instr} (hop : c.opOf? (opcodeField w) = some o)
      (hi : Instr.ofOffset o (sext24 (low24 w)) = some i) : Decoded c w (.ok i)
  /-- Format N (R64). -/
  | nop (hop : c.opOf? (opcodeField w) = some .nop) : Decoded c w (.ok (.nop (low24 w)))
  /-- Format N (R64). -/
  | swap (hop : c.opOf? (opcodeField w) = some .swap) : Decoded c w (.ok (.swap (low24 w)))
  /-- Format N (R64). -/
  | ret (hop : c.opOf? (opcodeField w) = some .ret) : Decoded c w (.ok (.ret (low24 w)))
  /-- Format P (R63), a unary operator. -/
  | uopL {u : UnOp} (hop : c.opOf? (opcodeField w) = some .uopL) (hu : c.unOpOf? (operatorField w) = some u) :
      Decoded c w (.ok (Instr.uopL u (low16 w)))
  /-- Format P (R63), a unary operator. -/
  | uopR {u : UnOp} (hop : c.opOf? (opcodeField w) = some .uopR) (hu : c.unOpOf? (operatorField w) = some u) :
      Decoded c w (.ok (Instr.uopR u (low16 w)))
  /-- Format P (R63), a binary operator. -/
  | bopL {b : BinOp} (hop : c.opOf? (opcodeField w) = some .bopL) (hb : c.binOpOf? (operatorField w) = some b) :
      Decoded c w (.ok (Instr.bopL b (low16 w)))
  /-- Format P (R63), a binary operator. -/
  | bopR {b : BinOp} (hop : c.opOf? (opcodeField w) = some .bopR) (hb : c.binOpOf? (operatorField w) = some b) :
      Decoded c w (.ok (Instr.bopR b (low16 w)))
  /-- No unary operator has the code (R69). -/
  | noUnary (hop : c.opOf? (opcodeField w) = some .uopL ∨ c.opOf? (opcodeField w) = some .uopR)
      (hu : c.unOpOf? (operatorField w) = none) : Decoded c w (.error .illegalOperator)
  /-- No binary operator has the code (R69). -/
  | noBinary (hop : c.opOf? (opcodeField w) = some .bopL ∨ c.opOf? (opcodeField w) = some .bopR)
      (hb : c.binOpOf? (operatorField w) = none) : Decoded c w (.error .illegalOperator)

theorem decode_decoded (c : Config) (w : Word) : Decoded c w (decode c w) := by
  unfold decode
  cases hop : c.opOf? (opcodeField w) with
  | none => exact .noOpcode hop
  | some o =>
    cases o with
    | nop => exact .nop hop
    | swap => exact .swap hop
    | ret => exact .ret hop
    | uopL =>
      cases hu : c.unOpOf? (operatorField w) with
      | some u => exact .uopL hop hu
      | none => exact .noUnary (.inl hop) hu
    | uopR =>
      cases hu : c.unOpOf? (operatorField w) with
      | some u => exact .uopR hop hu
      | none => exact .noUnary (.inr hop) hu
    | bopL =>
      cases hb : c.binOpOf? (operatorField w) with
      | some b => exact .bopL hop hb
      | none => exact .noBinary (.inl hop) hb
    | bopR =>
      cases hb : c.binOpOf? (operatorField w) with
      | some b => exact .bopR hop hb
      | none => exact .noBinary (.inr hop) hb
    | _ => exact .offset hop rfl

theorem Decoded.decode_eq {c : Config} {w : Word} {r : Except DecodeError Instr} (h : Decoded c w r) :
    decode c w = r := by
  unfold decode
  cases h with
  | noOpcode hop | nop hop | swap hop | ret hop => rw [hop]
  | uopL hop hx | uopR hop hx | bopL hop hx | bopR hop hx => simp [hop, hx]
  | noUnary hop hx | noBinary hop hx => rcases hop with hop | hop <;> simp [hop, hx]
  | @offset o i hop hi =>
    rw [hop]
    cases o with
    | nop | uopL | uopR | bopL | bopR | swap | ret => cases hi
    | _ => cases hi; rfl

/-- Everything the decoder can answer, and when. -/
theorem decode_eq_iff {c : Config} {w : Word} {r : Except DecodeError Instr} : decode c w = r ↔ Decoded c w r :=
  ⟨fun h => h ▸ decode_decoded c w, Decoded.decode_eq⟩

/-! ### The two round trips -/

/-- The offset the decoder reads back from 24 bits is the one within their signed range (R73). -/
theorem sext24_ofInt {off : Int} (hlow : -8388608 ≤ off) (hhigh : off ≤ 8388607) :
    sext24 (BitVec.ofInt 24 off) = off := by
  unfold sext24
  rw [BitVec.toInt_ofInt]
  exact Int.bmod_eq_of_le (by omega) (by omega)

/-- The word of a format O instruction decodes to the same opcode, with its masked offset (R72, R73). -/
theorem decode_encodeO {c : Config} (hmap : c.OpmapValid) {o : Op} {off : Int} {j : Instr}
    (hj : Instr.ofOffset o (sext24 (BitVec.ofInt 24 off)) = some j) : decode c (encodeO c o off) = .ok j :=
  decode_eq_iff.2 (.offset (by rw [opcodeField_encodeO, Config.opOf?_code hmap]) (by rwa [low24_encodeO]))

theorem decode_encode {c : Config} (hmap : c.OpmapValid) (hopr : c.OprmapValid) {i : Instr} (hi : WellFormed i) :
    decode c (encode c i) = .ok i := by
  cases hoff : i.offset? with
  | some off =>
    obtain ⟨hlow, hhigh⟩ := hi.offset_bounds hoff
    rw [encode_of_ofOffset c (Instr.ofOffset_op hoff)]
    exact decode_encodeO hmap (by rw [sext24_ofInt hlow hhigh, Instr.ofOffset_op hoff])
  | none =>
    cases i.form with
    | nop | swap | ret => simp [decode, encode, Config.opOf?_code hmap]
    | uopL | uopR => simp [decode, Config.opOf?_code hmap, Config.unOpOf?_unary hopr]
    | bopL | bopR => simp [decode, Config.opOf?_code hmap, Config.binOpOf?_binary hopr]
    | _ => cases hoff

/-- Settles O1: an instruction with an offset by format O, where a well-formed offset survives the mask; the others by their
form, each field read back from its place in the word. -/
theorem decodeEncodeRoundTrip : Obligations.DecodeEncodeRoundTrip := fun _ _ ⟨_, hmap, hopr⟩ hi =>
  decode_encode hmap hopr hi

theorem encode_of_decode {c : Config} {w : Word} {i : Instr} (h : decode c w = .ok i) : encode c i = w := by
  cases decode_eq_iff.1 h with
  | offset hop hi => rw [encode_of_ofOffset c hi, encodeO_fields (Config.code_of_opOf? hop)]
  | nop hop | swap hop | ret hop => exact encodeN_fields (Config.code_of_opOf? hop)
  | uopL hop hu => rw [encode_uopL, encodeP_fields (Config.code_of_opOf? hop) (Config.unary_of_unOpOf? hu)]
  | uopR hop hu => rw [encode_uopR, encodeP_fields (Config.code_of_opOf? hop) (Config.unary_of_unOpOf? hu)]
  | bopL hop hb => rw [encode_bopL, encodeP_fields (Config.code_of_opOf? hop) (Config.binary_of_binOpOf? hb)]
  | bopR hop hb => rw [encode_bopR, encodeP_fields (Config.code_of_opOf? hop) (Config.binary_of_binOpOf? hb)]

/-- Settles O2: by the decoder's cases; each puts the fields it read back in their places. -/
theorem encodeDecodeRoundTrip : Obligations.EncodeDecodeRoundTrip := fun _ _ _ h =>
  ⟨encode_of_decode h, decode_wellFormed h⟩

/-! ### Decode errors -/

theorem decode_eq_illegalOpcode {c : Config} {w : Word} :
    decode c w = .error .illegalOpcode ↔ ∀ o, c.opmap.code o ≠ opcodeField w := by
  rw [decode_eq_iff, ← Config.opOf?_eq_none]
  refine ⟨fun h => ?_, .noOpcode⟩
  cases h with
  | noOpcode hop => exact hop

/-- Under an injective map an opcode is found exactly for its own code (R67). -/
theorem Config.opOf?_eq_some {c : Config} (h : c.OpmapValid) {x : BitVec 8} {o : Op} :
    c.opOf? x = some o ↔ x = c.opmap.code o :=
  ⟨fun ho => (Config.code_of_opOf? ho).symm, fun hx => hx ▸ Config.opOf?_code h o⟩

theorem decode_eq_illegalOperator {c : Config} (hmap : c.OpmapValid) {w : Word} :
    decode c w = .error .illegalOperator ↔
      ((opcodeField w = c.opmap.code .uopL ∨ opcodeField w = c.opmap.code .uopR) ∧
          ∀ u, c.oprmap.unary u ≠ operatorField w) ∨
        ((opcodeField w = c.opmap.code .bopL ∨ opcodeField w = c.opmap.code .bopR) ∧
          ∀ b, c.oprmap.binary b ≠ operatorField w) := by
  simp only [decode_eq_iff, ← Config.opOf?_eq_some hmap, ← Config.unOpOf?_eq_none, ← Config.binOpOf?_eq_none]
  constructor
  · intro h
    cases h with
    | noUnary hop hu => exact .inl ⟨hop, hu⟩
    | noBinary hop hb => exact .inr ⟨hop, hb⟩
  · rintro (⟨hop, hu⟩ | ⟨hop, hb⟩)
    · exact .noUnary hop hu
    · exact .noBinary hop hb

/-- Settles O3: the decoder's cases that answer an error. -/
theorem decodeErrorsExactly : Obligations.DecodeErrorsExactly := fun _ _ =>
  ⟨decode_eq_illegalOpcode, fun hmap => decode_eq_illegalOperator hmap⟩

/-! ### Masked offsets -/

theorem sext24_bounds (v : BitVec 24) : -2 ^ 23 ≤ sext24 v ∧ sext24 v < 2 ^ 23 :=
  ⟨v.le_toInt, v.toInt_lt⟩

theorem sext24_ofInt_emod (off : Int) : sext24 (BitVec.ofInt 24 off) % 2 ^ 24 = off % 2 ^ 24 := by
  unfold sext24
  rw [BitVec.toInt_ofInt]
  exact Int.bmod_emod

/-- Under the defaults the static addresses are the whole addressable space (R7, R73, R91). -/
theorem default_static_range (a : Int) :
    (∃ v : BitVec 24, (Config.default.codeBase : Int) + sext24 v = a) ↔ 0 ≤ a ∧ a ≤ 0xFFFFFF := by
  have hbase : (Config.default.codeBase : Int) = 8388608 := rfl
  rw [hbase]
  constructor
  · rintro ⟨v, rfl⟩
    have hv := sext24_bounds v
    omega
  · rintro ⟨hlow, hhigh⟩
    exact ⟨BitVec.ofInt 24 (a - 8388608), by rw [sext24_ofInt (by omega) (by omega)]; omega⟩

/-- Settles O6: the offset decoded is the masked one sign-extended, whose range and residue are those of `BitVec.toInt`. -/
theorem maskedOffsetsDecodeSignExtended : Obligations.MaskedOffsetsDecodeSignExtended := by
  refine ⟨fun c o off i hmap hi => ?_, rfl, rfl, default_static_range⟩
  obtain ⟨j, hj⟩ := Instr.exists_ofOffset hi (sext24 (BitVec.ofInt 24 off))
  obtain ⟨hlow, hhigh⟩ := sext24_bounds (BitVec.ofInt 24 off)
  refine ⟨_, ?_, hlow, hhigh, sext24_ofInt_emod off, rfl, fun h₁ h₂ => sext24_ofInt (by omega) (by omega)⟩
  rw [encode_of_ofOffset c hi, decode_encodeO hmap hj, hj, Option.getD_some]

/-! ### The sample words -/

/-- Settles O4: each word is a closed one, decoded by evaluation. -/
theorem decodesSampleWords : Obligations.DecodesSampleWords :=
  ⟨rfl, rfl, rfl, rfl, rfl, rfl, rfl, rfl, rfl, rfl, rfl, rfl, rfl, rfl, rfl, rfl, rfl, rfl, rfl⟩

end Sys2Proof
end

