-- ==== Sys2Proof/Proofs/AssembledWords.lean ====
section
/-! What the assembler writes (R72 to R77): the word of each format as the sum R72 gives, and how many words a program
becomes. -/

namespace Sys2Proof

/-! ### The words of R72 -/

theorem toNat_append_eq_add {n m : Nat} (x : BitVec n) (y : BitVec m) : (x ++ y).toNat = x.toNat * 2 ^ m + y.toNat := by
  rw [BitVec.toNat_append, ← Nat.shiftLeft_add_eq_or_of_lt y.isLt, Nat.shiftLeft_eq]

theorem encodeN_toNat (c : Config) (o : Op) (g : BitVec 24) :
    (encodeN c o g).toNat = (c.opmap.code o).toNat * 2 ^ 24 + g.toNat := toNat_append_eq_add (c.opmap.code o) g

theorem encodeO_toNat (c : Config) (o : Op) (off : Int) :
    (encodeO c o off).toNat = (c.opmap.code o).toNat * 2 ^ 24 + (off % 2 ^ 24).toNat :=
  (encodeN_toNat c o (BitVec.ofInt 24 off)).trans (by rw [BitVec.toNat_ofInt]; rfl)

theorem encodeP_toNat (c : Config) (o : Op) (x : BitVec 8) (g : BitVec 16) :
    (encodeP c o x g).toNat = ((c.opmap.code o).toNat * 2 ^ 8 + x.toNat) * 2 ^ 16 + g.toNat := by
  rw [← toNat_append_eq_add (c.opmap.code o) x]
  exact toNat_append_eq_add (c.opmap.code o ++ x) g

theorem eq_word_of_toNat {w : Word} {a : Int} (h : (w.toNat : Int) = a) : w = word a := by
  rw [← h]
  simp [word]

theorem encodeN_zero_eq_word (c : Config) (o : Op) : encodeN c o 0 = word ((c.opmap.code o).toNat * 2 ^ 24) :=
  eq_word_of_toNat (by simp [encodeN_toNat])

theorem encodeO_eq_word (c : Config) (o : Op) (off : Int) :
    encodeO c o off = word ((c.opmap.code o).toNat * 2 ^ 24 + off % 2 ^ 24) :=
  eq_word_of_toNat (by rw [encodeO_toNat]; omega)

theorem encodeP_zero_eq_word (c : Config) (o : Op) (x : BitVec 8) :
    encodeP c o x 0 = word ((c.opmap.code o).toNat * 2 ^ 24 + x.toNat * 2 ^ 16) :=
  eq_word_of_toNat (by simp [encodeP_toNat]; omega)

/-- Settles O5: the fields of each format added up, the ignored bits 0. -/
theorem assemblerWritesTheseWords : Obligations.AssemblerWritesTheseWords := by
  intro c
  refine ⟨?_, fun o off i hi => ?_, fun u => ⟨?_, ?_⟩, fun b => ⟨?_, ?_⟩⟩
  · rintro i (rfl | rfl | rfl) <;> exact encodeN_zero_eq_word c _
  · rw [encode_of_ofOffset c hi, encodeO_eq_word]
  · rw [encode_uopL, encodeP_zero_eq_word]
  · rw [encode_uopR, encodeP_zero_eq_word]
  · rw [encode_bopL, encodeP_zero_eq_word]
  · rw [encode_bopR, encodeP_zero_eq_word]

namespace Machine

/-! ### The number of words -/

theorem asmLine_length {c : Config} {tags : List (String × Nat)} {line : AsmLine} {ws : List Word}
    (h : asmLine c tags line = some ws) : ws.length = line.size := by
  cases line with
  | tag | instr | halt => cases h; rfl
  | symbolic o name =>
    simp only [asmLine] at h
    split at h
    · cases h
    · split at h <;> cases h
      rfl
  | data v =>
    simp only [asmLine] at h
    split at h <;> cases h
    rfl

/-- Pass 2 gives the words of the first line, then those of the rest. -/
theorem asmWords_cons_eq_some {c : Config} {tags : List (String × Nat)} {line : AsmLine} {rest : List AsmLine}
    {ws : List Word} (h : asmWords c tags (line :: rest) = some ws) :
    ∃ us vs, asmLine c tags line = some us ∧ asmWords c tags rest = some vs ∧ ws = us ++ vs := by
  rw [asmWords] at h
  split at h
  · cases h
  · split at h
    · cases h
    · exact ⟨_, _, ‹_›, ‹_›, (Option.some.inj h).symm⟩

theorem asmWords_length {c : Config} {tags : List (String × Nat)} {program : List AsmLine} {ws : List Word}
    (h : asmWords c tags program = some ws) : ws.length = (program.map AsmLine.size).sum := by
  induction program generalizing ws with
  | nil => cases h; rfl
  | cons line rest ih =>
    obtain ⟨us, vs, hline, hrest, rfl⟩ := asmWords_cons_eq_some h
    simp [asmLine_length hline, ih hrest]

/-- Where there is output, every line of the program has its words (R75). -/
theorem asmLine_of_mem {c : Config} {tags : List (String × Nat)} {program : List AsmLine} {ws : List Word}
    (h : asmWords c tags program = some ws) {line : AsmLine} (hmem : line ∈ program) :
    ∃ us, asmLine c tags line = some us := by
  induction program generalizing ws with
  | nil => cases hmem
  | cons first rest ih =>
    obtain ⟨us, vs, hfirst, hrest, -⟩ := asmWords_cons_eq_some h
    rcases List.mem_cons.1 hmem with rfl | hmem
    · exact ⟨us, hfirst⟩
    · exact ih hrest hmem

/-- The range of a data word (R76). -/
theorem asmLine_data_eq_some {c : Config} {tags : List (String × Nat)} {v : Int} {ws : List Word}
    (h : asmLine c tags (.data v) = some ws) : -2 ^ 31 ≤ v ∧ v < 2 ^ 32 := by
  simp only [asmLine] at h
  split at h
  · assumption
  · cases h

/-- Settles O58: the length by induction on the program; a data word out of range has no words, so there is no output. -/
theorem assembledLengthCountsOnlyWords : Obligations.AssembledLengthCountsOnlyWords := by
  refine fun c program => ⟨fun ws => asmWords_length, fun v hmem hv => ?_⟩
  cases h : assemble c program with
  | none => rfl
  | some ws =>
    obtain ⟨us, hline⟩ := asmLine_of_mem h hmem
    have hrange := asmLine_data_eq_some hline
    omega

end Machine
end Sys2Proof
end

