-- ==== Sys2Proof/Proofs/Ignored.lean ====
section
/-! The ignored bits (R64, R70): only the operator instructions of two operands look at them, and those only for the record
of a fault (R191, log 10). -/

namespace Sys2Proof

@[simp] theorem Instr.clearIgnored_uopL (u : UnOp) (g : BitVec 16) :
    (Instr.uopL u g).clearIgnored = Instr.uopL u 0 := by cases u <;> rfl

@[simp] theorem Instr.clearIgnored_uopR (u : UnOp) (g : BitVec 16) :
    (Instr.uopR u g).clearIgnored = Instr.uopR u 0 := by cases u <;> rfl

@[simp] theorem Instr.clearIgnored_bopL (b : BinOp) (g : BitVec 16) :
    (Instr.bopL b g).clearIgnored = Instr.bopL b 0 := by cases b <;> rfl

@[simp] theorem Instr.clearIgnored_bopR (b : BinOp) (g : BitVec 16) :
    (Instr.bopR b g).clearIgnored = Instr.bopR b 0 := by cases b <;> rfl

namespace Machine

/-- The instruction word given to an operator is the info of its fault and nothing else. -/
theorem binaryToL_word (o : BinOp) (s : State) :
    (∃ t, ∀ w, binaryToL o w s = .ok () t) ∨ ∃ ρ, ∀ w, binaryToL o w s = .raised ρ (.word w) s := by
  unfold binaryToL
  cases binop s.cfg o s.l s.r with
  | ok v => exact .inl ⟨s.setL v, fun _ => rfl⟩
  | error ρ => exact .inr ⟨ρ, fun _ => rfl⟩

/-- The instruction word given to an operator is the info of its fault and nothing else. -/
theorem binaryToR_word (o : BinOp) (s : State) :
    (∃ t, ∀ w, binaryToR o w s = .ok () t) ∨ ∃ ρ, ∀ w, binaryToR o w s = .raised ρ (.word w) s := by
  unfold binaryToR
  cases binop s.cfg o s.l s.r with
  | ok v => exact .inl ⟨s.setR v, fun _ => rfl⟩
  | error ρ => exact .inr ⟨ρ, fun _ => rfl⟩

/-- Two instructions whose bodies differ in the word for the fault record alone. -/
theorem conclude_word {s : State} {x : Word → Res Unit}
    (hx : (∃ t, ∀ w, x w = .ok () t) ∨ ∃ ρ, ∀ w, x w = .raised ρ (.word w) s.advance) (w w' : Word) :
    conclude s (x w) = conclude s (x w') ∨
      ∃ ρ, conclude s (x w) = .next (faultRecord s s ρ (.word w)) ∧
        conclude s (x w') = .next (faultRecord s s ρ (.word w')) := by
  rcases hx with ⟨t, hx⟩ | ⟨ρ, hx⟩
  · exact .inl (by rw [hx, hx])
  · exact .inr ⟨ρ, by rw [hx]; rfl, by rw [hx]; rfl⟩

/-- Settles O7, by the form of the instruction: only the binary operators are given their own word. -/
theorem ignoredBitsHaveNoEffect : Obligations.IgnoredBitsHaveNoEffect := by
  intro i s
  cases i.form with
  | uopL u g => exact .inl (by rw [Instr.clearIgnored_uopL, exec_uopL, exec_uopL])
  | uopR u g => exact .inl (by rw [Instr.clearIgnored_uopR, exec_uopR, exec_uopR])
  | bopL b g =>
    rw [Instr.clearIgnored_bopL, exec_bopL, exec_bopL]
    exact conclude_word (x := (binaryToL b · s.advance)) (binaryToL_word b s.advance) _ _
  | bopR b g =>
    rw [Instr.clearIgnored_bopR, exec_bopR, exec_bopR]
    exact conclude_word (x := (binaryToR b · s.advance)) (binaryToR_word b s.advance) _ _
  | _ => exact .inl rfl

end Machine
end Sys2Proof
end

