-- ==== Sys2Proof/Proofs/Answered.lean ====
section
/-! The outcomes that are no next state: no instruction and no step is refused (R67, R198), and one stops only where the host
laid down silence for a device read (R225; log 7, 8). -/

namespace Sys2Proof.Machine

/-! ### A part that does not complete -/

theorem ReadSticks.silent_mem {s : State} {a : Int} (h : ReadSticks s a) : .silent ∈ s.deviceReplies :=
  List.mem_of_mem_head? h.2

/-- A read lays down no reply: it leaves those there were, or uses up the first. -/
theorem ReadGives.replies_subset {s t : State} {a : Int} {w : Word} (h : ReadGives s a w t) :
    t.deviceReplies ⊆ s.deviceReplies := by
  rcases h with ⟨-, rfl⟩ | ⟨-, -, rfl⟩
  · exact fun _ h => h
  · exact List.tail_subset s.deviceReplies

/-- An access through a pointer stops only on silence, if its second access does so. -/
theorem viaPointer_silent {a : Int} {access : Int → State → Res Unit} {s : State} {f : Fault}
    (haccess : ∀ {b : Int} {u : State}, access b u = .stuck f → .silent ∈ u.deviceReplies)
    (h : viaPointer a access s = .stuck f) : .silent ∈ s.deviceReplies := by
  rcases viaPointer_eq_stuck h with hs | ⟨p, u, hread, hu⟩
  · exact hs.silent_mem
  · exact hread.replies_subset (haccess hu)

theorem retBody_silent {s : State} {f : Fault} (h : retBody s = .stuck f) : .silent ∈ s.deviceReplies := by
  rcases retBody_eq_stuck h with hs | ⟨saved, u, hread, hu⟩
  · exact hs.silent_mem
  · exact hread.replies_subset hu.silent_mem

theorem branch_ne_stuck (taken : Bool) (off : Int) (s : State) (f : Fault) :
    (if taken then jumpTo off s else .ok () s) ≠ .stuck f := by
  cases taken <;> nofun

/-! ### An instruction and a step -/

/-- The body of an instruction, which `conclude` ends, stops only on silence. -/
theorem conclude_silent {s : State} {x : Res Unit} {f : Fault}
    (hx : x = .stuck f → .silent ∈ s.advance.deviceReplies) (h : conclude s x = .fault f) :
    .silent ∈ s.deviceReplies := by
  cases x with
  | ok | raised => cases h
  | stuck =>
    cases h
    exact hx rfl

theorem exec_silent {i : Instr} {s : State} {f : Fault} (h : exec i s = .fault f) : .silent ∈ s.deviceReplies := by
  cases i.form with
  | nop | swap | jmp => cases h
  | ldsL | ldfL => exact conclude_silent (fun hx => (loadL_eq_stuck hx).silent_mem) h
  | ldsR | ldfR => exact conclude_silent (fun hx => (loadR_eq_stuck hx).silent_mem) h
  | stsL | stfL => exact conclude_silent (fun hx => absurd hx (storeL_ne_stuck _ _ _)) h
  | stsR | stfR => exact conclude_silent (fun hx => absurd hx (storeR_ne_stuck _ _ _)) h
  | ldsiL | ldfiL => exact conclude_silent (viaPointer_silent fun hx => (loadL_eq_stuck hx).silent_mem) h
  | ldsiR | ldfiR => exact conclude_silent (viaPointer_silent fun hx => (loadR_eq_stuck hx).silent_mem) h
  | stsiL | stfiL => exact conclude_silent (viaPointer_silent fun hx => absurd hx (storeL_ne_stuck _ _ _)) h
  | stsiR | stfiR => exact conclude_silent (viaPointer_silent fun hx => absurd hx (storeR_ne_stuck _ _ _)) h
  | uopL u g =>
    rw [exec_uopL] at h
    cases h
  | uopR u g =>
    rw [exec_uopR] at h
    cases h
  | bopL b g => exact conclude_silent (fun hx => absurd hx (binaryToL_ne_stuck _ _ _ _)) (exec_bopL b g s ▸ h)
  | bopR b g => exact conclude_silent (fun hx => absurd hx (binaryToR_ne_stuck _ _ _ _)) (exec_bopR b g s ▸ h)
  | brl | brr => exact conclude_silent (fun hx => absurd hx (branch_ne_stuck _ _ _ _)) h
  | call => exact conclude_silent (fun hx => (callBody_eq_stuck hx).silent_mem) h
  | ret => exact conclude_silent retBody_silent h

/-- Every instruction is a body that `conclude` ends. -/
theorem exec_eq_conclude (i : Instr) (s : State) : ∃ x, exec i s = conclude s x := by
  cases i.form with
  | nop => exact ⟨.ok () s.advance, rfl⟩
  | swap => exact ⟨.ok () ((s.advance.setL s.r).setR s.l), rfl⟩
  | jmp off => exact ⟨jumpTo off s.advance, rfl⟩
  | uopL u g => exact ⟨_, exec_uopL u g s⟩
  | uopR u g => exact ⟨_, exec_uopR u g s⟩
  | bopL b g => exact ⟨_, exec_bopL b g s⟩
  | bopR b g => exact ⟨_, exec_bopR b g s⟩
  | _ => exact ⟨_, rfl⟩

theorem exec_ne_refused (i : Instr) (s : State) (r : Refusal) : exec i s ≠ .refused r := by
  obtain ⟨x, hx⟩ := exec_eq_conclude i s
  rw [hx]
  exact conclude_ne_refused s x r

/-- A step answers a next state, or what the instruction it fetched answers. -/
theorem step_eq_next_or_exec (s : State) : (∃ t, step s = .next t) ∨ ∃ i, step s = exec i s := by
  by_cases hrun : s.status = .running
  · unfold step
    rw [hrun]
    cases hb : belowCode s with
    | true => exact .inl ⟨halt s, rfl⟩
    | false =>
      cases hf : fetchDecode s with
      | ok i t =>
        obtain ⟨rfl, -⟩ := fetchDecode_eq_ok hb hf
        exact .inr ⟨i, rfl⟩
      | raised ρ info t => exact .inl ⟨takeFault s t ρ info, rfl⟩
      | stuck f => exact absurd hf (fetchDecode_ne_stuck f hb)
  · exact .inl ⟨s, step_of_stopped hrun⟩

/-- Settles O37: a step answers a next state or as an instruction does; an instruction ends by `conclude`, which refuses
nothing, and stops only where one of its reads does. -/
theorem noStepRefused : Obligations.NoStepRefused := by
  intro s r f
  have hfault {i : Instr} (h : exec i s = .fault f) : f = .deviceReadUnanswered ∧ .silent ∈ s.deviceReplies := by
    cases f
    exact ⟨rfl, exec_silent h⟩
  refine ⟨?_, fun i => exec_ne_refused i s r, ?_⟩
  · rcases step_eq_next_or_exec s with ⟨t, hstep⟩ | ⟨i, hstep⟩ <;> rw [hstep]
    · nofun
    · exact exec_ne_refused i s r
  · rintro (h | ⟨i, h⟩)
    · rcases step_eq_next_or_exec s with ⟨t, hstep⟩ | ⟨i, hstep⟩ <;> rw [hstep] at h
      · cases h
      · exact hfault h
    · exact hfault h

end Sys2Proof.Machine
end

