-- ==== Sys2Proof/Proofs/LoadStore.lean ====
section
/-! `NOP` and the loads and stores (R90 to R109): what each does where its accesses complete, and what an indirect one keeps
where its second access faults (R193, R194). -/

namespace Sys2Proof.Machine

/-! ### NOP -/

/-- Settles O17: the word is the one NOP encodes to, and its body is the increment alone. -/
theorem nopOnlyAdvances : Obligations.NopOnlyAdvances :=
  have ⟨_, hmap, hopr⟩ : Config.default.Valid := by decide
  ⟨fun v => decode_encode hmap hopr (i := .nop v) rfl, fun s _ => congrArg Host.Outcome.next (advance_eq s)⟩

/-! ### A read and the increment of PC -/

section
variable {s t : State} {a : Int} {w : Word}

/-- A read does not look at PC: one made before the increment is the same read made after it. -/
theorem ReadGives.advance (h : ReadGives s a w t) : ReadGives s.advance a w t.advance := by
  rcases h with ⟨hw, rfl⟩ | ⟨ha, hw, rfl⟩
  · exact .inl ⟨hw, rfl⟩
  · exact .inr ⟨ha, hw, rfl⟩

theorem ReadGives.samePc (h : ReadGives s a w t) : t.SamePc s := by
  obtain ⟨e, q, rfl⟩ := h.eq_setDevice
  exact ⟨rfl, rfl⟩

theorem State.SamePc.trans {u : State} (h₁ : s.SamePc t) (h₂ : t.SamePc u) : s.SamePc u :=
  ⟨h₁.1.trans h₂.1, h₁.2.trans h₂.2⟩

/-- The increment of a state with the PC of `s`, as the statements write it. -/
theorem State.SamePc.advance_eq (h : t.SamePc s) :
    t.advance = { t with pc := s.pc + 1, pcAbove := s.advance.pcAbove } := by
  have habove : t.advance.pcAbove = s.advance.pcAbove := by simp [h.pcAddr_eq]
  rw [← habove, ← h.1]
  exact Machine.advance_eq t

end

/-! ### Through a pointer -/

section
variable {s t : State} {b : Int} {p : Word} {access : Int → State → Res Unit}

/-- After its pointer read an indirect instruction is its access at the address the pointer names (R93). -/
theorem conclude_viaPointer_of_gives (access : Int → State → Res Unit) (hp : ReadGives s b p t) :
    conclude s (viaPointer b access s.advance) = conclude s (access (sint32 p) t.advance) :=
  congrArg (conclude s) (viaPointer_of_gives hp.advance)

/-- A second access that faults is taken in the state after the pointer read, whose device access stays made (R193). -/
theorem conclude_viaPointer_of_raised {ρ : Reason} {info : Info} (hp : ReadGives s b p t)
    (h : access (sint32 p) t.advance = .raised ρ info t.advance) :
    conclude s (viaPointer b access s.advance) = .next (faultRecord s t ρ info) := by
  rw [conclude_viaPointer_of_gives access hp, h]
  rfl

end

/-! ### Stores -/

section
variable {s : State} {a : Int}

theorem storeGives_plain (v : Word) (ha : s.PlainAddr a) :
    StoreGives s a v (s.advance.setMem (s.mem.write a.toNat v)) := by
  refine ⟨fun _ => ⟨?_, Memory.read_write_same .., fun b hb => Memory.read_write_other _ _ _ _ hb⟩, fun hdev => ?_⟩
  · exact congrArg (State.setMem · (s.mem.write a.toNat v)) (advance_eq s)
  · omega

theorem storeGives_device (v : Word) (ha : s.DeviceAddr a) : StoreGives s a v (deviceWrite a.toNat v s.advance) := by
  refine ⟨fun hplain => ?_, fun _ => congrArg (deviceWrite a.toNat v) (advance_eq s)⟩
  omega

/-- The write of a store begun in `s₀` and now in `s`, the increment made: an address within the addressable space is a plain
or a device address, and the store completes at either. -/
theorem conclude_memWrite_gives (s₀ : State) (v : Word) (ha : ¬ s.OutsideAddr a) :
    ∃ t, conclude s₀ (memWrite a v s.advance) = .next t ∧ StoreGives s a v t := by
  rcases s.addr_cases a with hout | hdev | hplain
  · exact absurd hout ha
  · exact ⟨_, congrArg (conclude s₀) (memWrite_device (s := s.advance) hdev), storeGives_device v hdev⟩
  · exact ⟨_, congrArg (conclude s₀) (memWrite_plain (s := s.advance) hplain), storeGives_plain v hplain⟩

/-- The write of an indirect store, which is of the register as it was: the pointer read changes no register (R52). -/
theorem conclude_viaPointer_store_gives {t : State} {b : Int} {p : Word} (hp : ReadGives s b p t)
    (ha : ¬ s.OutsideAddr (sint32 p)) :
    (∃ u, conclude s (viaPointer b storeL s.advance) = .next u ∧ StoreGives t (sint32 p) s.l u) ∧
      ∃ u, conclude s (viaPointer b storeR s.advance) = .next u ∧ StoreGives t (sint32 p) s.r u := by
  rw [conclude_viaPointer_of_gives storeL hp, conclude_viaPointer_of_gives storeR hp]
  obtain ⟨e, q, rfl⟩ := hp.eq_setDevice
  exact ⟨conclude_memWrite_gives s s.l ha, conclude_memWrite_gives s s.r ha⟩

end

/-- Settles O22: at the static and at the frame address, the write of a register. -/
theorem directStores : Obligations.DirectStores := fun s _ =>
  ⟨fun ha => ⟨conclude_memWrite_gives s s.l ha, conclude_memWrite_gives s s.r ha⟩,
    fun ha => ⟨conclude_memWrite_gives s s.l ha, conclude_memWrite_gives s s.r ha⟩⟩

/-- Settles O23: with the pointer at the static and at the frame address, the write of a register after the pointer read. -/
theorem indirectStores : Obligations.IndirectStores := fun _ _ _ _ ha =>
  ⟨fun hp => conclude_viaPointer_store_gives hp ha, fun hp => conclude_viaPointer_store_gives hp ha⟩

/-! ### A second access that faults -/

/-- The faults of an indirect instruction's second access: a load, which may also find its word unwritten, or a store
outside the addressable space. -/
theorem conclude_viaPointer_second_faults {s t : State} {b : Int} {p : Word} (hp : ReadGives s b p t) :
    (∀ ρ, ReadFaults t (sint32 p) ρ →
      conclude s (viaPointer b loadL s.advance) = .next (faultRecord s t ρ (.int (sint32 p))) ∧
      conclude s (viaPointer b loadR s.advance) = .next (faultRecord s t ρ (.int (sint32 p)))) ∧
    (t.OutsideAddr (sint32 p) →
      conclude s (viaPointer b storeL s.advance) = .next (faultRecord s t .addressOutOfRange (.int (sint32 p))) ∧
      conclude s (viaPointer b storeR s.advance) = .next (faultRecord s t .addressOutOfRange (.int (sint32 p)))) := by
  refine ⟨fun ρ hf => ?_, fun hout => ?_⟩
  · exact ⟨conclude_viaPointer_of_raised hp (loadL_of_faults hf.advance),
      conclude_viaPointer_of_raised hp (loadR_of_faults hf.advance)⟩
  · have hout' : t.advance.OutsideAddr (sint32 p) := hout
    exact ⟨conclude_viaPointer_of_raised hp (memWrite_outside hout'),
      conclude_viaPointer_of_raised hp (memWrite_outside hout')⟩

/-- Settles O25: with the pointer at the static and at the frame address, the fault of the second access. -/
theorem secondAccessFaults : Obligations.SecondAccessFaults := fun _ _ _ _ =>
  ⟨conclude_viaPointer_second_faults, conclude_viaPointer_second_faults⟩

/-! ### Loads -/

section
variable {s t u : State} {a : Int} {w : Word}

/-- A load begun in `s` and now in `t`, the increment made: PC is the one after that of `s`, and L holds the word read. -/
theorem conclude_loadL_of_gives (hpc : u.SamePc s) (h : ReadGives t a w u) :
    conclude s (loadL a t.advance) = .next { u with pc := s.pc + 1, pcAbove := s.advance.pcAbove, l := w } := by
  rw [loadL_of_gives h.advance, hpc.advance_eq]
  rfl

theorem conclude_loadR_of_gives (hpc : u.SamePc s) (h : ReadGives t a w u) :
    conclude s (loadR a t.advance) = .next { u with pc := s.pc + 1, pcAbove := s.advance.pcAbove, r := w } := by
  rw [loadR_of_gives h.advance, hpc.advance_eq]
  rfl

/-- The load of an indirect instruction: neither the pointer read nor the read after it moves PC (R52). -/
theorem conclude_viaPointer_load_gives {b : Int} {p : Word} (hp : ReadGives s b p t) (h : ReadGives t (sint32 p) w u) :
    conclude s (viaPointer b loadL s.advance) = .next { u with pc := s.pc + 1, pcAbove := s.advance.pcAbove, l := w } ∧
      conclude s (viaPointer b loadR s.advance) = .next { u with pc := s.pc + 1, pcAbove := s.advance.pcAbove, r := w } := by
  have hpc : u.SamePc s := h.samePc.trans hp.samePc
  rw [conclude_viaPointer_of_gives loadL hp, conclude_viaPointer_of_gives loadR hp]
  exact ⟨conclude_loadL_of_gives hpc h, conclude_loadR_of_gives hpc h⟩

end

/-- Settles O20: the read at the static and at the frame address, into either register. -/
theorem directLoads : Obligations.DirectLoads := fun _ _ _ _ =>
  ⟨fun h => ⟨conclude_loadL_of_gives h.samePc h, conclude_loadR_of_gives h.samePc h⟩,
    fun h => ⟨conclude_loadL_of_gives h.samePc h, conclude_loadR_of_gives h.samePc h⟩⟩

/-- Settles O21: with the pointer at the static and at the frame address, the load after the pointer read. -/
theorem indirectLoads : Obligations.IndirectLoads := fun _ _ _ _ _ _ hw =>
  ⟨fun hp => conclude_viaPointer_load_gives hp hw, fun hp => conclude_viaPointer_load_gives hp hw⟩

end Sys2Proof.Machine
end

