-- ==== Sys2Proof/Proofs/Operators.lean ====
section
/-! The operator instructions and `SWAP` (R120 to R145): the next state of a register form, given what the operator unit
answers, and then what the unit answers for each operator but `POW`. -/

namespace Sys2Proof.Machine

/-! ### The next state of an instruction that writes L or R alone -/

theorem advance_setL (s : State) (v : Word) :
    s.advance.setL v = { s with pc := s.pc + 1, pcAbove := s.advance.pcAbove, l := v } :=
  congrArg (State.setL · v) (advance_eq s)

theorem advance_setR (s : State) (v : Word) :
    s.advance.setR v = { s with pc := s.pc + 1, pcAbove := s.advance.pcAbove, r := v } :=
  congrArg (State.setR · v) (advance_eq s)

theorem exec_uopL_eq_next (u : UnOp) (g : BitVec 16) (s : State) :
    exec (Instr.uopL u g) s = .next { s with pc := s.pc + 1, pcAbove := s.advance.pcAbove, l := unop u s.l } := by
  rw [exec_uopL, ← advance_setL]
  rfl

/-- The operand is L here too (R121). -/
theorem exec_uopR_eq_next (u : UnOp) (g : BitVec 16) (s : State) :
    exec (Instr.uopR u g) s = .next { s with pc := s.pc + 1, pcAbove := s.advance.pcAbove, r := unop u s.l } := by
  rw [exec_uopR, ← advance_setR]
  rfl

section
variable {s : State} {v : Word} {ρ : Reason}

theorem binaryToL_of_ok {o : BinOp} (h : binop s.cfg o s.l s.r = .ok v) (w : Word) :
    binaryToL o w s = .ok () (s.setL v) := by
  simp only [binaryToL, h]

theorem binaryToR_of_ok {o : BinOp} (h : binop s.cfg o s.l s.r = .ok v) (w : Word) :
    binaryToR o w s = .ok () (s.setR v) := by
  simp only [binaryToR, h]

theorem binaryToL_of_error {o : BinOp} (h : binop s.cfg o s.l s.r = .error ρ) (w : Word) :
    binaryToL o w s = .raised ρ (.word w) s := by
  simp only [binaryToL, h]

theorem binaryToR_of_error {o : BinOp} (h : binop s.cfg o s.l s.r = .error ρ) (w : Word) :
    binaryToR o w s = .raised ρ (.word w) s := by
  simp only [binaryToR, h]

theorem exec_bopL_of_ok (o : BinOp) (g : BitVec 16) (h : binop s.cfg o s.l s.r = .ok v) :
    exec (Instr.bopL o g) s = .next { s with pc := s.pc + 1, pcAbove := s.advance.pcAbove, l := v } := by
  rw [exec_bopL, binaryToL_of_ok (s := s.advance) h, conclude_ok, advance_setL]

theorem exec_bopR_of_ok (o : BinOp) (g : BitVec 16) (h : binop s.cfg o s.l s.r = .ok v) :
    exec (Instr.bopR o g) s = .next { s with pc := s.pc + 1, pcAbove := s.advance.pcAbove, r := v } := by
  rw [exec_bopR, binaryToR_of_ok (s := s.advance) h, conclude_ok, advance_setR]

/-- The record holds the fetched word, which the encoder gives back (R191, log 10). -/
theorem exec_bopL_of_error (o : BinOp) (g : BitVec 16) (h : binop s.cfg o s.l s.r = .error ρ) {w : Word}
    (hw : decode s.cfg w = .ok (Instr.bopL o g)) :
    exec (Instr.bopL o g) s = .next (faultRecord s s ρ (.word w)) := by
  rw [exec_bopL, encode_of_decode hw]
  exact conclude_of_raised_at_advance (binaryToL_of_error (s := s.advance) h w)

/-- The record holds the fetched word, which the encoder gives back (R191, log 10). -/
theorem exec_bopR_of_error (o : BinOp) (g : BitVec 16) (h : binop s.cfg o s.l s.r = .error ρ) {w : Word}
    (hw : decode s.cfg w = .ok (Instr.bopR o g)) :
    exec (Instr.bopR o g) s = .next (faultRecord s s ρ (.word w)) := by
  rw [exec_bopR, encode_of_decode hw]
  exact conclude_of_raised_at_advance (binaryToR_of_error (s := s.advance) h w)

end

/-! ### Words as integers -/

theorem word_sub (x y : Int) : word (x - y) = word x - word y := by
  simp only [Int.sub_eq_add_neg, BitVec.ofInt_add, BitVec.ofInt_neg, BitVec.sub_eq_add_neg]

theorem sint32_eq_zero {a : Word} : sint32 a = 0 ↔ a = 0 := by
  rw [← BitVec.toInt_inj, BitVec.ofNat_eq_ofNat, BitVec.toInt_zero]

theorem uint32_eq_toNat_sint32 {a : Word} (h : 0 ≤ sint32 a) : uint32 a = (sint32 a).toNat := by
  have hmsb : a.msb = false := by rw [BitVec.msb_eq_toInt, decide_eq_false (Int.not_lt.2 h)]
  rw [sint32, BitVec.toInt_eq_toNat_of_msb hmsb, Int.toNat_natCast]

/-- `truth` of a test is 1 or 0 by the proposition the test decides (R125). -/
theorem truth_eq_ite {b : Bool} {p : Prop} [Decidable p] (h : b = true ↔ p) : truth b = if p then 1 else 0 := by
  simp only [truth, h]

/-! ### The unary operators -/

theorem opLnot_eq_ite (a : Word) : opLnot a = if a = 0 then 1 else 0 := truth_eq_ite beq_iff_eq

theorem opBnot_eq_word (a : Word) : opBnot a = word (-sint32 a - 1) := by
  simp only [opBnot, word_sub, BitVec.ofInt_neg, BitVec.ofInt_toInt]
  exact BitVec.not_eq_neg_add a

theorem opLnot_opLnot (a : Word) : opLnot (opLnot a) = if a = 0 then 0 else 1 := by
  rw [opLnot_eq_ite a]
  split <;> rfl

/-- Settles O8: the next state by the register form, the values by the laws of the two operators. -/
theorem unaryOperators : Obligations.UnaryOperators := by
  refine ⟨fun s g => ⟨exec_uopL_eq_next .bnot g s, exec_uopR_eq_next .bnot g s, ?_, ?_⟩,
    fun a => ⟨rfl, opBnot_eq_word a⟩, fun a => ⟨opLnot_eq_ite a, opLnot_opLnot a⟩, rfl, rfl, rfl, rfl, rfl, rfl, rfl⟩
  · rw [← opLnot_eq_ite]
    exact exec_uopL_eq_next .lnot g s
  · rw [← opLnot_eq_ite]
    exact exec_uopR_eq_next .lnot g s

/-! ### The shifts -/

theorem shiftAmount_mask5 {c : Config} (hc : c.shiftCount = .mask5) (b : Word) :
    shiftAmount c b = .ok (uint32 b % 2 ^ 5) := by
  simp only [shiftAmount, hc]
  rfl

theorem shiftAmount_in_range {c : Config} {b : Word} (hc : c.shiftCount = .fault) (hlow : 0 ≤ sint32 b)
    (hhigh : sint32 b ≤ 31) : shiftAmount c b = .ok (sint32 b).toNat := by
  have hrange : ¬ (sint32 b < 0 ∨ 31 < sint32 b) := by omega
  simp only [shiftAmount, hc, if_neg hrange, uint32_eq_toNat_sint32 hlow]

theorem shiftAmount_out_of_range {c : Config} {b : Word} (hc : c.shiftCount = .fault)
    (h : sint32 b < 0 ∨ 31 < sint32 b) : shiftAmount c b = .error .shiftCount := by
  simp only [shiftAmount, hc, if_pos h]

theorem binop_shr_of_amount {c : Config} {b : Word} {n : Nat} (h : shiftAmount c b = .ok n) (a : Word) :
    binop c .shr a b = .ok (word (Int.fdiv (sint32 a) (2 ^ n))) := by
  simp only [binop, opShr, h, Nat.cast_pow, Nat.cast_ofNat]

theorem binop_shl_of_amount {c : Config} {b : Word} {n : Nat} (h : shiftAmount c b = .ok n) (a : Word) :
    binop c .shl a b = .ok (word (uint32 a * 2 ^ n)) := by
  simp only [binop, opShl, h, Nat.cast_mul, Nat.cast_pow, Nat.cast_ofNat]

theorem binop_shr_of_error {c : Config} {b : Word} {ρ : Reason} (h : shiftAmount c b = .error ρ) (a : Word) :
    binop c .shr a b = .error ρ := by
  simp only [binop, opShr, h]

theorem binop_shl_of_error {c : Config} {b : Word} {ρ : Reason} (h : shiftAmount c b = .error ρ) (a : Word) :
    binop c .shl a b = .error ρ := by
  simp only [binop, opShl, h]

theorem word_fdiv_two_pow (a : Word) (n : Nat) : word (Int.fdiv (sint32 a) (2 ^ n)) = a.sshiftRight n := by
  rw [Int.fdiv_eq_ediv_of_nonneg _ (by positivity), BitVec.sshiftRight, Int.shiftRight_eq_div_pow]
  push_cast
  rfl

theorem word_mul_two_pow (a : Word) (n : Nat) : word (uint32 a * 2 ^ n) = a <<< n := by
  have hcast : ((uint32 a : Int) * 2 ^ n) = ((uint32 a <<< n : Nat) : Int) := by
    rw [Nat.shiftLeft_eq]
    push_cast
    rfl
  rw [hcast, word, BitVec.ofInt_natCast]
  rfl

/-- The four shift instructions complete wherever the count is an amount. -/
theorem exec_shifts_of_amount {s : State} {n : Nat} (g : BitVec 16) (h : shiftAmount s.cfg s.r = .ok n) :
    exec (.bopLShr g) s =
        .next { s with pc := s.pc + 1, pcAbove := s.advance.pcAbove, l := word (Int.fdiv (sint32 s.l) (2 ^ n)) } ∧
      exec (.bopRShr g) s =
        .next { s with pc := s.pc + 1, pcAbove := s.advance.pcAbove, r := word (Int.fdiv (sint32 s.l) (2 ^ n)) } ∧
      exec (.bopLShl g) s =
        .next { s with pc := s.pc + 1, pcAbove := s.advance.pcAbove, l := word (uint32 s.l * 2 ^ n) } ∧
      exec (.bopRShl g) s =
        .next { s with pc := s.pc + 1, pcAbove := s.advance.pcAbove, r := word (uint32 s.l * 2 ^ n) } :=
  have hshr := binop_shr_of_amount h s.l
  have hshl := binop_shl_of_amount h s.l
  ⟨exec_bopL_of_ok .shr g hshr, exec_bopR_of_ok .shr g hshr, exec_bopL_of_ok .shl g hshl, exec_bopR_of_ok .shl g hshl⟩

/-- Settles O9: the three cases of the count, each for both shifts and both registers. -/
theorem shiftOperators : Obligations.ShiftOperators := by
  refine ⟨fun s g => ⟨fun hc => exec_shifts_of_amount g (shiftAmount_mask5 hc s.r),
    fun hc hlow hhigh => exec_shifts_of_amount g (shiftAmount_in_range hc hlow hhigh), fun hc hout w => ?_⟩,
    fun a n _ => ⟨word_fdiv_two_pow a n, word_mul_two_pow a n⟩, rfl, rfl⟩
  have hcount := shiftAmount_out_of_range hc hout
  have hshr := binop_shr_of_error hcount s.l
  have hshl := binop_shl_of_error hcount s.l
  exact ⟨exec_bopL_of_error .shr g hshr, exec_bopR_of_error .shr g hshr, exec_bopL_of_error .shl g hshl,
    exec_bopR_of_error .shl g hshl⟩

/-! ### The bitwise operators -/

/-- Settles O10: the operator unit answers the bitwise result itself. -/
theorem bitwiseOperators : Obligations.BitwiseOperators :=
  ⟨fun _ g => ⟨exec_bopL_of_ok .and g rfl, exec_bopR_of_ok .and g rfl, exec_bopL_of_ok .or g rfl,
      exec_bopR_of_ok .or g rfl, exec_bopL_of_ok .xor g rfl, exec_bopR_of_ok .xor g rfl⟩,
    fun _ => BitVec.xor_self, rfl, rfl, rfl⟩

/-! ### The comparisons and the logical operators -/

section
variable (c : Config) (a b : Word)

theorem binop_eq : binop c .eq a b = .ok (if a = b then 1 else 0) :=
  congrArg Except.ok (truth_eq_ite beq_iff_eq)

theorem binop_ne : binop c .ne a b = .ok (if a ≠ b then 1 else 0) :=
  congrArg Except.ok (truth_eq_ite bne_iff_ne)

theorem binop_le : binop c .le a b = .ok (if sint32 a ≤ sint32 b then 1 else 0) :=
  congrArg Except.ok (truth_eq_ite decide_eq_true_iff)

theorem binop_ge : binop c .ge a b = .ok (if sint32 a ≥ sint32 b then 1 else 0) :=
  congrArg Except.ok (truth_eq_ite decide_eq_true_iff)

theorem binop_lt : binop c .lt a b = .ok (if sint32 a < sint32 b then 1 else 0) :=
  congrArg Except.ok (truth_eq_ite decide_eq_true_iff)

theorem binop_gt : binop c .gt a b = .ok (if sint32 a > sint32 b then 1 else 0) :=
  congrArg Except.ok (truth_eq_ite decide_eq_true_iff)

theorem binop_land : binop c .land a b = .ok (if a ≠ 0 ∧ b ≠ 0 then 1 else 0) :=
  congrArg Except.ok (truth_eq_ite (by simp [isNonzero]))

theorem binop_lor : binop c .lor a b = .ok (if a ≠ 0 ∨ b ≠ 0 then 1 else 0) :=
  congrArg Except.ok (truth_eq_ite (by simp [isNonzero]))

end

/-- Settles O11: the proposition each comparison decides, for both registers. -/
theorem comparisonOperators : Obligations.ComparisonOperators :=
  ⟨fun _ g => ⟨exec_bopL_of_ok .eq g (binop_eq ..), exec_bopR_of_ok .eq g (binop_eq ..),
      exec_bopL_of_ok .ne g (binop_ne ..), exec_bopR_of_ok .ne g (binop_ne ..),
      exec_bopL_of_ok .le g (binop_le ..), exec_bopR_of_ok .le g (binop_le ..),
      exec_bopL_of_ok .ge g (binop_ge ..), exec_bopR_of_ok .ge g (binop_ge ..),
      exec_bopL_of_ok .lt g (binop_lt ..), exec_bopR_of_ok .lt g (binop_lt ..),
      exec_bopL_of_ok .gt g (binop_gt ..), exec_bopR_of_ok .gt g (binop_gt ..)⟩,
    fun _ _ => propext BitVec.toInt_inj.symm, rfl, rfl, rfl, rfl, rfl, rfl⟩

/-- Settles O12: the proposition each operator decides, for both registers. -/
theorem logicalOperators : Obligations.LogicalOperators :=
  ⟨fun _ g => ⟨exec_bopL_of_ok .land g (binop_land ..), exec_bopR_of_ok .land g (binop_land ..),
      exec_bopL_of_ok .lor g (binop_lor ..), exec_bopR_of_ok .lor g (binop_lor ..)⟩, rfl, rfl⟩

/-! ### Addition, subtraction and multiplication -/

theorem opAdd_eq (a b : Word) : opAdd a b = a + b := by simp only [opAdd, BitVec.ofInt_add, BitVec.ofInt_toInt]

theorem opSub_eq (a b : Word) : opSub a b = a - b := by simp only [opSub, word_sub, BitVec.ofInt_toInt]

theorem opMul_eq (a b : Word) : opMul a b = a * b := by simp only [opMul, BitVec.ofInt_mul, BitVec.ofInt_toInt]

/-- Settles O13: the operator unit answers the word itself, and `word` carries the operations over to the patterns. -/
theorem addSubMulOperators : Obligations.AddSubMulOperators :=
  ⟨fun _ g => ⟨exec_bopL_of_ok .add g rfl, exec_bopR_of_ok .add g rfl, exec_bopL_of_ok .sub g rfl,
      exec_bopR_of_ok .sub g rfl, exec_bopL_of_ok .mul g rfl, exec_bopR_of_ok .mul g rfl⟩,
    fun a b => ⟨opAdd_eq a b, opSub_eq a b, opMul_eq a b⟩, rfl, rfl, rfl, rfl⟩

/-! ### Division -/

section
variable (c : Config) (a : Word) {b : Word}

theorem binop_div_of_ne_zero (hb : b ≠ 0) : binop c .div a b = .ok (word (Int.tdiv (sint32 a) (sint32 b))) := by
  have hne : sint32 b ≠ 0 := mt sint32_eq_zero.1 hb
  simp only [binop, opDiv, if_neg hne]

theorem binop_mod_of_ne_zero (hb : b ≠ 0) :
    binop c .mod a b = .ok (word (sint32 a - sint32 b * Int.tdiv (sint32 a) (sint32 b))) := by
  have hne : sint32 b ≠ 0 := mt sint32_eq_zero.1 hb
  simp only [binop, opMod, if_neg hne]

theorem binop_div_of_eq_zero (hb : b = 0) : binop c .div a b = .error .divideByZero := by
  simp only [binop, opDiv, if_pos (sint32_eq_zero.2 hb)]

theorem binop_mod_of_eq_zero (hb : b = 0) : binop c .mod a b = .error .divideByZero := by
  simp only [binop, opMod, if_pos (sint32_eq_zero.2 hb)]

end

/-- The quotient's word does wrap at `-2^31 / -1`; the identity of R145 holds on words all the same. -/
theorem word_tdiv_mul_add (a b : Word) :
    word (Int.tdiv (sint32 a) (sint32 b)) * b + word (sint32 a - sint32 b * Int.tdiv (sint32 a) (sint32 b)) = a := by
  simp only [word_sub, BitVec.ofInt_mul, BitVec.ofInt_toInt]
  rw [BitVec.mul_comm b, BitVec.add_comm, BitVec.sub_add_cancel]

theorem natAbs_tmod_lt (a : Word) {b : Word} (hb : b ≠ 0) :
    (Int.tmod (sint32 a) (sint32 b)).natAbs < (sint32 b).natAbs := by
  rw [Int.natAbs_tmod]
  exact Nat.mod_lt _ (Int.natAbs_pos.2 (mt sint32_eq_zero.1 hb))

/-- The remainder is smaller than the divisor, so its word does not wrap. -/
theorem sint32_word_tmod (a : Word) {b : Word} (hb : b ≠ 0) :
    sint32 (word (Int.tmod (sint32 a) (sint32 b))) = Int.tmod (sint32 a) (sint32 b) := by
  have hlt := natAbs_tmod_lt a hb
  have hlow : -2 ^ 31 ≤ sint32 b := BitVec.le_toInt b
  have hhigh : sint32 b < 2 ^ 31 := BitVec.toInt_lt
  exact BitVec.toInt_ofInt_eq_self (by decide) (by omega) (by omega)

theorem tmod_eq_zero_or_neg_iff (x y : Int) : Int.tmod x y = 0 ∨ (Int.tmod x y < 0 ↔ x < 0) := by
  have hsign := Int.sign_tmod x y
  split at hsign
  · exact .inl (Int.sign_eq_zero_iff_zero.1 hsign)
  · exact .inr (by rw [← Int.sign_eq_neg_one_iff_neg, hsign, Int.sign_eq_neg_one_iff_neg])

/-- What R144 and R145 say of the quotient and the remainder together. -/
theorem div_mod_laws (c : Config) (a : Word) {b : Word} (hb : b ≠ 0) : ∃ q m : Word,
    binop c .div a b = .ok q ∧ binop c .mod a b = .ok m ∧ q * b + m = a ∧
      (m = 0 ∨ (sint32 m < 0 ↔ sint32 a < 0)) ∧ (sint32 m).natAbs < (sint32 b).natAbs := by
  refine ⟨_, _, binop_div_of_ne_zero c a hb, binop_mod_of_ne_zero c a hb, word_tdiv_mul_add a b, ?_⟩
  rw [← Int.tmod_def, ← sint32_eq_zero, sint32_word_tmod a hb]
  exact ⟨tmod_eq_zero_or_neg_iff _ _, natAbs_tmod_lt a hb⟩

/-- Settles O14: the quotient and the remainder in both registers, the record of a zero divisor, the laws of the two. -/
theorem divModOperators : Obligations.DivModOperators := by
  refine ⟨fun s g => ⟨fun hr => ?_, fun hr w => ?_⟩, fun c a b hb => div_mod_laws c a hb, rfl, rfl, rfl⟩
  · have hdiv := binop_div_of_ne_zero s.cfg s.l hr
    have hmod := binop_mod_of_ne_zero s.cfg s.l hr
    exact ⟨exec_bopL_of_ok .div g hdiv, exec_bopR_of_ok .div g hdiv, exec_bopL_of_ok .mod g hmod,
      exec_bopR_of_ok .mod g hmod⟩
  · have hdiv := binop_div_of_eq_zero s.cfg s.l hr
    have hmod := binop_mod_of_eq_zero s.cfg s.l hr
    exact ⟨exec_bopL_of_error .div g hdiv, exec_bopR_of_error .div g hdiv, exec_bopL_of_error .mod g hmod,
      exec_bopR_of_error .mod g hmod⟩

/-! ### SWAP -/

theorem exec_swap (g : BitVec 24) (s : State) :
    exec (.swap g) s = .next { s with pc := s.pc + 1, pcAbove := s.advance.pcAbove, l := s.r, r := s.l } := by
  have hset := congrArg (State.setR · s.l) (advance_setL s s.r)
  exact congrArg Host.Outcome.next hset

/-- Settles O18: the exchange, which does nothing on equal registers and is undone by a second one. -/
theorem swapExchanges : Obligations.SwapExchanges := by
  have ⟨_, hmap, hopr⟩ : Config.default.Valid := by decide
  refine ⟨fun v => decode_encode hmap hopr (i := .swap v) rfl, fun s g g' => ⟨exec_swap g s, fun heq => ?_, ?_⟩⟩
  · rw [exec_swap, heq, ← heq]
  · intro t u ht hu
    rw [exec_swap] at ht hu
    cases ht
    cases hu
    exact ⟨rfl, rfl⟩

end Sys2Proof.Machine
end

