-- ==== Sys2Proof/Proofs/Power.lean ====
section
/-! `POW` (R146): the repeated squaring of the model is the exact power's word (log 12), and under `Float64` it is taken
up to magnitude 2^53 (log 13). -/

namespace Sys2Proof.Machine

/-- Repeated squaring, over the integers whose words it works on: the `k` low bits of the exponent are all of it. -/
theorem powLoop_word (k : Nat) (x y : Int) (n : Nat) (hn : n < 2 ^ k) :
    powLoop k (word x) (word y) n = word (y * x ^ n) := by
  induction k generalizing x y n with
  | zero =>
    obtain rfl : n = 0 := by omega
    simp [powLoop]
  | succ k ih =>
    have hhalf : n / 2 < 2 ^ k := by omega
    rw [powLoop, ← BitVec.ofInt_mul, ← BitVec.ofInt_mul]
    rcases Nat.mod_two_eq_zero_or_one n with heven | hodd
    · have hpow : (x * x) ^ (n / 2) = x ^ n := by rw [← pow_two, ← pow_mul, Nat.mul_div_cancel' (by omega)]
      rw [if_neg (by omega), ih _ _ _ hhalf, hpow]
    · have hpow : x * (x * x) ^ (n / 2) = x ^ n := by
        rw [← pow_two, ← pow_mul, ← pow_succ', Nat.two_mul_div_two_add_one_of_odd (Nat.odd_iff.2 hodd)]
      rw [if_pos hodd, ih _ _ _ hhalf, mul_assoc, hpow]

theorem powWrap_eq_word (a : Word) {n : Nat} (hn : n < 2 ^ 32) : powWrap a n = word (sint32 a ^ n) := by
  have h := powLoop_word 32 (sint32 a) 1 n hn
  rwa [one_mul, word, BitVec.ofInt_toInt] at h

/-- A base of magnitude 2 or more passes 2^53 with its 54th power at the latest. -/
theorem powFits53_iff (a : Word) (n : Nat) : powFits53 a n = true ↔ (sint32 a ^ n).natAbs ≤ 2 ^ 53 := by
  simp only [powFits53, Bool.or_eq_true, Bool.and_eq_true, decide_eq_true_eq, Int.natAbs_pow]
  constructor
  · rintro (hsmall | ⟨_, hfits⟩)
    · exact (pow_le_one₀ (Nat.zero_le _) hsmall).trans (by norm_num)
    · exact hfits
  · intro hfits
    refine or_iff_not_imp_left.2 fun hbig => ⟨?_, hfits⟩
    have htwo : 2 ^ n ≤ (sint32 a).natAbs ^ n := Nat.pow_le_pow_left (by omega) n
    exact (Nat.pow_le_pow_iff_right (by norm_num)).1 (htwo.trans hfits)

section
variable {c : Config} {a b : Word} {x : Int}

theorem powNonneg_eq_word {n : Nat} (hn : n < 2 ^ 32)
    (hexact : c.powMode = .exactWrap ∨ (sint32 a ^ n).natAbs ≤ 2 ^ 53) : powNonneg c a n b = word (sint32 a ^ n) := by
  rw [← powWrap_eq_word a hn]
  unfold powNonneg
  rcases hexact with hmode | hfits
  · rw [hmode]
  · rw [if_pos ((powFits53_iff a n).2 hfits)]
    split <;> rfl

/-- The operator unit faults where the exact power does not exist. -/
theorem opPow_of_none (h : powExact (sint32 a) (sint32 b) = none) : opPow c a b = .error .divideByZero := by
  unfold powExact at h
  unfold opPow
  split_ifs at h ⊢
  rfl

/-- The operator unit never faults where the exact power exists, under either mode: a free value is a word too (log 13). -/
theorem opPow_ok_of_some (h : powExact (sint32 a) (sint32 b) = some x) : ∃ v, opPow c a b = .ok v := by
  unfold powExact at h
  unfold opPow
  split_ifs at h ⊢ <;> exact ⟨_, rfl⟩

/-- With the exact power's word under `ExactWrap`, and under `Float64` up to magnitude 2^53. -/
theorem opPow_of_some (h : powExact (sint32 a) (sint32 b) = some x)
    (hexact : c.powMode = .exactWrap ∨ x.natAbs ≤ 2 ^ 53) : opPow c a b = .ok (word x) := by
  unfold powExact at h
  unfold opPow
  split_ifs at h ⊢ <;> obtain rfl := Option.some.inj h
  · have hexp : sint32 b < 2 ^ 31 := BitVec.toInt_lt
    rw [powNonneg_eq_word (by omega) hexact]
  all_goals rfl

end

section
variable {s : State} {x : Int}

/-- The two `POW` instructions fault with the word they were decoded from. -/
theorem exec_pow_of_none (g : BitVec 16) (h : powExact (sint32 s.l) (sint32 s.r) = none) (w : Word) :
    (decode s.cfg w = .ok (.bopLPow g) → exec (.bopLPow g) s = .next (faultRecord s s .divideByZero (.word w))) ∧
      (decode s.cfg w = .ok (.bopRPow g) → exec (.bopRPow g) s = .next (faultRecord s s .divideByZero (.word w))) :=
  have hfault : binop s.cfg .pow s.l s.r = .error .divideByZero := opPow_of_none h
  ⟨exec_bopL_of_error .pow g hfault, exec_bopR_of_error .pow g hfault⟩

/-- The two `POW` instructions complete with what the operator unit answers. -/
theorem exec_pow_of_ok {v : Word} (g : BitVec 16) (h : opPow s.cfg s.l s.r = .ok v) :
    exec (.bopLPow g) s = .next { s with pc := s.pc + 1, pcAbove := s.advance.pcAbove, l := v } ∧
      exec (.bopRPow g) s = .next { s with pc := s.pc + 1, pcAbove := s.advance.pcAbove, r := v } :=
  ⟨exec_bopL_of_ok .pow g h, exec_bopR_of_ok .pow g h⟩

end

/-- Settles O15: by the exact power, which the operator unit answers or faults with. -/
theorem powExactWrap : Obligations.PowExactWrap := fun _ g hmode =>
  ⟨fun _ hx => exec_pow_of_ok g (opPow_of_some hx (.inl hmode)), exec_pow_of_none g⟩

/-- Settles O16: as under `ExactWrap` up to magnitude 2^53; above it the instruction completes, and no more is said. -/
theorem powFloat64 : Obligations.PowFloat64 := fun _ g _ =>
  ⟨fun _ hx hfits => exec_pow_of_ok g (opPow_of_some hx (.inr hfits)),
    fun _ hx => (opPow_ok_of_some hx).imp fun _ hv => exec_pow_of_ok g hv, exec_pow_of_none g⟩

end Sys2Proof.Machine
end

