-- ==== Sys2Proof/Proofs/Control.lean ====
section
/-! Branches, jump, call and return (R161 to R170): where each completes, and the faults of `CALL` and `RET` in their order
(R165, R166, R194). -/

namespace Sys2Proof.Machine

/-! ### Branches and jump -/

/-- An opcode of format O followed by its offset field (R64) decodes to the offset's signed reading (R67). -/
theorem decode_code_append {c : Config} (hmap : c.OpmapValid) {o : Op} {v : BitVec 24} {i : Instr}
    (hi : Instr.ofOffset o (sext24 v) = some i) : decode c (c.opmap.code o ++ v) = .ok i := by
  have hv : BitVec.ofInt 24 (sext24 v) = v := BitVec.ofInt_toInt
  have hdec : decode c (encodeO c o (sext24 v)) = .ok i := decode_encodeO hmap (by rwa [hv])
  rwa [encodeO, hv] at hdec

section
variable {w : Word}

/-- `BRL` and `BRR`, where the register tested holds `w` (R162, R163). -/
theorem conclude_branch_taken (hw : w ≠ 0) (off : Int) (s : State) :
    conclude s (if isNonzero w then jumpTo off s.advance else .ok () s.advance) = .next (s.goTo (s.cfg.codeBase + off)) := by
  rw [if_pos (by simpa [isNonzero] using hw)]
  rfl

theorem conclude_branch_not_taken (hw : w = 0) (off : Int) (s : State) :
    conclude s (if isNonzero w then jumpTo off s.advance else .ok () s.advance) =
      .next { s with pc := s.pc + 1, pcAbove := s.advance.pcAbove } := by
  rw [if_neg (by simpa [isNonzero] using hw), conclude_ok]
  exact congrArg Host.Outcome.next (advance_eq s)

end

/-- Settles O19: the word of each is its opcode and the offset field; a branch by whether its register is 0. -/
theorem branchesAndJump : Obligations.BranchesAndJump :=
  have ⟨_, hmap, _⟩ : Config.default.Valid := by decide
  ⟨fun _ => ⟨decode_code_append hmap (o := .brl) rfl, decode_code_append hmap (o := .brr) rfl,
      decode_code_append hmap (o := .jmp) rfl⟩,
    rfl,
    fun s off => ⟨fun hl => conclude_branch_taken hl off s, fun hl => conclude_branch_not_taken hl off s,
      fun hr => conclude_branch_taken hr off s, fun hr => conclude_branch_not_taken hr off s, rfl⟩⟩

/-! ### The parts of `CALL` -/

section
variable {s u : State} {off n S next : Int} {nw : Word} {ρ : Reason}

/-- After its frame-size read `CALL` is its checks on the word read, in the state the read left (R165). -/
theorem callBody_of_gives (h : ReadGives s (s.cfg.codeBase + off - 1) nw u) :
    callBody off s.advance = callWithSize (s.cfg.codeBase + off) nw u.advance := by
  have hread : memRead (transferTarget s.advance off - 1) s.advance = .ok nw u.advance := memRead_of_gives h.advance
  rw [callBody, hread, Res.bind_ok]
  rfl

theorem callBody_of_faults (h : ReadFaults s (s.cfg.codeBase + off - 1) ρ) :
    callBody off s.advance = .raised ρ (.int (s.cfg.codeBase + off - 1)) s.advance := by
  have hread : memRead (transferTarget s.advance off - 1) s.advance =
      .raised ρ (.int (s.cfg.codeBase + off - 1)) s.advance := memRead_of_faults h.advance
  rw [callBody, hread, Res.bind_raised]

/-- Plain memory with the two linkage words of a frame at `S`: the return address, then the saved SPL (R165). -/
def Memory.link (m : Memory) (S : Int) (ret saved : Word) : Memory := (m.write (S - 1).toNat ret).write S.toNat saved

section
variable (m : Memory) (ret saved : Word)

theorem Memory.read_link_saved : (m.link S ret saved).read S.toNat = some saved := Memory.read_write_same ..

theorem Memory.read_link_ret (hS : 0 < S) : (m.link S ret saved).read (S - 1).toNat = some ret := by
  rw [Memory.link, Memory.read_write_other _ _ _ _ (by omega), Memory.read_write_same]

theorem Memory.read_link_other {b : Nat} (hret : b ≠ (S - 1).toNat) (hsaved : b ≠ S.toNat) :
    (m.link S ret saved).read b = m.read b := by
  rw [Memory.link, Memory.read_write_other _ _ _ _ hsaved, Memory.read_write_other _ _ _ _ hret]

end

theorem enterFrame_of_plain (hret : s.PlainAddr (S - 1)) (hsaved : s.PlainAddr S) :
    enterFrame S n next s =
      .ok () ((((s.setMem (s.mem.link S s.pc s.spl)).setSpl (word S)).setSpr (word (S + n))).goTo next) := by
  have hsaved' : (s.setMem (s.mem.write (S - 1).toNat s.pc)).PlainAddr S := hsaved
  rw [enterFrame, memWrite_plain hret, Res.bind_ok, memWrite_plain hsaved', Res.bind_ok]
  rfl

/-- The second linkage write faults; the first is still in the state of the fault, and taking the fault undoes it (R193). -/
theorem enterFrame_of_outside (hret : s.PlainAddr (S - 1)) (hsaved : s.OutsideAddr S) :
    enterFrame S n next s =
      .raised .addressOutOfRange (.int S) (s.setMem (s.mem.write (S - 1).toNat s.pc)) := by
  have hsaved' : (s.setMem (s.mem.write (S - 1).toNat s.pc)).OutsideAddr S := hsaved
  rw [enterFrame, memWrite_plain hret, Res.bind_ok, memWrite_outside hsaved', Res.bind_raised]

/-! ### The checks of `CALL`, in their order -/

theorem callWithSize_of_neg (hn : sint32 nw < 0) : callWithSize next nw s = .raised .badFrameSize (.word nw) s :=
  if_pos hn

theorem callWithSize_of_overflow (hn : 0 ≤ sint32 nw)
    (h : sint32 s.spr - 1 < s.cfg.stackBase ∨ s.cfg.memSize < sint32 s.spr + sint32 nw) :
    callWithSize next nw s = .raised .stackOverflow (.int (sint32 s.spr + sint32 nw)) s :=
  (if_neg (not_lt.2 hn)).trans (if_pos h)

/-- Past the checks `CALL` enters its frame (R165). -/
theorem callWithSize_eq_enterFrame (hn : 0 ≤ sint32 nw) (hslot : s.cfg.stackBase ≤ sint32 s.spr - 1)
    (htop : sint32 s.spr + sint32 nw ≤ s.cfg.memSize) :
    callWithSize next nw s = enterFrame (sint32 s.spr) (sint32 nw) next s :=
  (if_neg (not_lt.2 hn)).trans (if_neg (by omega))

/-- The return slot is at `STACK_BASE` or above, the saved SPL's slot within memory: both linkage words are plain words. -/
theorem callWithSize_of_fits (hsizes : s.cfg.SizesValid) (hn : 0 ≤ sint32 nw)
    (hslot : s.cfg.stackBase ≤ sint32 s.spr - 1) (htop : sint32 s.spr + sint32 nw ≤ s.cfg.memSize)
    (hspr : sint32 s.spr < s.cfg.memSize) :
    callWithSize next nw s = .ok () ((((s.setMem (s.mem.link (sint32 s.spr) s.pc s.spl)).setSpl s.spr).setSpr
      (word (sint32 s.spr + sint32 nw))).goTo next) := by
  obtain ⟨-, hcode, -⟩ := hsizes
  have hword : word (sint32 s.spr) = s.spr := BitVec.ofInt_toInt
  rw [callWithSize_eq_enterFrame hn hslot htop, enterFrame_of_plain (by omega) (by omega), hword]

/-- A frame of no words at the end of memory passes the checks, and its second linkage write faults (R165). -/
theorem callWithSize_of_memSize (hsizes : s.cfg.SizesValid) (hn : sint32 nw = 0) (hspr : sint32 s.spr = s.cfg.memSize) :
    callWithSize next nw s = .raised .addressOutOfRange (.int (sint32 s.spr))
      (s.setMem (s.mem.write (sint32 s.spr - 1).toNat s.pc)) := by
  obtain ⟨-, hcode, hstack, -⟩ := hsizes
  rw [callWithSize_eq_enterFrame hn.ge (by omega) (by omega), enterFrame_of_outside (by omega) (by omega)]

/-! ### What `CALL` does -/

/-- A `CALL` whose checks or linkage writes fault: the frame-size read stays made, and what was written is put back (R193). -/
theorem exec_call_of_raised {v : State} {info : Info} (h : ReadGives s (s.cfg.codeBase + off - 1) nw u)
    (hraised : callWithSize (s.cfg.codeBase + off) nw u.advance = .raised ρ info v)
    (hdevice : v.deviceHistory = u.deviceHistory) (hreplies : v.deviceReplies = u.deviceReplies) :
    exec (.call off) s = .next (faultRecord s u ρ info) := by
  have hexec : exec (.call off) s = .next (faultRecord s v ρ info) :=
    congrArg (conclude s) ((callBody_of_gives h).trans hraised)
  rw [hexec, faultRecord, hdevice, hreplies]
  rfl

/-- A completed `CALL`, its frame-size read having left the state `u` (R165). -/
theorem exec_call_of_fits (hsizes : s.cfg.SizesValid) (h : ReadGives s (s.cfg.codeBase + off - 1) nw u)
    (hn : 0 ≤ sint32 nw) (hslot : s.cfg.stackBase ≤ sint32 s.spr - 1)
    (htop : sint32 s.spr + sint32 nw ≤ s.cfg.memSize) (hspr : sint32 s.spr < s.cfg.memSize) :
    exec (.call off) s = .next { u with
      pc := word (s.cfg.codeBase + off), pcAbove := (s.goTo (s.cfg.codeBase + off)).pcAbove, spl := s.spr,
      spr := word (sint32 s.spr + sint32 nw), mem := s.mem.link (sint32 s.spr) (s.pc + 1) s.spl } := by
  have hbody := callBody_of_gives h
  obtain ⟨e, q, rfl⟩ := h.eq_setDevice
  have hfits := callWithSize_of_fits (s := (s.setDevice e q).advance) (next := s.cfg.codeBase + off) hsizes hn hslot htop hspr
  rw [advance_pc] at hfits
  exact congrArg (conclude s) (hbody.trans hfits)

/-- Settles O27: `CALL` completes with the two linkage words in memory, each read back from its slot. -/
theorem callEntersFrame : Obligations.CallEntersFrame := by
  intro s u off nw hsizes h hn hslot htop hspr
  exact ⟨_, exec_call_of_fits hsizes h hn hslot htop hspr, rfl, Memory.read_link_ret _ _ _ (by omega),
    Memory.read_link_saved _ _ _, fun b => Memory.read_link_other _ _ _⟩

/-- Settles O28: the frame-size read, then the two checks on the word it gave, then the linkage write at SPR. -/
theorem callFaultsInOrder : Obligations.CallFaultsInOrder := by
  refine fun s off hsizes => ⟨fun ρ h => conclude_of_raised_at_advance (callBody_of_faults h), fun u nw h => ?_⟩
  obtain ⟨e, q, rfl⟩ := h.eq_setDevice
  exact ⟨fun hn => exec_call_of_raised h (callWithSize_of_neg hn) rfl rfl,
    fun hn hflow => exec_call_of_raised h (callWithSize_of_overflow hn hflow) rfl rfl,
    fun hn hspr => exec_call_of_raised h (callWithSize_of_memSize hsizes hn hspr) rfl rfl⟩

end

/-! ### What `RET` does -/

section
variable {s t u : State} {saved ret : Word} {ρ : Reason}

theorem exec_ret_of_gives (g : BitVec 24) (hsaved : ReadGives s (sint32 s.spl) saved t)
    (hret : ReadGives t (sint32 s.spl - 1) ret u) :
    exec (.ret g) s = .next { u with pc := ret, pcAbove := false, spl := saved, spr := s.spl } :=
  congrArg (conclude s) (retBody_of_gives (s := s.advance) hsaved.advance hret.advance)

theorem retBody_of_faults (h : ReadFaults s (sint32 s.spl) ρ) : retBody s = .raised ρ (.int (sint32 s.spl)) s := by
  rw [retBody, memRead_of_faults h, Res.bind_raised]

theorem retBody_of_second_faults (hsaved : ReadGives s (sint32 s.spl) saved t)
    (h : ReadFaults t (sint32 s.spl - 1) ρ) : retBody s = .raised ρ (.int (sint32 s.spl - 1)) t := by
  rw [retBody, memRead_of_gives hsaved, Res.bind_ok, memRead_of_faults h, Res.bind_raised]

end

/-- Settles O29: by the read of the saved SPL and the read of the return address, in that order. -/
theorem returnRestoresCaller : Obligations.ReturnRestoresCaller := fun s _ _ g _ _ =>
  ⟨exec_ret_of_gives g, fun _ h => conclude_of_raised_at_advance (retBody_of_faults h.advance),
    fun _ hsaved h => congrArg (conclude s) (retBody_of_second_faults hsaved.advance h.advance)⟩

/-! ### `CALL`, then `RET` -/

/-- A frame entry that completes wrote the saved SPL's slot, so the slot lies within the addressable space. -/
theorem lt_memSize_of_enterFrame_eq_ok {S n next : Int} {s t : State} (h : enterFrame S n next s = .ok () t) :
    S < s.cfg.memSize := by
  obtain ⟨u, v, hret, hsaved, -⟩ := enterFrame_eq_ok h
  rw [← memWrite_cfg hret]
  rcases memWrite_eq_ok hsaved with ⟨⟨-, htop⟩, -⟩ | ⟨⟨-, -, htop⟩, -⟩ <;> exact htop

/-- A `CALL` that takes no fault found SPR at an address its linkage words fit at (R165). -/
theorem spr_bounds_of_exec_call {s t : State} {off : Int} (h : exec (.call off) s = .next t) (ht : t.status = .running) :
    (s.cfg.stackBase : Int) ≤ sint32 s.spr - 1 ∧ sint32 s.spr < s.cfg.memSize := by
  rcases conclude_eq_next h with hok | ⟨ρ, info, u, -, rfl⟩
  · obtain ⟨nw, u, hread, -, hslot, -, hframe⟩ := callBody_eq_ok hok
    have htop := lt_memSize_of_enterFrame_eq_ok hframe
    obtain ⟨e, q, rfl⟩ := hread.eq_setDevice
    exact ⟨hslot, htop⟩
  · cases ht

/-- Settles O30: the two linkage slots are plain words, so `RET` reads back the two words that are still in them. -/
theorem callThenReturnRestores : Obligations.CallThenReturnRestores := by
  intro s t u off g hsizes _ hcall ht hcfg hspl hsaved hret
  obtain ⟨hslot, htop⟩ := spr_bounds_of_exec_call hcall ht
  obtain ⟨-, hcode, -⟩ := hsizes
  have ⟨hplain, hplain'⟩ : u.PlainAddr (sint32 u.spl) ∧ u.PlainAddr (sint32 u.spl - 1) := by
    rw [State.PlainAddr, State.PlainAddr, hcfg, hspl]
    omega
  rw [← hspl] at hsaved hret ⊢
  exact ⟨_, exec_ret_of_gives g (.inl ⟨⟨hplain, hsaved⟩, rfl⟩) (.inl ⟨⟨hplain', hret⟩, rfl⟩), rfl, rfl, rfl⟩

end Sys2Proof.Machine
end

