-- ==== Sys2Proof/Proofs/FrontHalf.lean ====
section
/-! The front half of a step (R160): the halt check, the fetch, the decode, and what each does where it does not let the
instruction run. -/

namespace Sys2Proof.Machine

/-- Settles O31: no halt at a plain address, and the fetch and the decode of the word held there change nothing. -/
theorem stepRunsDecodedInstruction : Obligations.StepRunsDecodedInstruction := fun _ _ _ => step_of_holds

/-! ### The halt check -/

/-- A running engine whose PC names an address below `CODE_BASE` halts before any fetch (R167). -/
theorem step_of_pcAddr_lt {s : State} (hrun : s.status = .running) (h : s.pcAddr < s.cfg.codeBase) :
    step s = .next { s with status := .halted } := by
  simp [step, hrun, belowCode, h, halt, State.setStatus]

/-- `HALT` is `JMP -1` (R77). -/
theorem exec_halt (s : State) : exec Instr.halt s = .next (s.goTo (s.cfg.codeBase + -1)) := rfl

/-- Settles O32: by the address PC names, which for a PC that never wrapped is its 32 bits as `sint32` reads them; that of
`HALT`, `CODE_BASE - 1`, is below 2^31 (R7). -/
theorem stepHaltsBelowCodeBase : Obligations.StepHaltsBelowCodeBase := by
  refine ⟨fun s hrun habove h => step_of_pcAddr_lt hrun (by rwa [pcAddr_eq_sint32 habove]),
    fun _ _ _ _ => step_of_pcAddr_lt, fun s hsizes hrun => ?_⟩
  obtain ⟨hpos, hcode, hstack, hmem, -⟩ := hsizes
  have haddr : (s.goTo (s.cfg.codeBase + -1)).pcAddr = s.cfg.codeBase + -1 := goTo_pcAddr (by omega) (by omega)
  have habove : (s.goTo (s.cfg.codeBase + -1)).pcAbove = false := by
    rw [goTo_pcAbove, decide_eq_false_iff_not]
    omega
  refine ⟨_, exec_halt s, habove, by rw [← pcAddr_eq_sint32 habove, haddr]; rfl, step_of_pcAddr_lt hrun ?_⟩
  rw [haddr, goTo_cfg]
  omega

/-! ### The fetch and the decode -/

section
variable {s : State}

/-- A fetch that faults (R43, R160). -/
theorem step_of_readFaults {ρ : Reason} (hrun : s.status = .running) (hbase : s.cfg.codeBase ≤ s.pcAddr)
    (h : ReadFaults s s.pcAddr ρ) : step s = .next (faultRecord s s ρ (.int s.pcAddr)) := by
  refine step_of_fetch_raised hrun (belowCode_eq_false hbase) ?_
  rw [fetchDecode, memRead_of_faults h, Res.bind_raised]

/-- A fetched word that does not decode (R68, R69). -/
theorem step_of_decode_error {w : Word} {e : DecodeError} (hrun : s.status = .running) (hw : s.Holds s.pcAddr w)
    (h : decode s.cfg w = .error e) : step s = .next (faultRecord s s (decodeReason e) (.word w)) := by
  have ⟨⟨hbase, _⟩, _⟩ := hw
  refine step_of_fetch_raised hrun (belowCode_eq_false hbase) ?_
  rw [fetchDecode, memRead_of_gives (.inl ⟨hw, rfl⟩), Res.bind_ok, decodeWord, h]

end

/-- Settles O33: a fetch outside the space or of an unwritten word, then the two decode errors. -/
theorem fetchAndDecodeFaults : Obligations.FetchAndDecodeFaults := fun _ hrun =>
  ⟨fun htop hbase => step_of_readFaults hrun hbase (.inl ⟨.inr htop, rfl⟩),
    fun hw => have ⟨⟨hbase, _⟩, _⟩ := hw; step_of_readFaults hrun hbase (.inr ⟨hw, rfl⟩),
    fun _ hw => ⟨step_of_decode_error hrun hw, step_of_decode_error hrun hw⟩⟩

end Sys2Proof.Machine
end

