-- ==== Sys2Proof/Proofs/Exceptions.lean ====
section
/-! The faults an instruction can take (R190 to R194), said once for all of them (`State.FaultsAs`, `exec_eq_faulted`): the
cause and the info of each, and the device accesses made before it. -/

namespace Sys2Proof.Machine

/-! ### One read has one outcome -/

section
variable {s t u : State} {a : Int} {v w : Word}

theorem ReadGives.unique (h₁ : ReadGives s a v t) (h₂ : ReadGives s a w u) : t = u :=
  (Res.ok.inj ((memRead_of_gives h₁).symm.trans (memRead_of_gives h₂))).2

theorem ReadFaults.not_gives {ρ : Reason} (hf : ReadFaults s a ρ) : ¬ ReadGives s a v t := fun hg =>
  nomatch (memRead_of_faults hf).symm.trans (memRead_of_gives hg)

/-- A step fetches and decodes one instruction. -/
theorem State.Runs.unique {i j : Instr} (hi : s.Runs i) (hj : s.Runs j) : i = j := by
  obtain ⟨x, hx, hi⟩ := hi
  obtain ⟨y, hy, hj⟩ := hj
  exact (Res.ok.inj ((fetchDecode_of_holds hx hi).symm.trans (fetchDecode_of_holds hy hj))).1

end

/-! ### Why an instruction faults, and what it leaves -/

/-- A cause of a fault of the instruction `i` begun in `s`, with the reason and the info R191 gives it. -/
inductive State.FaultCause (s : State) (i : Instr) : Reason → Info → Prop where
  /-- A read outside the space or of an unwritten word (R43). -/
  | read {a : Int} {ρ : Reason} (ha : s.ReadsAt i a) (hf : ReadFaults s a ρ) : s.FaultCause i ρ (.int a)
  /-- A write outside the space (R44). -/
  | write {a : Int} (ha : s.WritesAt i a) (hout : s.OutsideAddr a) : s.FaultCause i .addressOutOfRange (.int a)
  /-- A fault of the operator unit (R125). -/
  | operator (o : BinOp) (g : BitVec 16) {ρ : Reason} (hi : i = Instr.bopL o g ∨ i = Instr.bopR o g)
      (herr : binop s.cfg o s.l s.r = .error ρ) : s.FaultCause i ρ (.word (encode s.cfg i))
  /-- A `CALL` that read a negative frame size (R165). -/
  | frameSize {off : Int} {nw : Word} {u : State} (hi : i = .call off)
      (hread : ReadGives s (s.cfg.codeBase + off - 1) nw u) (hn : sint32 nw < 0) :
      s.FaultCause i .badFrameSize (.word nw)
  /-- A `CALL` whose frame does not fit (R165). -/
  | overflow {off : Int} {nw : Word} {u : State} (hi : i = .call off)
      (hread : ReadGives s (s.cfg.codeBase + off - 1) nw u) (hn : 0 ≤ sint32 nw)
      (hflow : sint32 s.spr - 1 < s.cfg.stackBase ∨ s.cfg.memSize < sint32 s.spr + sint32 nw) :
      s.FaultCause i .stackOverflow (.int (sint32 s.spr + sint32 nw))

/-- The device history a fault of the instruction `i` begun in `s` leaves (R193): that after the leading read where it was
made, else the old one. -/
inductive State.FaultHistory (s : State) (i : Instr) : List DeviceEvent → Prop where
  | made {b : Int} {p : Word} {u : State} (hlead : s.leadingRead i = some b) (hread : ReadGives s b p u) :
      s.FaultHistory i u.deviceHistory
  | notMade (hnone : ∀ b p u, s.leadingRead i = some b → ¬ ReadGives s b p u) : s.FaultHistory i s.deviceHistory

/-- The instruction `i` begun in `s` raises the fault `ρ` with `info` in the state `u`, as R191 and R193 have it. The
history is said under the size constraints (R7) only: outside them a linkage word of `CALL` could be a device's. -/
structure State.FaultsAs (s : State) (i : Instr) (ρ : Reason) (info : Info) (u : State) : Prop where
  cause : s.FaultCause i ρ info
  history : s.cfg.SizesValid → s.FaultHistory i u.deviceHistory

section
variable {s t u : State} {i : Instr} {ρ : Reason} {info : Info}

theorem faultHistory_of_no_leadingRead (h : s.leadingRead i = none) : s.FaultHistory i s.deviceHistory :=
  .notMade fun b _ _ hb => by simp [h] at hb

/-! ### The addresses an instruction accesses -/

section
variable {off : Int}

/-- The address of a static load (R91). -/
theorem readsAt_static (hop : i.op ∈ [.ldsL, .ldsR]) (hoff : i.offset? = some off) :
    s.ReadsAt i (s.cfg.codeBase + off) := .inr (.inl ⟨hop, off, hoff, rfl⟩)

/-- The address of a frame load (R92). -/
theorem readsAt_frame (hop : i.op ∈ [.ldfL, .ldfR]) (hoff : i.offset? = some off) :
    s.ReadsAt i (sint32 s.spl + off) := .inr (.inr (.inl ⟨hop, off, hoff, rfl⟩))

/-- The address an indirect load reads second is the one its leading read gave (R93). -/
theorem readsAt_pointer {b : Int} {p : Word} {v : State} (hop : i.op ∈ [.ldsiL, .ldsiR, .ldfiL, .ldfiR])
    (hlead : s.leadingRead i = some b) (hread : ReadGives s b p v) : s.ReadsAt i (sint32 p) :=
  .inr (.inr (.inr ⟨b, p, v, hlead, hread, .inl ⟨hop, rfl⟩⟩))

/-- The address of a static store (R91). -/
theorem writesAt_static (hop : i.op ∈ [.stsL, .stsR]) (hoff : i.offset? = some off) :
    s.WritesAt i (s.cfg.codeBase + off) := .inl ⟨hop, off, hoff, rfl⟩

/-- The address of a frame store (R92). -/
theorem writesAt_frame (hop : i.op ∈ [.stfL, .stfR]) (hoff : i.offset? = some off) :
    s.WritesAt i (sint32 s.spl + off) := .inr (.inl ⟨hop, off, hoff, rfl⟩)

end

/-! ### The parts of an instruction -/

/-- The leading read itself faults (R194). -/
theorem faultsAs_of_leadingRead {b : Int} (hlead : s.leadingRead i = some b) (hf : ReadFaults s b ρ) :
    s.FaultsAs i ρ (.int b) s.advance where
  cause := .read (.inl hlead) hf
  history _ := .notMade fun b' p v hb' => by
    obtain rfl : b = b' := Option.some.inj (hlead.symm.trans hb')
    exact hf.not_gives

/-- A load into L, after the device accesses of a pointer read or of none. -/
theorem loadL_faultsAs {a : Int} {e : List DeviceEvent} {q : List DeviceReply} (he : s.FaultHistory i e)
    (ha : s.ReadsAt i a) (h : loadL a (s.advance.setDevice e q) = .raised ρ info u) : s.FaultsAs i ρ info u := by
  obtain ⟨hf, rfl, rfl⟩ := loadL_eq_raised h
  exact ⟨.read ha hf, fun _ => he⟩

theorem loadR_faultsAs {a : Int} {e : List DeviceEvent} {q : List DeviceReply} (he : s.FaultHistory i e)
    (ha : s.ReadsAt i a) (h : loadR a (s.advance.setDevice e q) = .raised ρ info u) : s.FaultsAs i ρ info u := by
  obtain ⟨hf, rfl, rfl⟩ := loadR_eq_raised h
  exact ⟨.read ha hf, fun _ => he⟩

/-- The write of a store, after the device accesses of a pointer read or of none. -/
theorem store_faultsAs {a : Int} {v : Word} {e : List DeviceEvent} {q : List DeviceReply} (he : s.FaultHistory i e)
    (ha : s.WritesAt i a) (h : memWrite a v (s.advance.setDevice e q) = .raised ρ info u) : s.FaultsAs i ρ info u := by
  obtain ⟨hout, rfl, rfl, rfl⟩ := memWrite_eq_raised h
  exact ⟨.write ha hout, fun _ => he⟩

/-- An access with no read before it: no device access has been made yet. -/
theorem direct_faultsAs {x : State → Res Unit} (hlead : s.leadingRead i = none)
    (hx : ∀ {e q}, s.FaultHistory i e → x (s.advance.setDevice e q) = .raised ρ info u → s.FaultsAs i ρ info u)
    (h : x s.advance = .raised ρ info u) : s.FaultsAs i ρ info u :=
  hx (q := s.deviceReplies) (faultHistory_of_no_leadingRead hlead) h

/-- Through a pointer (R93): the pointer read faults, or the access at the address it gave. -/
theorem viaPointer_faultsAs {b : Int} {access : Int → State → Res Unit} (hlead : s.leadingRead i = some b)
    (haccess : ∀ {p e q}, ReadGives s b p (s.setDevice e q) → s.FaultHistory i e →
      access (sint32 p) (s.advance.setDevice e q) = .raised ρ info u → s.FaultsAs i ρ info u)
    (h : viaPointer b access s.advance = .raised ρ info u) : s.FaultsAs i ρ info u := by
  rcases viaPointer_eq_raised h with ⟨hf, rfl, rfl⟩ | ⟨p, v, hread, hraised⟩
  · exact faultsAs_of_leadingRead hlead hf
  · obtain ⟨e, q, rfl, hread'⟩ := hread.of_advance
    exact haccess hread' (.made hlead hread') hraised

theorem binaryToL_faultsAs {o : BinOp} {g : BitVec 16}
    (h : binaryToL o (encode s.cfg (Instr.bopL o g)) s.advance = .raised ρ info u) :
    s.FaultsAs (Instr.bopL o g) ρ info u := by
  obtain ⟨herr, rfl, rfl⟩ := binaryToL_eq_raised h
  exact ⟨.operator o g (.inl rfl) herr, fun _ => faultHistory_of_no_leadingRead (by simp [State.leadingRead])⟩

theorem binaryToR_faultsAs {o : BinOp} {g : BitVec 16}
    (h : binaryToR o (encode s.cfg (Instr.bopR o g)) s.advance = .raised ρ info u) :
    s.FaultsAs (Instr.bopR o g) ρ info u := by
  obtain ⟨herr, rfl, rfl⟩ := binaryToR_eq_raised h
  exact ⟨.operator o g (.inr rfl) herr, fun _ => faultHistory_of_no_leadingRead (by simp [State.leadingRead])⟩

theorem branch_ne_raised (taken : Bool) (off : Int) (v : State) :
    (if taken then jumpTo off v else .ok () v) ≠ .raised ρ info u := by
  cases taken <;> nofun

/-- A frame entry past the checks of `CALL` makes no device access before it faults: its first linkage word is at
`STACK_BASE` or above, so it is a plain word (R165). -/
theorem enterFrame_raised_history {S n next : Int} (hsizes : s.cfg.SizesValid) (hslot : s.cfg.stackBase ≤ S - 1)
    (h : enterFrame S n next s = .raised ρ info u) : u.deviceHistory = s.deviceHistory := by
  obtain ⟨-, ⟨rfl, -⟩ | ⟨hret, -⟩⟩ := enterFrame_eq_raised h
  · rfl
  · obtain ⟨-, hcode, -⟩ := hsizes
    rcases memWrite_eq_ok hret with ⟨-, rfl⟩ | ⟨⟨-, hbase, -⟩, -⟩
    · rfl
    · omega

/-- A frame entry faults at the address of one of its two linkage words (R165). -/
theorem enterFrame_raised_outside {S n next : Int} (h : enterFrame S n next s = .raised ρ info u) :
    ρ = .addressOutOfRange ∧ ∃ a, (a = S - 1 ∨ a = S) ∧ s.OutsideAddr a ∧ info = .int a := by
  obtain ⟨hρ, ⟨-, hout, hinfo⟩ | ⟨hret, hout, hinfo⟩⟩ := enterFrame_eq_raised h
  · exact ⟨hρ, S - 1, .inl rfl, hout, hinfo⟩
  · rw [State.OutsideAddr, memWrite_cfg hret] at hout
    exact ⟨hρ, S, .inr rfl, hout, hinfo⟩

/-- `CALL`: the frame-size read, the two checks, the linkage writes (R165). -/
theorem call_faultsAs {off : Int} (h : callBody off s.advance = .raised ρ info u) : s.FaultsAs (.call off) ρ info u := by
  rcases callBody_eq_raised h with ⟨hf, rfl, rfl⟩ | ⟨nw, v, hread, hcase⟩
  · exact faultsAs_of_leadingRead rfl hf
  · obtain ⟨e, q, rfl, hread'⟩ := hread.of_advance
    have hmade : s.FaultHistory (.call off) e := .made rfl hread'
    rcases hcase with ⟨rfl, rfl, rfl, hn⟩ | ⟨rfl, rfl, rfl, hn, hflow⟩ | ⟨hn, hslot, htop, hframe⟩
    · exact ⟨.frameSize rfl hread' hn, fun _ => hmade⟩
    · exact ⟨.overflow rfl hread' hn hflow, fun _ => hmade⟩
    · obtain ⟨rfl, a, ha, hout, rfl⟩ := enterFrame_raised_outside hframe
      refine ⟨.write (.inr (.inr ⟨_, nw, _, rfl, hread', .inr ⟨rfl, hn, hslot, htop, ha⟩⟩)) hout, fun hsizes => ?_⟩
      exact enterFrame_raised_history (s := s.advance.setDevice e q) hsizes hslot hframe ▸ hmade

/-- `RET`: the read of the saved SPL, then that of the return address (R166). -/
theorem ret_faultsAs {g : BitVec 24} (h : retBody s.advance = .raised ρ info u) : s.FaultsAs (.ret g) ρ info u := by
  rcases retBody_eq_raised h with ⟨hf, rfl, rfl⟩ | ⟨saved, hread, hf, rfl⟩
  · exact faultsAs_of_leadingRead rfl hf
  · obtain ⟨e, q, rfl, hread'⟩ := hread.of_advance
    exact ⟨.read (.inr (.inr (.inr ⟨_, saved, _, rfl, hread', .inr ⟨rfl, rfl⟩⟩))) hf,
      fun _ => .made (u := s.setDevice e q) rfl hread'⟩

/-! ### An instruction and a step -/

section
variable {p : Int} (hrun : s.status = .running) (ht : t.status = .faulted ρ p info)
include hrun ht

/-- An instruction that ends faulted did not complete, since every completed end keeps the status: it took the fault its
body `x` raised. -/
theorem conclude_eq_faulted {x : Res Unit} (hok : ∀ {v : State}, x = .ok () v → s.Ends i v)
    (hraised : ∀ {v : State}, x = .raised ρ info v → s.FaultsAs i ρ info v) (h : conclude s x = .next t) :
    ∃ v, t = takeFault s v ρ info ∧ s.FaultsAs i ρ info v := by
  rcases conclude_eq_next h with hx | ⟨ρ', info', v, hx, rfl⟩
  · have hstatus := (hok hx).status_eq
    simp [hrun, ht] at hstatus
  · cases ht
    exact ⟨v, rfl, hraised hx⟩

/-- Everything an instruction that ends faulted can be. -/
theorem exec_eq_faulted (h : exec i s = .next t) : ∃ v, t = takeFault s v ρ info ∧ s.FaultsAs i ρ info v := by
  cases i.form with
  | nop | swap | jmp =>
    cases h
    simp [hrun] at ht
  | uopL u g =>
    cases exec_uopL_eq_next u g s ▸ h
    simp [hrun] at ht
  | uopR u g =>
    cases exec_uopR_eq_next u g s ▸ h
    simp [hrun] at ht
  | ldsL =>
    exact conclude_eq_faulted hrun ht (direct_ends (loadL_ends (by simp [Instr.op])))
      (direct_faultsAs rfl (loadL_faultsAs · (readsAt_static (by simp [Instr.op]) rfl))) h
  | ldsR =>
    exact conclude_eq_faulted hrun ht (direct_ends (loadR_ends (by simp [Instr.op])))
      (direct_faultsAs rfl (loadR_faultsAs · (readsAt_static (by simp [Instr.op]) rfl))) h
  | ldfL =>
    exact conclude_eq_faulted hrun ht (direct_ends (loadL_ends (by simp [Instr.op])))
      (direct_faultsAs rfl (loadL_faultsAs · (readsAt_frame (by simp [Instr.op]) rfl))) h
  | ldfR =>
    exact conclude_eq_faulted hrun ht (direct_ends (loadR_ends (by simp [Instr.op])))
      (direct_faultsAs rfl (loadR_faultsAs · (readsAt_frame (by simp [Instr.op]) rfl))) h
  | ldsiL | ldfiL =>
    exact conclude_eq_faulted hrun ht (viaPointer_ends fun _ => loadL_ends (by simp [Instr.op]))
      (viaPointer_faultsAs rfl fun hr he => loadL_faultsAs he (readsAt_pointer (by simp [Instr.op]) rfl hr)) h
  | ldsiR | ldfiR =>
    exact conclude_eq_faulted hrun ht (viaPointer_ends fun _ => loadR_ends (by simp [Instr.op]))
      (viaPointer_faultsAs rfl fun hr he => loadR_faultsAs he (readsAt_pointer (by simp [Instr.op]) rfl hr)) h
  | stsL | stsR =>
    exact conclude_eq_faulted hrun ht
      (direct_ends (store_ends (by simp [Instr.op]) (writesAt_static (by simp [Instr.op]) rfl)))
      (direct_faultsAs rfl (store_faultsAs · (writesAt_static (by simp [Instr.op]) rfl))) h
  | stfL | stfR =>
    exact conclude_eq_faulted hrun ht
      (direct_ends (store_ends (by simp [Instr.op]) (writesAt_frame (by simp [Instr.op]) rfl)))
      (direct_faultsAs rfl (store_faultsAs · (writesAt_frame (by simp [Instr.op]) rfl))) h
  | stsiL | stsiR | stfiL | stfiR =>
    exact conclude_eq_faulted hrun ht
      (viaPointer_ends fun hr => store_ends (by simp [Instr.op]) (writesAt_pointer (by simp [Instr.op]) rfl hr))
      (viaPointer_faultsAs rfl fun hr he => store_faultsAs he (writesAt_pointer (by simp [Instr.op]) rfl hr)) h
  | bopL b g =>
    refine conclude_eq_faulted hrun ht (fun hb => ?_) binaryToL_faultsAs (exec_bopL b g s ▸ h)
    obtain ⟨v, -, rfl⟩ := binaryToL_eq_ok hb
    exact .writeL v s.deviceHistory s.deviceReplies (by simp)
  | bopR b g =>
    refine conclude_eq_faulted hrun ht (fun hb => ?_) binaryToR_faultsAs (exec_bopR b g s ▸ h)
    obtain ⟨v, -, rfl⟩ := binaryToR_eq_ok hb
    exact .writeR v s.deviceHistory s.deviceReplies (by simp)
  | brl =>
    exact conclude_eq_faulted hrun ht (branch_ends (.inl rfl) rfl (fun _ => rfl) nofun)
      (fun hx => absurd hx (branch_ne_raised _ _ _)) h
  | brr =>
    exact conclude_eq_faulted hrun ht (branch_ends (.inr rfl) rfl nofun (fun _ => rfl))
      (fun hx => absurd hx (branch_ne_raised _ _ _)) h
  | call => exact conclude_eq_faulted hrun ht call_ends call_faultsAs h
  | ret => exact conclude_eq_faulted hrun ht ret_ends ret_faultsAs h

/-- Everything a step that ends faulted can be: a fault of the fetch or the decode, raised in the state the step
began in, or one of the instruction it runs. -/
theorem step_eq_faulted (h : step s = .next t) :
    (belowCode s = false ∧ fetchDecode s = .raised ρ info s ∧ t = takeFault s s ρ info) ∨
      ∃ w j v, s.Holds s.pcAddr w ∧ decode s.cfg w = .ok j ∧ t = takeFault s v ρ info ∧ s.FaultsAs j ρ info v := by
  rcases step_cases h with ⟨hstop, -⟩ | ⟨-, -, rfl⟩ | ⟨-, hbelow, ⟨ρ', info', hfetch, rfl⟩ | ⟨w, j, hw, hdec, hexec⟩⟩
  · exact absurd hrun hstop
  · cases ht
  · cases ht
    exact .inl ⟨hbelow, hfetch, rfl⟩
  · obtain ⟨v, htake, hfault⟩ := exec_eq_faulted hrun ht hexec
    exact .inr ⟨w, j, v, hw, hdec, htake, hfault⟩

end

/-! ### Faults are precise -/

/-- The history of a fault as the statement says it. -/
theorem State.FaultHistory.eq_of_leadingRead {h : List DeviceEvent} (hh : s.FaultHistory i h) :
    (∀ a v u, s.leadingRead i = some a → ReadGives s a v u → h = u.deviceHistory) ∧
      ((∀ a v u, s.leadingRead i = some a → ¬ ReadGives s a v u) → h = s.deviceHistory) := by
  cases hh with
  | made hlead hread =>
    refine ⟨fun a v u ha hu => ?_, fun hnone => absurd hread (hnone _ _ _ hlead)⟩
    obtain rfl := Option.some.inj (hlead.symm.trans ha)
    rw [hread.unique hu]
  | notMade hnone => exact ⟨fun a v u ha hu => absurd hu (hnone a v u ha), fun _ => rfl⟩

/-- A fault of the fetch or the decode ran no instruction. -/
theorem not_runs_of_fetch_raised (h : fetchDecode s = .raised ρ info u) : ¬ s.Runs i := fun ⟨_, hw, hdec⟩ =>
  nomatch h.symm.trans (fetchDecode_of_holds hw hdec)

end

/-- Settles O35: `takeFault` puts all but the device accesses back; those are the leading read's, if the instruction that
ran made one, since the access that faults is not made. -/
theorem faultsArePrecise : Obligations.FaultsArePrecise := by
  intro s t ρ p info hrun h ht
  rcases step_eq_faulted hrun ht h with ⟨-, hfetch, rfl⟩ | ⟨w, i, u, hw, hdec, rfl, hfault⟩
  · cases ht
    refine ⟨rfl, rfl, rfl, rfl, rfl, rfl, rfl, rfl, rfl, fun _ => ⟨fun i a v u hi => ?_, fun _ => rfl⟩⟩
    exact absurd hi (not_runs_of_fetch_raised hfetch)
  · cases ht
    refine ⟨rfl, rfl, rfl, rfl, rfl, rfl, rfl, rfl, rfl, fun hsizes => ?_⟩
    have hruns : s.Runs i := ⟨w, hw, hdec⟩
    obtain ⟨hmade, hnone⟩ := (hfault.history hsizes).eq_of_leadingRead
    refine ⟨fun j a v x hj => ?_, fun hno => hnone fun a v x => hno i a v x hruns⟩
    exact hj.unique hruns ▸ hmade a v x

/-! ### Faults have only their causes -/

/-- Settles O36: the two parts of the front half, then the causes of the instruction that ran, each by what its part can
raise. -/
theorem faultsHaveOnlyTheirCauses : Obligations.FaultsHaveOnlyTheirCauses := by
  intro s t ρ p info hrun h ht
  rcases step_eq_faulted hrun ht h with ⟨hbelow, hfetch, -⟩ | ⟨w, i, u, hw, hdec, -, hcause, -⟩
  · obtain ⟨-, ⟨⟨hout, rfl⟩ | ⟨hun, rfl⟩, rfl⟩ | ⟨w, e, hw, hdec, rfl, rfl⟩⟩ := fetchDecode_eq_raised hbelow hfetch
    · exact ⟨_, rfl, hout, .inl rfl⟩
    · exact ⟨_, rfl, hun, .inl rfl⟩
    · cases e <;> exact ⟨w, hw, rfl, hdec⟩
  · have hruns : s.Runs i := ⟨w, hw, hdec⟩
    cases hcause with
    | read ha hf =>
      rcases hf with ⟨hout, rfl⟩ | ⟨hun, rfl⟩
      · exact ⟨_, rfl, hout, .inr ⟨i, hruns, .inl ha⟩⟩
      · exact ⟨_, rfl, hun, .inr ⟨i, hruns, ha⟩⟩
    | write ha hout => exact ⟨_, rfl, hout, .inr ⟨i, hruns, .inr ha⟩⟩
    | operator o g hi herr =>
      rw [encode_of_decode hdec]
      have hdecode : decode s.cfg w = .ok (Instr.bopL o g) ∨ decode s.cfg w = .ok (Instr.bopR o g) :=
        hi.imp (fun h => hdec.trans (congrArg _ h)) fun h => hdec.trans (congrArg _ h)
      rcases binop_eq_error herr with ⟨rfl, hop, hmode, hcount⟩ | ⟨rfl, hdiv⟩
      · exact ⟨w, o, g, hw, rfl, hdecode, hop, hmode, hcount⟩
      · rw [sint32_eq_zero, sint32_eq_zero] at hdiv
        exact ⟨w, o, g, hw, rfl, hdecode, hdiv⟩
    | frameSize hi hread hn => exact ⟨_, _, _, hi ▸ hruns, hread, rfl, hn⟩
    | overflow hi hread hn hflow => exact ⟨_, _, _, hi ▸ hruns, hread, rfl, hn, hflow⟩

end Sys2Proof.Machine
end

