-- ==== Sys2Proof/Proofs/Silence.lean ====
section
/-! A device read that is never answered leaves its instruction stuck, at whichever of its reads that happens (R225; the
model's named stop, log 7, 8). -/

namespace Sys2Proof.Machine

section
variable {s t : State} {a b off : Int} {p saved : Word}

/-- Whether a read is answered does not depend on PC: one that sticks after the increment sticks before it. -/
theorem ReadSticks.advance (h : ReadSticks s a) : ReadSticks s.advance a := h

/-- An instruction whose body is stuck does not complete (R225). -/
theorem conclude_of_stuck {x : Res Unit} (h : x = .stuck .deviceReadUnanswered) :
    conclude s x = .fault .deviceReadUnanswered := by
  rw [h, conclude_stuck]

/-! ### Loads, and accesses through a pointer -/

/-- A load begun in `s` and now in `t`, the increment made. -/
theorem conclude_load_of_sticks (s : State) (h : ReadSticks t a) :
    conclude s (loadL a t.advance) = .fault .deviceReadUnanswered ∧
      conclude s (loadR a t.advance) = .fault .deviceReadUnanswered :=
  ⟨conclude_of_stuck (loadL_of_sticks h.advance), conclude_of_stuck (loadR_of_sticks h.advance)⟩

/-- A pointer read that sticks, whatever access was to follow it. -/
theorem conclude_viaPointer_of_sticks (access : Int → State → Res Unit) (h : ReadSticks s b) :
    conclude s (viaPointer b access s.advance) = .fault .deviceReadUnanswered :=
  conclude_of_stuck (viaPointer_of_sticks h.advance)

/-- An indirect load whose pointer read was answered and whose second read sticks. -/
theorem conclude_viaPointer_load_of_sticks (hp : ReadGives s b p t) (h : ReadSticks t (sint32 p)) :
    conclude s (viaPointer b loadL s.advance) = .fault .deviceReadUnanswered ∧
      conclude s (viaPointer b loadR s.advance) = .fault .deviceReadUnanswered := by
  rw [conclude_viaPointer_of_gives loadL hp, conclude_viaPointer_of_gives loadR hp]
  exact conclude_load_of_sticks s h

/-- The six instructions whose first access is a read at one effective address. -/
theorem conclude_first_read_of_sticks (h : ReadSticks s a) :
    conclude s (loadL a s.advance) = .fault .deviceReadUnanswered ∧
    conclude s (loadR a s.advance) = .fault .deviceReadUnanswered ∧
    conclude s (viaPointer a loadL s.advance) = .fault .deviceReadUnanswered ∧
    conclude s (viaPointer a loadR s.advance) = .fault .deviceReadUnanswered ∧
    conclude s (viaPointer a storeL s.advance) = .fault .deviceReadUnanswered ∧
    conclude s (viaPointer a storeR s.advance) = .fault .deviceReadUnanswered := by
  obtain ⟨hl, hr⟩ := conclude_load_of_sticks s h
  exact ⟨hl, hr, conclude_viaPointer_of_sticks loadL h, conclude_viaPointer_of_sticks loadR h,
    conclude_viaPointer_of_sticks storeL h, conclude_viaPointer_of_sticks storeR h⟩

/-! ### `CALL` and `RET` -/

/-- `CALL` stuck on its frame-size read. -/
theorem callBody_of_sticks (h : ReadSticks s (s.cfg.codeBase + off - 1)) :
    callBody off s = .stuck .deviceReadUnanswered := by
  rw [callBody, transferTarget, memRead_of_sticks h, Res.bind_stuck]

/-- `RET` stuck on its read of the saved SPL. -/
theorem retBody_of_sticks (h : ReadSticks s (sint32 s.spl)) : retBody s = .stuck .deviceReadUnanswered := by
  rw [retBody, memRead_of_sticks h, Res.bind_stuck]

/-- `RET` stuck on its read of the return address, the saved SPL having been read. -/
theorem retBody_of_second_sticks (hsaved : ReadGives s (sint32 s.spl) saved t)
    (h : ReadSticks t (sint32 s.spl - 1)) : retBody s = .stuck .deviceReadUnanswered := by
  rw [retBody, memRead_of_gives hsaved, Res.bind_ok, memRead_of_sticks h, Res.bind_stuck]

end

/-- Settles O26: by the read that sticks: a first read at the static and at the frame address, the read through a pointer
at either, the frame-size read of `CALL`, and the two reads of `RET`. -/
theorem unansweredReadsStick : Obligations.UnansweredReadsStick := fun _ _ _ =>
  ⟨conclude_first_read_of_sticks, conclude_first_read_of_sticks,
    fun _ _ hs => ⟨fun hp => conclude_viaPointer_load_of_sticks hp hs, fun hp => conclude_viaPointer_load_of_sticks hp hs⟩,
    fun hs => conclude_of_stuck (callBody_of_sticks hs.advance),
    fun hs => conclude_of_stuck (retBody_of_sticks hs.advance),
    fun _ _ hsaved hs => conclude_of_stuck (retBody_of_second_sticks hsaved.advance hs.advance)⟩

end Sys2Proof.Machine
end

