-- ==== Sys2Proof/Proofs/Start.lean ====
section
/-! The start of `run(words)` (R220, R221): the model's own fields in the state it gives, the images it refuses, and the
first step of the empty image. -/

namespace Sys2Proof.Machine

/-- The empty image fits in every configuration, and puts no word in memory (R220). -/
theorem start_nil (c : Config) (replies : List DeviceReply) :
    State.start c replies [] = .next ((State.resetFor c).setDevice [] replies) :=
  start_of_fits replies (Nat.zero_le _)

/-- Settles O47: the one state a start gives is the reset state with the image and the replies put in. -/
theorem runStartsWithNoDeviceAccess : Obligations.RunStartsWithNoDeviceAccess := by
  refine ⟨fun c replies words s h => ?_, start_nil Config.default []⟩
  obtain ⟨-, rfl⟩ := start_eq_next h
  exact ⟨rfl, rfl, rfl, rfl⟩

/-! ### The refusal -/

theorem start_of_too_long {c : Config} {words : List Word} (replies : List DeviceReply)
    (h : c.stackBase - c.codeBase < words.length) : State.start c replies words = .refused .imageTooLong := by
  simp [State.start, imageFits, h]

/-! ### The empty image -/

section
variable {c : Config} (hsizes : c.SizesValid)
include hsizes

/-- PC names `CODE_BASE` at reset: the sizes of R7 keep it below 2^31, so its word reads back as it (R9, R24). -/
theorem resetFor_pcAddr : (State.resetFor c).pcAddr = c.codeBase := by
  obtain ⟨-, hcode, hstack, hmem, -⟩ := hsizes
  exact BitVec.toInt_ofInt_eq_self (by norm_num) (by omega) (by omega)

/-- With no image the word the first step fetches is a plain word that nothing has written (R33, R221). -/
theorem resetFor_unwritten_pcAddr : (State.resetFor c).Unwritten (State.resetFor c).pcAddr := by
  have hplain : (State.resetFor c).PlainAddr c.codeBase := by
    obtain ⟨-, hcode, hstack, -⟩ := hsizes
    exact ⟨le_rfl, by exact_mod_cast hcode.trans hstack⟩
  rw [resetFor_pcAddr hsizes]
  exact ⟨hplain, rfl⟩

end

/-- Settles O48: by the length of the image; the first fetch of the empty one reads an unwritten word, whatever replies are
laid down. -/
theorem longImageIsRefused : Obligations.LongImageIsRefused := by
  refine fun c replies => ⟨fun _ => start_of_too_long replies, fun hsizes => ⟨_, start_nil c replies, ?_⟩⟩
  have haddr := resetFor_pcAddr hsizes
  rw [← haddr]
  exact step_of_readFaults rfl haddr.ge (.inr ⟨resetFor_unwritten_pcAddr hsizes, rfl⟩)

end Sys2Proof.Machine
end
